-- ==== Sys2Proof/Word.lean ====
section
/-! DEFINITION. The word types of the block: the widths 00_scope.md R8 to R10 read and store. -/

namespace Sys2Proof

/-- One byte of the input record or of the surface. -/
abbrev Byte := BitVec 8

/-- A 16-bit header field (30_encoding.md R49). -/
abbrev Half := BitVec 16

/-- A 32-bit surface word or palette word (00_scope.md, glossary "Word"). -/
abbrev Word := BitVec 32

/-- A 64-bit half of a GIF tag or of a register slot (30_encoding.md R54, R57). -/
abbrev Quad := BitVec 64

end Sys2Proof
end

