-- ==== Sys2Proof/Config.lean ====
section
/-! DEFINITION. The values the spec leaves open and no rule fixes. The parameters of 00_scope.md R7 that carry a
value in the spec stand in Sys2Proof/Machine/Params.lean, and the layout tables in Sys2Proof/Machine/Tables.lean,
so that a corrected literal can be dropped in there (93_implementation_defined.md, sections 2 and 3). -/

namespace Sys2Proof

/-- The color APPLY_PALETTE gives the `k`-th index byte `index` when the palette is EMPTY. 42_format_converter.md
R96 asks for `N > 0` entries and 00_scope.md R9 uses no division by 0, so the spec states no color there: a free
value, of which nothing can be proved. DESIGN CHOICE, safe; log 7. -/
opaque Config.emptyPaletteColor (k : Nat) (index : Byte) : Word

end Sys2Proof
end

