-- ==== Sys2Proof/Machine/Params.lean ====
section
/-! DEFINITION. The implementation parameters of 00_scope.md R7, each under the rule's name, and the literals of the
encodings. They stand under Machine/ so that a corrected literal changes only the definition that carries it
(93_implementation_defined.md, section 3). -/

namespace Sys2Proof.Machine

/-- SURFACE_BYTES, 4 MiB (R7, decision D3). -/
def surfaceBytes : Nat := 4194304

/-- BP_UNIT_WORDS, the unit of the base pointer in words. OPEN parameter of the spec, value 2048 (R7, D1); the
address functions take the unit as an argument and the machine passes this one. Log 9. -/
def bpUnitWords : Nat := 2048

/-- RECORD_LENGTH_UNIT, the unit of `RL` in bytes. OPEN parameter of the spec, value 16 (R7, D6). Log 9. -/
def recordLengthUnit : Nat := 16

/-- HEADER_BYTES (R7, R48, conflict C1). -/
def headerBytes : Nat := 20

/-- FLAT_PALETTE_OFFSET (R7, D7). -/
def flatPaletteOffset : Nat := 20

/-- Bytes of the flat layout's 256-entry palette (R50). -/
def flatPaletteBytes : Nat := 1024

/-- DIRECT_PIXEL_OFFSET, from the tag-stream offset (R7, D8). -/
def directPixelOffset : Nat := 80

/-- Offset of the second tag of the indexed layout, from the tag-stream offset (R52). -/
def secondTagOffset : Nat := 80

/-- Offset of the palette of the indexed layout, from the tag-stream offset (R52, D11). -/
def clutPaletteOffset : Nat := 96

/-- PAGE_WORDS (R7, R77). -/
def pageWords : Nat := 2048

/-- BLOCK_WORDS (R7, R77). -/
def blockWords : Nat := 64

/-- COLUMN_WORDS (R7, R77). -/
def columnWords : Nat := 16

/-- ID_BITBLTBUF (R7, R58). General knowledge of the spec, log 11. -/
def idBitbltbuf : Quad := 0x50#64

/-- ID_TRXPOS (R7, R58). -/
def idTrxpos : Quad := 0x51#64

/-- ID_TRXREG (R7, R58). -/
def idTrxreg : Quad := 0x52#64

/-- The id of TRXDIR (R58): read and ignored. -/
def idTrxdir : Quad := 0x53#64

/-- PSM_PSMCT32, the one storage format code the block tests (R7, R64). -/
def psmPsmct32 : BitVec 6 := 0#6

/-- FLG of an image packet (R55). -/
def flgImage : BitVec 2 := 2#2

/-- First-tag NLOOP of the direct class (R53). -/
def nloopDirect : BitVec 15 := 3#15

/-- First-tag NLOOP of the indexed class (R53). -/
def nloopIndexed : BitVec 15 := 4#15

/-- Readback granularity of a 4-bit destination, in pixels (43_sequencer.md R110). -/
def granularity4 : Nat := 16

/-- Readback granularity of an 8-bit destination, in pixels (R110). -/
def granularity8 : Nat := 64

end Sys2Proof.Machine
end

