-- ==== Sys2Proof/Syntax.lean ====
section
/-! DEFINITION. The instructions: one constructor per row of spec/opcode_table.json, with the operands the
spec's encodings (30_encoding.md) and the operation port (R68) give each. -/

namespace Sys2Proof

/-- A palette entry or pixel: four byte channels, copied and never computed (00_scope.md R9, 30_encoding.md R65). -/
structure Color where
  r : Byte
  g : Byte
  b : Byte
  a : Byte
  deriving DecidableEq, Repr

/-- The 20-byte record header, its unused fields included (30_encoding.md R49). -/
structure Header where
  width   : Half
  height  : Half
  unused4 : Half
  recLen  : Half
  unused8 : Word
  unused12 : Word
  tagOff  : Word
  deriving DecidableEq, Repr

/-- The fields of a GIF tag that select nothing and are discarded: 30_encoding.md R54 gives their places and R62
says that whatever they hold the block behaves the same. NLOOP and FLG stand apart. -/
structure TagRest where
  eop  : BitVec 1
  gap  : BitVec 30
  pre  : BitVec 1
  prim : BitVec 11
  nreg : BitVec 4
  regs : Quad
  deriving DecidableEq, Repr

/-- What PARSE_TAG answers (40_tag_parser.md R70). -/
structure TagDescriptor where
  nloop : BitVec 15
  eop   : BitVec 1
  flg   : BitVec 2
  deriving DecidableEq, Repr

/-- The two kinds of packet (30_encoding.md R55). -/
inductive TagKind where
  | registerBatch
  | image
  deriving DecidableEq, Repr

/-- An operation as it is presented on the port (30_encoding.md R68): the 4-bit code, then its operands in the
order of the rule's table: numbers (a field of fixed width is one number), one byte string, one palette. The spec
gives the operands no bits; a number that is not there is 0. DESIGN CHOICE, log 3. -/
structure PortOp where
  code  : BitVec 4
  nums  : List Nat
  data  : List Byte
  pal   : List Color
  deriving DecidableEq, Repr

/-- The instructions of the block. -/
inductive Instr where
  /-- RECORD_FLAT, 30_encoding.md R50: a header with `T <= 0`. -/
  | recordFlat (hd : Header)
  /-- RECORD_DIRECT, R51 and R53: first-tag NLOOP 3; the tag's other fields are not examined (D44). -/
  | recordDirect (flg : BitVec 2) (rest : TagRest)
  /-- RECORD_INDEXED, R52 and R53: first-tag NLOOP 4. -/
  | recordIndexed (flg : BitVec 2) (rest : TagRest)
  /-- RECORD_BLANK, R53: any other first-tag NLOOP. -/
  | recordBlank (nloop : BitVec 15) (flg : BitVec 2) (rest : TagRest)
  /-- GIFTAG_PACKED, R55: FLG 0, a register batch. -/
  | giftagPacked (nloop : BitVec 15) (rest : TagRest)
  /-- GIFTAG_REGLIST, R55: FLG 1, a register batch in this block. -/
  | giftagReglist (nloop : BitVec 15) (rest : TagRest)
  /-- GIFTAG_IMAGE, R55: FLG 2, an image payload. -/
  | giftagImage (nloop : BitVec 15) (rest : TagRest)
  /-- GIFTAG_DISABLED, R55: FLG 3, a register batch in this block. -/
  | giftagDisabled (nloop : BitVec 15) (rest : TagRest)
  /-- AD_BITBLTBUF, R58 and R59: a slot with id 0x50. -/
  | adBitbltbuf (v : Quad)
  /-- AD_TRXPOS, R58 and R60: a slot with id 0x51. -/
  | adTrxpos (v : Quad)
  /-- AD_TRXREG, R58 and R61: a slot with id 0x52. -/
  | adTrxreg (v : Quad)
  /-- AD_TRXDIR, R58: a slot with id 0x53, ignored. -/
  | adTrxdir (v : Quad)
  /-- AD_OTHER, R58: a slot with any other id, ignored. -/
  | adOther (id v : Quad)
  /-- OP_PARSE_TAG, R70: input offset `a`. -/
  | opParseTag (a : Nat)
  /-- OP_TOTAL_LEN, R71. -/
  | opTotalLen (tag : TagDescriptor)
  /-- OP_FIND_REG, R72. -/
  | opFindReg (scanStart loopCount : Nat) (registerId : Quad) (bound : Nat)
  /-- OP_LATCH_BITBLTBUF, R73. -/
  | opLatchBitbltbuf (v : Quad)
  /-- OP_LATCH_TRXPOS, R74. -/
  | opLatchTrxpos (v : Quad)
  /-- OP_LATCH_TRXREG, R75. -/
  | opLatchTrxreg (v : Quad)
  /-- OP_WRITE_PSMCT32, R88: operand widths as the rule gives them. -/
  | opWritePsmct32 (dbp : BitVec 14) (dbw : BitVec 6) (dsax dsay : BitVec 11) (rrw rrh : BitVec 12) (src : List Byte)
  /-- OP_READ_PSMCT32, R89: operands as for R88, without the source. -/
  | opReadPsmct32 (dbp : BitVec 14) (dbw : BitVec 6) (x0 y0 : BitVec 11) (w h : BitVec 12)
  /-- OP_READ_PSMT8, R90: the rule gives its operands no widths, so they are naturals (00_scope.md R9, log 8). -/
  | opReadPsmt8 (dbp dbw x0 y0 w h : Nat)
  /-- OP_READ_PSMT4, R91: operands as for READ_PSMT8. -/
  | opReadPsmt4 (dbp dbw x0 y0 w h : Nat)
  /-- OP_READ_PALETTE, R92: input offset `p`, declared width and height. -/
  | opReadPalette (p w h : Nat)
  /-- OP_READ_FLAT_PALETTE, R93. -/
  | opReadFlatPalette (p : Nat)
  /-- OP_UNSWIZZLE_CLUT, R94. -/
  | opUnswizzleClut (pal : List Color)
  /-- OP_APPLY_PALETTE, R96. -/
  | opApplyPalette (pal : List Color) (idx : List Byte)
  /-- OP_EXPAND4, R97. -/
  | opExpand4 (bs : List Byte)
  /-- OP_DECODE, R98: the whole transaction over the record `rec`. -/
  | opDecode (record : List Byte)
  deriving DecidableEq, Repr

end Sys2Proof
end

