-- ==== Sys2Proof/Machine/State.lean ====
section
/-! DEFINITION. The state of the block (10_state.md), as plain data, its value at reset, and the reasons a step could
stop. INVENTORY.md lists every field with the rule that names it. -/

namespace Sys2Proof.Machine

/-- The sequencer phase (10_state.md R18). -/
inductive Phase where
  | header
  | flat
  | direct
  | clutLoad
  | scanning
  | transferring
  | readback
  | done
  | failed
  deriving DecidableEq, Repr

/-- A final phase: the transaction has ended (R18). -/
def Phase.isFinal : Phase → Bool
  | .done => true
  | .failed => true
  | .header => false
  | .flat => false
  | .direct => false
  | .clutLoad => false
  | .scanning => false
  | .transferring => false
  | .readback => false

/-- The BITBLTBUF latch (R20). -/
structure Bitbltbuf where
  dbp  : BitVec 14
  dbw  : BitVec 6
  dpsm : BitVec 6
  deriving DecidableEq, Repr

/-- The TRXPOS latch (R21). -/
structure Trxpos where
  dsax : BitVec 11
  dsay : BitVec 11
  deriving DecidableEq, Repr

/-- The TRXREG latch (R22). -/
structure Trxreg where
  rrw : BitVec 12
  rrh : BitVec 12
  deriving DecidableEq, Repr

/-- The two kinds of pixel of a result (R28). -/
inductive PixelKind where
  | directColor
  | indexed8
  deriving DecidableEq, Repr

/-- A RasterImage (R28). -/
structure RasterImage where
  width   : Half
  height  : Half
  kind    : PixelKind
  buffer  : List Byte
  palette : Option (List Color)
  deriving DecidableEq, Repr

/-- Bytes per row of an image (R28): `width` for Indexed8, `4 * width` for DirectColor. -/
def RasterImage.stride (img : RasterImage) : Nat :=
  match img.kind with
  | .indexed8 => img.width.toNat
  | .directColor => 4 * img.width.toNat

/-- The two typed errors (60_exceptions.md R112). -/
inductive ErrorKind where
  | invalidHeader
  | outOfBounds
  deriving DecidableEq, Repr

/-- The numeric code of an error (R112, D45). -/
def ErrorKind.code : ErrorKind → Nat
  | .invalidHeader => 1
  | .outOfBounds => 2

/-- `raise E(info)` (00_scope.md R10): the kind, and for OutOfBounds the range `(a, n)` that failed (R112). -/
inductive Raise where
  | invalidHeader
  | outOfBounds (a n : Nat)
  deriving DecidableEq, Repr

/-- The error value the host receives: the kind alone, since `(a, n)` is not compared (R112, D45). -/
def Raise.kind : Raise → ErrorKind
  | .invalidHeader => .invalidHeader
  | .outOfBounds _ _ => .outOfBounds

/-- The diagnostic data of an error (R112, I19). -/
def Raise.diag : Raise → Option (Nat × Nat)
  | .invalidHeader => none
  | .outOfBounds a n => some (a, n)

/-- What the result register holds once the transaction ended (R28). -/
inductive Result where
  | image (img : RasterImage)
  | error (kind : ErrorKind)
  deriving DecidableEq, Repr

/-- A request of the host: an operation on the port (30_encoding.md R68), or one register slot, value and id, given
to the tag parser on its own (log 3, log 4). The model's own type. -/
inductive Request where
  | op (p : PortOp)
  | slot (v id : Quad)
  deriving DecidableEq, Repr

/-- The value a port operation answers (R68, column "result"). The model's own type. -/
inductive PortOut where
  /-- nothing answered yet. -/
  | none
  /-- the operation wrote a latch or the surface and answers no value. -/
  | written
  /-- PARSE_TAG: the descriptor and its kind (R70). -/
  | tag (t : TagDescriptor) (kind : TagKind)
  /-- TOTAL_LEN: a byte count. -/
  | length (n : Nat)
  /-- FIND_REG: a slot offset, 0 for "not found". -/
  | offset (n : Nat)
  /-- a byte string. -/
  | bytes (bs : List Byte)
  /-- a palette. -/
  | palette (pal : List Color)
  deriving DecidableEq, Repr

/-- The surface `M` (R23): its non-zero bytes, addresses strictly rising; an unlisted byte reads 0, the reset
contents of R30. Log 19. -/
abbrev Memory := List Host.Cell

/-- The canonical form of a memory: addresses strictly rising, every one inside the surface, no zero byte. -/
abbrev Memory.wf (m : Memory) : Prop :=
  m.Pairwise (fun c d => c.1 < d.1) ∧ ∀ c ∈ m, c.1 < surfaceBytes ∧ c.2 ≠ 0#8

/-- The state of the block. -/
structure State where
  /-- `In`, the input record (R14). -/
  inp : List Byte
  /-- `cur`, the scan cursor: the block's program counter (R15). -/
  cur : Nat
  /-- `END`, the scan end (R16). -/
  scanEnd : Nat
  /-- `W` (R17). -/
  width : Half
  /-- `H` (R17). -/
  height : Half
  /-- `RL` (R17). -/
  recLen : Half
  /-- `T`, signed (R17). -/
  tagOff : Word
  /-- R18. -/
  phase : Phase
  /-- R20. -/
  bitbltbuf : Bitbltbuf
  /-- R21. -/
  trxpos : Trxpos
  /-- R22. -/
  trxreg : Trxreg
  /-- `M` (R23). -/
  surface : Memory
  /-- `PAL`; its count `N` is the length (R24). -/
  pal : List Color
  /-- `S` (R25). -/
  surfaceUsed : Bool
  /-- `LB` (R26). -/
  lb : List Byte
  /-- `odd`, the nibble phase (R27). -/
  odd : Bool
  /-- The result register (R28). -/
  result : Option Result
  /-- The `(a, n)` of an OutOfBounds error (R112): diagnostic, read by no rule. -/
  diag : Option (Nat × Nat)
  /-- The request waiting on the operation port; a running transaction does not see it (log 16). The MODEL's own field
  (log 3). -/
  port : Option Request
  /-- What the last port operation answered. The MODEL's own field (log 3). -/
  out : PortOut
  deriving DecidableEq, Repr

/-- The state at the start of a transaction: every value is R30's (and R123's); `In` is the transaction's argument and
is not reset: here it is empty, DESIGN CHOICE (log 1). -/
def State.reset : State :=
  { inp := []
    cur := 0
    scanEnd := 0
    width := 0#16
    height := 0#16
    recLen := 0#16
    tagOff := 0#32
    phase := .header
    bitbltbuf := { dbp := 0#14, dbw := 0#6, dpsm := 0#6 }
    trxpos := { dsax := 0#11, dsay := 0#11 }
    trxreg := { rrw := 0#12, rrh := 0#12 }
    surface := []
    pal := []
    surfaceUsed := false
    lb := []
    odd := false
    result := none
    diag := none
    port := none
    out := .none }

/-- Why a step could stop the machine. No constructor: the block has no event that stops it. Its two typed errors are
results, taken as next states (60_exceptions.md R112, R115), and every access outside the surface is clipped
(20_memory.md R37, R38). Nothing raises a fault: safe. -/
inductive Fault where
  deriving DecidableEq, Repr

/-- Why a step could have no meaning. -/
inductive Refusal where
  /-- an instruction without a meaning, raised by an arm of exec that has none; no arm raises it here. Safe. -/
  | notModelled (mnemonic : String)
  deriving DecidableEq, Repr

end Sys2Proof.Machine
end

