-- ==== Sys2Proof/Machine/Flags.lean ====
section
/-! DEFINITION. The block has no condition flags (10_state.md R29). Its two one-bit states are computed here: the
surface-used flag `S` (R25) and the nibble phase `odd` (R27). -/

namespace Sys2Proof.Machine

/-- Whether a transfer goes through the surface (43_sequencer.md R109): always with 256 entries, else only when the
destination format is PSMCT32. -/
def goesThroughSurface (entries : Nat) (dpsm : BitVec 6) : Bool :=
  entries == 256 || dpsm == psmPsmct32

/-- The nibble phase after `n` pixels of one READ_PSMT4: 0 at the start, toggled by every pixel (R27, R91). -/
def nibblePhase (n : Nat) : Bool := n % 2 == 1

end Sys2Proof.Machine
end

