-- ==== Sys2Proof/WellFormed.lean ====
section
/-! DEFINITION. Which instruction terms the spec's encodings and operand lists admit. -/

namespace Sys2Proof

/-- A header selects the flat class when its signed `T` is not positive (30_encoding.md R49, R50). -/
abbrev Header.isFlat (hd : Header) : Prop := hd.tagOff.toInt ≤ 0

/-- A first-tag NLOOP of the blank class: neither 3 nor 4 (30_encoding.md R53). -/
abbrev BlankLoopCount (nloop : BitVec 15) : Prop :=
  nloop ≠ Machine.nloopDirect ∧ nloop ≠ Machine.nloopIndexed

/-- A register id no row of 30_encoding.md R58 but the last names. -/
abbrev OtherRegisterId (id : Quad) : Prop :=
  id ≠ Machine.idBitbltbuf ∧ id ≠ Machine.idTrxpos ∧ id ≠ Machine.idTrxreg ∧ id ≠ Machine.idTrxdir

/-- An instruction the spec's encodings admit. Every field of fixed width takes any value its width holds (R67), so
only the selecting fields are checked, and the operand condition of APPLY_PALETTE (42_format_converter.md R96:
a palette with `N > 0` entries). -/
def WellFormed (i : Instr) : Bool :=
  match i with
  | .recordFlat hd => decide hd.isFlat
  | .recordDirect _ _ => true
  | .recordIndexed _ _ => true
  | .recordBlank nloop _ _ => decide (BlankLoopCount nloop)
  | .giftagPacked _ _ => true
  | .giftagReglist _ _ => true
  | .giftagImage _ _ => true
  | .giftagDisabled _ _ => true
  | .adBitbltbuf _ => true
  | .adTrxpos _ => true
  | .adTrxreg _ => true
  | .adTrxdir _ => true
  | .adOther id _ => decide (OtherRegisterId id)
  | .opParseTag _ => true
  | .opTotalLen _ => true
  | .opFindReg _ _ _ _ => true
  | .opLatchBitbltbuf _ => true
  | .opLatchTrxpos _ => true
  | .opLatchTrxreg _ => true
  | .opWritePsmct32 _ _ _ _ _ _ _ => true
  | .opReadPsmct32 _ _ _ _ _ _ => true
  | .opReadPsmt8 _ _ _ _ _ _ => true
  | .opReadPsmt4 _ _ _ _ _ _ => true
  | .opReadPalette _ _ _ => true
  | .opReadFlatPalette _ => true
  | .opUnswizzleClut _ => true
  | .opApplyPalette pal _ => decide (pal ≠ [])
  | .opExpand4 _ => true
  | .opDecode _ => true

end Sys2Proof
end

