-- ==== Sys2Proof/Decode.lean ====
section
/-! DEFINITION. From bits to instructions and back (30_encoding.md). The block reads several encodings, told apart by
where they stand in the stream and not by their bits (R56: "nothing marks a tag as such"); `Encoded` names the
place. Decoding is total and rejects by name; the encoder is written from the same tables. -/

namespace Sys2Proof

/-! ### Byte order (20_memory.md R33: every multi-byte field is little-endian) -/

/-- The unsigned little-endian value of a byte string (00_scope.md R10, InRead). -/
def leNat : List Byte → Nat
  | [] => 0
  | b :: bs => b.toNat + 256 * leNat bs

/-- The `n` bytes of `v`, least significant first. -/
def leBytes : Nat → Nat → List Byte
  | 0, _ => []
  | n + 1, v => BitVec.ofNat 8 v :: leBytes n (v / 256)

/-- The `w`-bit little-endian field of `bs` at byte `start`, `n` bytes long; bytes past the end count as 0. -/
def fieldAt (w : Nat) (bs : List Byte) (start n : Nat) : BitVec w :=
  BitVec.ofNat w (leNat ((bs.drop start).take n))

/-! ### Fields of a GIF tag (R54) -/

/-- NLOOP, `lo[14:0]`. -/
def tagNloop (lo : Quad) : BitVec 15 := lo.extractLsb' 0 15

/-- EOP, `lo[15]`. -/
def tagEop (lo : Quad) : BitVec 1 := lo.extractLsb' 15 1

/-- FLG, `lo[59:58]`. -/
def tagFlg (lo : Quad) : BitVec 2 := lo.extractLsb' 58 2

/-- The discarded fields of a tag (R62). -/
def tagRest (lo hi : Quad) : TagRest :=
  { eop := tagEop lo, gap := lo.extractLsb' 16 30, pre := lo.extractLsb' 46 1, prim := lo.extractLsb' 47 11,
    nreg := lo.extractLsb' 60 4, regs := hi }

/-- What PARSE_TAG keeps of a tag (40_tag_parser.md R70). -/
def tagDescriptor (lo : Quad) : TagDescriptor :=
  { nloop := tagNloop lo, eop := tagEop lo, flg := tagFlg lo }

/-- The kind of a packet: 2 is an image, every other FLG a register batch (R55). -/
def TagDescriptor.kind (t : TagDescriptor) : TagKind :=
  if t.flg = Machine.flgImage then .image else .registerBatch

/-! ### Decoding, one decoder per place -/

/-- A tag of the stream: FLG selects (R55). -/
def decodeTag (lo hi : Quad) : Instr :=
  if tagFlg lo = 0#2 then .giftagPacked (tagNloop lo) (tagRest lo hi)
  else if tagFlg lo = 1#2 then .giftagReglist (tagNloop lo) (tagRest lo hi)
  else if tagFlg lo = Machine.flgImage then .giftagImage (tagNloop lo) (tagRest lo hi)
  else .giftagDisabled (tagNloop lo) (tagRest lo hi)

/-- The first tag of a record: NLOOP alone selects the class (R53, D44). -/
def decodeFirstTag (lo hi : Quad) : Instr :=
  if tagNloop lo = Machine.nloopDirect then .recordDirect (tagFlg lo) (tagRest lo hi)
  else if tagNloop lo = Machine.nloopIndexed then .recordIndexed (tagFlg lo) (tagRest lo hi)
  else .recordBlank (tagNloop lo) (tagFlg lo) (tagRest lo hi)

/-- A register slot: the whole 64-bit id selects (R57, R58, D12). -/
def decodeSlot (v id : Quad) : Instr :=
  if id = Machine.idBitbltbuf then .adBitbltbuf v
  else if id = Machine.idTrxpos then .adTrxpos v
  else if id = Machine.idTrxreg then .adTrxreg v
  else if id = Machine.idTrxdir then .adTrxdir v
  else .adOther id v

/-- The header's fields (R49). -/
def headerOf (bs : List Byte) : Header :=
  { width := fieldAt 16 bs 0 2, height := fieldAt 16 bs 2 2, unused4 := fieldAt 16 bs 4 2, recLen := fieldAt 16 bs 6 2,
    unused8 := fieldAt 32 bs 8 4, unused12 := fieldAt 32 bs 12 4, tagOff := fieldAt 32 bs 16 4 }

/-- The `k`-th number operand of a port operation; one that is not there is 0. -/
def PortOp.num (p : PortOp) (k : Nat) : Nat := p.nums.getD k 0

/-- An operation of the port (R68): every code is assigned; a number of stated width `N` is taken modulo `2^N` (R9). -/
def decodePort (p : PortOp) : Instr :=
  match p.code.toNat with
  | 0 => .opParseTag (p.num 0)
  | 1 => .opTotalLen { nloop := .ofNat 15 (p.num 0), eop := .ofNat 1 (p.num 1), flg := .ofNat 2 (p.num 2) }
  | 2 => .opFindReg (p.num 0) (p.num 1) (.ofNat 64 (p.num 2)) (p.num 3)
  | 3 => .opLatchBitbltbuf (.ofNat 64 (p.num 0))
  | 4 => .opLatchTrxpos (.ofNat 64 (p.num 0))
  | 5 => .opLatchTrxreg (.ofNat 64 (p.num 0))
  | 6 => .opWritePsmct32 (.ofNat 14 (p.num 0)) (.ofNat 6 (p.num 1)) (.ofNat 11 (p.num 2)) (.ofNat 11 (p.num 3))
      (.ofNat 12 (p.num 4)) (.ofNat 12 (p.num 5)) p.data
  | 7 => .opReadPsmct32 (.ofNat 14 (p.num 0)) (.ofNat 6 (p.num 1)) (.ofNat 11 (p.num 2)) (.ofNat 11 (p.num 3))
      (.ofNat 12 (p.num 4)) (.ofNat 12 (p.num 5))
  | 8 => .opReadPsmt8 (p.num 0) (p.num 1) (p.num 2) (p.num 3) (p.num 4) (p.num 5)
  | 9 => .opReadPsmt4 (p.num 0) (p.num 1) (p.num 2) (p.num 3) (p.num 4) (p.num 5)
  | 10 => .opReadPalette (p.num 0) (p.num 1) (p.num 2)
  | 11 => .opReadFlatPalette (p.num 0)
  | 12 => .opUnswizzleClut p.pal
  | 13 => .opApplyPalette p.pal p.data
  | 14 => .opExpand4 p.data
  | _ => .opDecode p.data

/-- The places an instruction's encoding can stand in: the record's header, its first tag, a tag of the stream, a
register slot (bytes, in the order they lie in the record), the operation port. -/
inductive Encoded where
  | header (bs : List Byte)
  | firstTag (bs : List Byte)
  | tag (bs : List Byte)
  | slot (bs : List Byte)
  | port (p : PortOp)
  deriving DecidableEq, Repr

/-- Why bytes are no instruction of their place. -/
inductive DecodeError where
  /-- the bytes are not as many as the place's encoding has: 20 for a header, 16 for a tag or slot. -/
  | wrongLength (expected got : Nat)
  /-- a header with `T > 0`: its class is chosen by the first tag (R53), the header alone is no RECORD_FLAT. -/
  | notFlat (tagOff : Word)
  deriving DecidableEq, Repr

/-- Decode an encoding: total, rejecting by name. -/
def decode : Encoded → Except DecodeError Instr
  | .header bs =>
    if bs.length ≠ 20 then .error (.wrongLength 20 bs.length)
    else if (headerOf bs).isFlat then .ok (.recordFlat (headerOf bs))
    else .error (.notFlat (headerOf bs).tagOff)
  | .firstTag bs =>
    if bs.length ≠ 16 then .error (.wrongLength 16 bs.length)
    else .ok (decodeFirstTag (fieldAt 64 bs 0 8) (fieldAt 64 bs 8 8))
  | .tag bs =>
    if bs.length ≠ 16 then .error (.wrongLength 16 bs.length)
    else .ok (decodeTag (fieldAt 64 bs 0 8) (fieldAt 64 bs 8 8))
  | .slot bs =>
    if bs.length ≠ 16 then .error (.wrongLength 16 bs.length)
    else .ok (decodeSlot (fieldAt 64 bs 0 8) (fieldAt 64 bs 8 8))
  | .port p => .ok (decodePort p)

/-! ### Encoding -/

/-- The low half of a tag (R54), from the most significant field down. -/
def tagLo (nloop : BitVec 15) (flg : BitVec 2) (r : TagRest) : Quad :=
  r.nreg ++ flg ++ r.prim ++ r.pre ++ r.gap ++ r.eop ++ nloop

/-- The 16 bytes of a tag. -/
def tagBytes (nloop : BitVec 15) (flg : BitVec 2) (r : TagRest) : List Byte :=
  leBytes 8 (tagLo nloop flg r).toNat ++ leBytes 8 r.regs.toNat

/-- The 16 bytes of a slot: the value, then the id at +8 (R57). -/
def slotBytes (v id : Quad) : List Byte := leBytes 8 v.toNat ++ leBytes 8 id.toNat

/-- The 20 bytes of a header (R49). -/
def headerBytesOf (hd : Header) : List Byte :=
  leBytes 2 hd.width.toNat ++ leBytes 2 hd.height.toNat ++ leBytes 2 hd.unused4.toNat ++ leBytes 2 hd.recLen.toNat ++
    leBytes 4 hd.unused8.toNat ++ leBytes 4 hd.unused12.toNat ++ leBytes 4 hd.tagOff.toNat

/-- A port operation with only number operands. -/
def portNums (code : BitVec 4) (nums : List Nat) : PortOp := { code := code, nums := nums, data := [], pal := [] }

/-- The encoding of an instruction. -/
def encode : Instr → Encoded
  | .recordFlat hd => .header (headerBytesOf hd)
  | .recordDirect flg r => .firstTag (tagBytes Machine.nloopDirect flg r)
  | .recordIndexed flg r => .firstTag (tagBytes Machine.nloopIndexed flg r)
  | .recordBlank n flg r => .firstTag (tagBytes n flg r)
  | .giftagPacked n r => .tag (tagBytes n 0#2 r)
  | .giftagReglist n r => .tag (tagBytes n 1#2 r)
  | .giftagImage n r => .tag (tagBytes n Machine.flgImage r)
  | .giftagDisabled n r => .tag (tagBytes n 3#2 r)
  | .adBitbltbuf v => .slot (slotBytes v Machine.idBitbltbuf)
  | .adTrxpos v => .slot (slotBytes v Machine.idTrxpos)
  | .adTrxreg v => .slot (slotBytes v Machine.idTrxreg)
  | .adTrxdir v => .slot (slotBytes v Machine.idTrxdir)
  | .adOther id v => .slot (slotBytes v id)
  | .opParseTag a => .port (portNums 0#4 [a])
  | .opTotalLen t => .port (portNums 1#4 [t.nloop.toNat, t.eop.toNat, t.flg.toNat])
  | .opFindReg s n id b => .port (portNums 2#4 [s, n, id.toNat, b])
  | .opLatchBitbltbuf v => .port (portNums 3#4 [v.toNat])
  | .opLatchTrxpos v => .port (portNums 4#4 [v.toNat])
  | .opLatchTrxreg v => .port (portNums 5#4 [v.toNat])
  | .opWritePsmct32 dbp dbw dsax dsay rrw rrh src =>
    .port { code := 6#4, nums := [dbp.toNat, dbw.toNat, dsax.toNat, dsay.toNat, rrw.toNat, rrh.toNat], data := src,
            pal := [] }
  | .opReadPsmct32 dbp dbw x0 y0 w h => .port (portNums 7#4 [dbp.toNat, dbw.toNat, x0.toNat, y0.toNat, w.toNat, h.toNat])
  | .opReadPsmt8 dbp dbw x0 y0 w h => .port (portNums 8#4 [dbp, dbw, x0, y0, w, h])
  | .opReadPsmt4 dbp dbw x0 y0 w h => .port (portNums 9#4 [dbp, dbw, x0, y0, w, h])
  | .opReadPalette p w h => .port (portNums 10#4 [p, w, h])
  | .opReadFlatPalette p => .port (portNums 11#4 [p])
  | .opUnswizzleClut pal => .port { code := 12#4, nums := [], data := [], pal := pal }
  | .opApplyPalette pal idx => .port { code := 13#4, nums := [], data := idx, pal := pal }
  | .opExpand4 bs => .port { code := 14#4, nums := [], data := bs, pal := [] }
  | .opDecode record => .port { code := 15#4, nums := [], data := record, pal := [] }

/-! ### The opcode table's own numbering of bits -/

/-- The place a row of spec/opcode_table.json stands in, by how many bits the table gives it: no bits (RECORD_FLAT,
whose row has no match), the 4-bit OP code, the 15-bit NLOOP of a first tag, the low half of a GIF tag, a whole slot,
a whole header. DESIGN CHOICE of the place, log 15. -/
def tableEncoding (nbits w : Nat) : Option Encoded :=
  if nbits = 0 then some (.header (leBytes 20 0))
  else if nbits ≤ 8 then (if w < 16 then some (.port (portNums (.ofNat 4 w) [])) else none)
  else if nbits ≤ 16 then some (.firstTag (leBytes 16 (w % 2 ^ 16)))
  else if nbits ≤ 64 then some (.tag (leBytes 16 (w % 2 ^ 64)))
  else if nbits ≤ 128 then some (.slot (leBytes 16 w))
  else if nbits ≤ 160 then some (.header (leBytes 20 w))
  else none

/-- The instruction the decoder reads from a row's bits (bit 0 the least significant bit of the first byte). -/
def decodeTableWord (nbits w : Nat) : Option Instr :=
  match tableEncoding nbits w with
  | none => none
  | some e =>
    match decode e with
    | .ok i => some i
    | .error _ => none

end Sys2Proof
end

