-- ==== Sys2Proof/Machine/Operands.lean ====
section
/-! DEFINITION. Operand assembly: reads of the input record with their bounds check, tags, slots, latch fields and
palette entries (20_memory.md section 2, 30_encoding.md, 40_tag_parser.md, R63). -/

namespace Sys2Proof.Machine

/-! ### Input reads (20_memory.md R32) -/

/-- `InBytes(a, n)`: the byte string, or OutOfBounds when the range leaves the record; nothing is read then. -/
def inBytes (inp : List Byte) (a n : Nat) : Except Raise (List Byte) :=
  if inp.length < a + n then .error (.outOfBounds a n) else .ok ((inp.drop a).take n)

/-- `InRead(a, n)`: the little-endian value of `n` bytes, with the same check (R32, R33). -/
def inRead (inp : List Byte) (a n : Nat) : Except Raise Nat :=
  match inBytes inp a n with
  | .error e => .error e
  | .ok bs => .ok (leNat bs)

/-- An 8-byte value of the stream. -/
def inQuad (inp : List Byte) (a : Nat) : Except Raise Quad :=
  match inRead inp a 8 with
  | .error e => .error e
  | .ok v => .ok (BitVec.ofNat 64 v)

/-! ### Tags (40_tag_parser.md R70, R71) -/

/-- Both halves of the tag at `a`, each checked (R54, R70). -/
def fetchTag (inp : List Byte) (a : Nat) : Except Raise (Quad × Quad) :=
  match inQuad inp a with
  | .error e => .error e
  | .ok lo =>
    match inQuad inp (a + 8) with
    | .error e => .error e
    | .ok hi => .ok (lo, hi)

/-- `PARSE_TAG(a)`: the high half is read for the bounds check only (R70). -/
def parseTag (inp : List Byte) (a : Nat) : Except Raise TagDescriptor :=
  match fetchTag inp a with
  | .error e => .error e
  | .ok (lo, _) => .ok (tagDescriptor lo)

/-- `PAYLOAD_LEN`: the bytes after a tag (R71). -/
def payloadLen (nloop : BitVec 15) : Nat := 16 * nloop.toNat

/-- `TOTAL_LEN`: the bytes of a packet, tag included (R71). -/
def totalLen (nloop : BitVec 15) : Nat := 16 + 16 * nloop.toNat

/-! ### Slots (R57, R72) -/

/-- `FIND_REG`: offset of the first slot whose whole 64-bit id is `id`, 0 if none; slots that do not fit below
`bound` are not examined (R72, D12, D13). First argument after the bound: slots left, then the next slot's offset. -/
def findReg (inp : List Byte) (id : Quad) (bound : Nat) : Nat → Nat → Except Raise Nat
  | 0, _ => .ok 0
  | left + 1, slot =>
    if bound < slot + 16 then .ok 0
    else
      match inQuad inp (slot + 8) with
      | .error e => .error e
      | .ok found => if found = id then .ok slot else findReg inp id bound left (slot + 16)

/-- The value of the first slot with id `id`, if there is one: FIND_REG, then `InRead(o, 8)` (R76, R105). -/
def lookupReg (inp : List Byte) (slots loopCount : Nat) (id : Quad) (bound : Nat) : Except Raise (Option Quad) :=
  match findReg inp id bound loopCount slots with
  | .error e => .error e
  | .ok o =>
    if o = 0 then .ok none
    else
      match inQuad inp o with
      | .error e => .error e
      | .ok v => .ok (some v)

/-! ### Latch fields (R59 to R61, R73 to R75; positions are general knowledge of the spec, log 11) -/

/-- LATCH_BITBLTBUF: `v[45:32]`, `v[53:48]`, `v[61:56]` (R73). -/
def latchBitbltbuf (v : Quad) : Bitbltbuf :=
  { dbp := v.extractLsb' 32 14, dbw := v.extractLsb' 48 6, dpsm := v.extractLsb' 56 6 }

/-- LATCH_TRXPOS: `v[42:32]`, `v[58:48]` (R74). -/
def latchTrxpos (v : Quad) : Trxpos :=
  { dsax := v.extractLsb' 32 11, dsay := v.extractLsb' 48 11 }

/-- LATCH_TRXREG: `v[11:0]`, `v[43:32]` (R75). -/
def latchTrxreg (v : Quad) : Trxreg :=
  { rrw := v.extractLsb' 0 12, rrh := v.extractLsb' 32 12 }

/-! ### Header values (R63, R99, R101) -/

/-- `T` as an input offset, where it is positive (R49, R100); 0 elsewhere, where no run uses it (log 17). -/
def tagStart (tagOff : Word) : Nat := tagOff.toInt.toNat

/-- `END` for a record length unit (R101, D6). -/
def scanEndOf (unit len : Nat) (recLen : Half) : Nat := min len (recLen.toNat * unit)

/-! ### Palette entries (R65, R66) -/

/-- An entry of the indexed layout: R, G, B, A as stored (R65, D29). -/
def colorRgba (b0 b1 b2 b3 : Byte) : Color := { r := b0, g := b1, b := b2, a := b3 }

/-- An entry of the flat layout: the little-endian ARGB word, so the bytes lie B, G, R, A (R66). -/
def colorArgbLe (b0 b1 b2 b3 : Byte) : Color := { r := b2, g := b1, b := b0, a := b3 }

/-- Split a byte string into entries of four bytes; a fragment of fewer is dropped. -/
def entriesOf (entry : Byte → Byte → Byte → Byte → Color) : List Byte → List Color
  | b0 :: b1 :: b2 :: b3 :: rest => entry b0 b1 b2 b3 :: entriesOf entry rest
  | _ => []

/-- The four bytes of a pixel, in the order R, G, B, A (00_scope.md R11). -/
def colorBytes (c : Color) : List Byte := [c.r, c.g, c.b, c.a]

end Sys2Proof.Machine
end

