-- ==== Sys2Proof/Machine/Tables.lean ====
section
/-! DEFINITION. The layout tables of 41_address_translator.md R79 to R81, as the spec prints them. The spec marks all
of them as general knowledge that was checked for consistency only (93_implementation_defined.md I1 to I3): log 10.
An entry is read with 0 outside the table; no address function reads there. -/

namespace Sys2Proof.Machine

/-- BLOCK32 (R79), and BLOCK8, which R80 says equals it. -/
def block32Table : List Nat :=
  [ 0,  1,  4,  5, 16, 17, 20, 21,
    2,  3,  6,  7, 18, 19, 22, 23,
    8,  9, 12, 13, 24, 25, 28, 29,
   10, 11, 14, 15, 26, 27, 30, 31]

/-- BLOCK4 (R81). -/
def block4Table : List Nat :=
  [ 0,  2,  8, 10,
    1,  3,  9, 11,
    4,  6, 12, 14,
    5,  7, 13, 15,
   16, 18, 24, 26,
   17, 19, 25, 27,
   20, 22, 28, 30,
   21, 23, 29, 31]

/-- COLWORD32 (R79). -/
def colWord32Table : List Nat :=
  [0, 1, 4, 5,  8,  9, 12, 13,
   2, 3, 6, 7, 10, 11, 14, 15]

/-- COLWORD8[0] (R80). -/
def colWord8EvenTable : List Nat :=
  [ 0,  1,  4,  5,  8,  9, 12, 13,  0,  1,  4,  5,  8,  9, 12, 13,
    2,  3,  6,  7, 10, 11, 14, 15,  2,  3,  6,  7, 10, 11, 14, 15,
    8,  9, 12, 13,  0,  1,  4,  5,  8,  9, 12, 13,  0,  1,  4,  5,
   10, 11, 14, 15,  2,  3,  6,  7, 10, 11, 14, 15,  2,  3,  6,  7]

/-- COLWORD8[1] (R80). -/
def colWord8OddTable : List Nat :=
  [ 8,  9, 12, 13,  0,  1,  4,  5,  8,  9, 12, 13,  0,  1,  4,  5,
   10, 11, 14, 15,  2,  3,  6,  7, 10, 11, 14, 15,  2,  3,  6,  7,
    0,  1,  4,  5,  8,  9, 12, 13,  0,  1,  4,  5,  8,  9, 12, 13,
    2,  3,  6,  7, 10, 11, 14, 15,  2,  3,  6,  7, 10, 11, 14, 15]

/-- COLBYTE8 (R80). -/
def colByte8Table : List Nat :=
  [0, 0, 0, 0, 0, 0, 0, 0, 2, 2, 2, 2, 2, 2, 2, 2,
   0, 0, 0, 0, 0, 0, 0, 0, 2, 2, 2, 2, 2, 2, 2, 2,
   1, 1, 1, 1, 1, 1, 1, 1, 3, 3, 3, 3, 3, 3, 3, 3,
   1, 1, 1, 1, 1, 1, 1, 1, 3, 3, 3, 3, 3, 3, 3, 3]

/-- COLWORD4[0] (R81). -/
def colWord4EvenTable : List Nat :=
  [ 0,  1,  4,  5,  8,  9, 12, 13,  0,  1,  4,  5,  8,  9, 12, 13,  0,  1,  4,  5,  8,  9, 12, 13,  0,  1,  4,  5,  8,  9, 12, 13,
    2,  3,  6,  7, 10, 11, 14, 15,  2,  3,  6,  7, 10, 11, 14, 15,  2,  3,  6,  7, 10, 11, 14, 15,  2,  3,  6,  7, 10, 11, 14, 15,
    8,  9, 12, 13,  0,  1,  4,  5,  8,  9, 12, 13,  0,  1,  4,  5,  8,  9, 12, 13,  0,  1,  4,  5,  8,  9, 12, 13,  0,  1,  4,  5,
   10, 11, 14, 15,  2,  3,  6,  7, 10, 11, 14, 15,  2,  3,  6,  7, 10, 11, 14, 15,  2,  3,  6,  7, 10, 11, 14, 15,  2,  3,  6,  7]

/-- COLWORD4[1] (R81). -/
def colWord4OddTable : List Nat :=
  [ 8,  9, 12, 13,  0,  1,  4,  5,  8,  9, 12, 13,  0,  1,  4,  5,  8,  9, 12, 13,  0,  1,  4,  5,  8,  9, 12, 13,  0,  1,  4,  5,
   10, 11, 14, 15,  2,  3,  6,  7, 10, 11, 14, 15,  2,  3,  6,  7, 10, 11, 14, 15,  2,  3,  6,  7, 10, 11, 14, 15,  2,  3,  6,  7,
    0,  1,  4,  5,  8,  9, 12, 13,  0,  1,  4,  5,  8,  9, 12, 13,  0,  1,  4,  5,  8,  9, 12, 13,  0,  1,  4,  5,  8,  9, 12, 13,
    2,  3,  6,  7, 10, 11, 14, 15,  2,  3,  6,  7, 10, 11, 14, 15,  2,  3,  6,  7, 10, 11, 14, 15,  2,  3,  6,  7, 10, 11, 14, 15]

/-- COLBYTE4 (R81). -/
def colByte4Table : List Nat :=
  [0, 0, 0, 0, 0, 0, 0, 0, 2, 2, 2, 2, 2, 2, 2, 2, 4, 4, 4, 4, 4, 4, 4, 4, 6, 6, 6, 6, 6, 6, 6, 6,
   0, 0, 0, 0, 0, 0, 0, 0, 2, 2, 2, 2, 2, 2, 2, 2, 4, 4, 4, 4, 4, 4, 4, 4, 6, 6, 6, 6, 6, 6, 6, 6,
   1, 1, 1, 1, 1, 1, 1, 1, 3, 3, 3, 3, 3, 3, 3, 3, 5, 5, 5, 5, 5, 5, 5, 5, 7, 7, 7, 7, 7, 7, 7, 7,
   1, 1, 1, 1, 1, 1, 1, 1, 3, 3, 3, 3, 3, 3, 3, 3, 5, 5, 5, 5, 5, 5, 5, 5, 7, 7, 7, 7, 7, 7, 7, 7]

/-- BLOCK32 at block column `bx`, block row `blockRow` (R79). -/
def block32 (bx blockRow : Nat) : Nat := block32Table.getD (bx + blockRow * 8) 0

/-- BLOCK8, equal to BLOCK32 (R80). -/
def block8 (bx blockRow : Nat) : Nat := block32Table.getD (bx + blockRow * 8) 0

/-- BLOCK4 (R81). -/
def block4 (bx blockRow : Nat) : Nat := block4Table.getD (bx + blockRow * 4) 0

/-- COLWORD32 (R79). -/
def colWord32 (cx cy : Nat) : Nat := colWord32Table.getD (cx + cy * 8) 0

/-- COLWORD8 for column parity `c` (R80). -/
def colWord8 (c cx cy : Nat) : Nat :=
  if c = 0 then colWord8EvenTable.getD (cx + cy * 16) 0 else colWord8OddTable.getD (cx + cy * 16) 0

/-- COLBYTE8 (R80). -/
def colByte8 (cx cy : Nat) : Nat := colByte8Table.getD (cx + cy * 16) 0

/-- COLWORD4 for column parity `c` (R81). -/
def colWord4 (c cx cy : Nat) : Nat :=
  if c = 0 then colWord4EvenTable.getD (cx + cy * 32) 0 else colWord4OddTable.getD (cx + cy * 32) 0

/-- COLBYTE4 (R81). -/
def colByte4 (cx cy : Nat) : Nat := colByte4Table.getD (cx + cy * 32) 0

end Sys2Proof.Machine
end

