-- ==== Sys2Proof/Machine/Ops.lean ====
section
/-! DEFINITION. The shared operations: the surface and its addresses (20_memory.md section 3, 41_address_translator.md),
the palette operations (42_format_converter.md), raising an error and finishing (60_exceptions.md R115, R28). -/

namespace Sys2Proof.Machine

/-! ### The end of a transaction -/

/-- `raise E(info)` (60_exceptions.md R115): the block's one way of taking an exception. The transaction ends in phase
`Failed`, its state is discarded (every field back at R30's value, surface writes included), the host receives the
error and no image. `In` is the host's and stays. Log 5. -/
def State.raise (e : Raise) (s : State) : State :=
  { State.reset with
    inp := s.inp, port := s.port, phase := .failed, result := some (.error e.kind), diag := e.diag }

/-- `finish(img)`: the transaction ends in phase `Done` with the image (R28, 00_scope.md R10). -/
def State.finish (img : RasterImage) (s : State) : State :=
  { s with phase := .done, result := some (.image img) }

/-- Take the request off the port. -/
def State.consume (s : State) : State := { s with port := none }

/-- A new transaction over a record: reset to R30's values with `In` the argument (R98, R123). -/
def State.load (record : List Byte) : State := { State.reset with inp := record }

/-- The state an operation that may raise leaves: its result, or the raised error. -/
def orRaise (s : State) : Except Raise State → State
  | .ok s' => s'
  | .error e => s.raise e

/-! ### Surface bytes (20_memory.md R36 to R38) -/

/-- The listed byte at an address; an unlisted byte is 0 (10_state.md R23, R30). -/
def Memory.get : Memory → Nat → Byte
  | [], _ => 0#8
  | (k, b) :: m, a => if k = a then b else Memory.get m a

/-- Set one byte, keeping the canonical form: a zero byte is not listed. -/
def Memory.set : Memory → Nat → Byte → Memory
  | [], a, b => if b = 0#8 then [] else [(a, b)]
  | (k, c) :: m, a, b =>
    if a < k then (if b = 0#8 then (k, c) :: m else (a, b) :: (k, c) :: m)
    else if a = k then (if b = 0#8 then m else (a, b) :: m)
    else (k, c) :: Memory.set m a b

/-- `MemRead(a, 1)`: a byte outside the surface reads 0 (R37). -/
def memRead (m : Memory) (a : Nat) : Byte := if a < surfaceBytes then Memory.get m a else 0#8

/-- `MemWrite(a, 4, v)`, the four bytes of `v` least significant first; nothing at all is written when they do not all
lie inside the surface (R38). -/
def memWrite4 (m : Memory) (a : Nat) (b0 b1 b2 b3 : Byte) : Memory :=
  if surfaceBytes < a + 4 then m
  else Memory.set (Memory.set (Memory.set (Memory.set m a b0) (a + 1) b1) (a + 2) b2) (a + 3) b3

/-! ### Address functions (41_address_translator.md R77, R82 to R84); `unit` is BP_UNIT_WORDS -/

/-- The word address of the hierarchy (R77). -/
def wordAddr (unit dbp page block column cw : Nat) : Nat :=
  dbp * unit + page * pageWords + block * blockWords + column * columnWords + cw

/-- `ADDR32`: a word address (R82). -/
def addr32 (unit dbp dbw x y : Nat) : Nat :=
  let px := x % 64
  let py := y % 32
  wordAddr unit dbp (x / 64 + y / 32 * dbw) (block32 (px / 8) (py / 8)) (py % 8 / 2) (colWord32 (px % 8) (py % 8 % 2))

/-- `ADDR8`: a byte address (R83). -/
def addr8 (unit dbp dbw x y : Nat) : Nat :=
  let px := x % 128
  let py := y % 64
  let column := py % 16 / 4
  let cy := py % 16 % 4
  4 * wordAddr unit dbp (x / 128 + y / 64 * (dbw / 2)) (block8 (px / 16) (py / 16)) column
      (colWord8 (column % 2) (px % 16) cy)
    + colByte8 (px % 16) cy

/-- `ADDR4`: a nibble address (R84). -/
def addr4 (unit dbp dbw x y : Nat) : Nat :=
  let px := x % 128
  let py := y % 128
  let column := py % 16 / 4
  let cy := py % 16 % 4
  8 * wordAddr unit dbp (x / 128 + y / 128 * (dbw / 2)) (block4 (px / 32) (py / 16)) column
      (colWord4 (column % 2) (px % 32) cy)
    + colByte4 (px % 32) cy

/-! ### Scatter and gather (R88 to R91) -/

/-- Pixel `k` of a rectangle, counted row by row from the top and from left to right within a row (R44, R88). -/
def pixelAt (x0 y0 w k : Nat) : Nat × Nat := (x0 + k % w, y0 + k / w)

/-- The loop of WRITE_PSMCT32 from pixel `k` on (R88): it stops when the rectangle's `count` pixels are written or the
source holds no whole word more. -/
def scatter (unit dbp dbw x0 y0 w count : Nat) : Nat → List Byte → Memory → Memory
  | k, b0 :: b1 :: b2 :: b3 :: rest, m =>
    if k < count then
      scatter unit dbp dbw x0 y0 w count (k + 1) rest
        (memWrite4 m (4 * addr32 unit dbp dbw (pixelAt x0 y0 w k).1 (pixelAt x0 y0 w k).2) b0 b1 b2 b3)
    else m
  | _, _, m => m

/-- `WRITE_PSMCT32` (R88). -/
def writePsmct32 (unit dbp dbw dsax dsay rrw rrh : Nat) (src : List Byte) (m : Memory) : Memory :=
  scatter unit dbp dbw dsax dsay rrw (rrw * rrh) 0 src m

/-- The pixels of a rectangle in reading order. -/
def rectPixels (x0 y0 w h : Nat) : List (Nat × Nat) := (List.range (w * h)).map (pixelAt x0 y0 w)

/-- The four bytes of the surface word at a byte address (R89). -/
def memRead4 (m : Memory) (a : Nat) : List Byte := [memRead m a, memRead m (a + 1), memRead m (a + 2), memRead m (a + 3)]

/-- `READ_PSMCT32` (R89). -/
def readPsmct32 (unit dbp dbw x0 y0 w h : Nat) (m : Memory) : List Byte :=
  (rectPixels x0 y0 w h).flatMap fun p => memRead4 m (4 * addr32 unit dbp dbw p.1 p.2)

/-- `READ_PSMT8` (R90). -/
def readPsmt8 (unit dbp dbw x0 y0 w h : Nat) (m : Memory) : List Byte :=
  (rectPixels x0 y0 w h).map fun p => memRead m (addr8 unit dbp dbw p.1 p.2)

/-- The nibble at a nibble address: the high one of its byte when the address is odd (R36, R84). -/
def memReadNibble (m : Memory) (na : Nat) : BitVec 4 :=
  if na % 2 = 1 then (memRead m (na / 2)).extractLsb' 4 4 else (memRead m (na / 2)).extractLsb' 0 4

/-- Pack nibbles two to a byte, low first; a last one alone leaves the high nibble 0 (R91). -/
def packNibbles : List (BitVec 4) → List Byte
  | lo :: hi :: rest => (hi ++ lo) :: packNibbles rest
  | [lo] => [0#4 ++ lo]
  | [] => []

/-- `READ_PSMT4` (R91): the phase runs on across rows. -/
def readPsmt4 (unit dbp dbw x0 y0 w h : Nat) (m : Memory) : List Byte :=
  packNibbles ((rectPixels x0 y0 w h).map fun p => memReadNibble m (addr4 unit dbp dbw p.1 p.2))

/-! ### Palettes and indices (42_format_converter.md) -/

/-- `READ_PALETTE`: the whole range, empty or not (log 18), is checked before an entry is read (R92). -/
def readPalette (inp : List Byte) (p w h : Nat) : Except Raise (List Color) :=
  match inBytes inp p (4 * (w * h)) with
  | .error e => .error e
  | .ok bs => .ok (entriesOf colorRgba bs)

/-- `READ_FLAT_PALETTE` (R93). -/
def readFlatPalette (inp : List Byte) (p : Nat) : Except Raise (List Color) :=
  match inBytes inp p flatPaletteBytes with
  | .error e => .error e
  | .ok bs => .ok (entriesOf colorArgbLe bs)

/-- The map `f` of R94: bits 3 and 4 of an 8-bit index change places. -/
def swapBits34 (i : Byte) : Byte :=
  (i &&& 0xE7#8) ||| ((i &&& 0x08#8) <<< 1) ||| ((i &&& 0x10#8) >>> 1)

/-- A color of all zero channels, for places of a palette that do not exist. -/
def noColor : Color := { r := 0#8, g := 0#8, b := 0#8, a := 0#8 }

/-- `UNSWIZZLE_CLUT` (R94, D43): 256 entries are reordered, every other size is left as it is. -/
def unswizzleClut (pal : List Color) : List Color :=
  if pal.length = 256 then (List.range 256).map fun j => pal.getD (swapBits34 (BitVec.ofNat 8 j)).toNat noColor
  else pal

/-- The color of the `k`-th index byte: the index modulo the palette's count (R96). With an empty palette the rule
gives no color and a free value stands for it (log 7). -/
def paletteColor (pal : List Color) (k : Nat) (index : Byte) : Color :=
  if pal.length = 0 then
    colorRgba ((Config.emptyPaletteColor k index).extractLsb' 0 8) ((Config.emptyPaletteColor k index).extractLsb' 8 8)
      ((Config.emptyPaletteColor k index).extractLsb' 16 8) ((Config.emptyPaletteColor k index).extractLsb' 24 8)
  else pal.getD (index.toNat % pal.length) noColor

/-- The loop of APPLY_PALETTE from index byte `k` on. -/
def applyPaletteFrom (pal : List Color) : Nat → List Byte → List Byte
  | _, [] => []
  | k, index :: rest => colorBytes (paletteColor pal k index) ++ applyPaletteFrom pal (k + 1) rest

/-- `APPLY_PALETTE` (R96). -/
def applyPalette (pal : List Color) (idx : List Byte) : List Byte := applyPaletteFrom pal 0 idx

/-- `EXPAND4` (R97): low nibble first. -/
def expand4 : List Byte → List Byte
  | [] => []
  | b :: rest => (b &&& 0x0F#8) :: ((b >>> 4) &&& 0x0F#8) :: expand4 rest

/-! ### Readback (43_sequencer.md R110) -/

/-- `roundup(v, g)` (00_scope.md R9). -/
def roundUp (v g : Nat) : Nat := (v + g - 1) / g * g

/-- `crop(I, Wr)`: the first `w` of every `wr` entries, for `h` rows (R110). -/
def crop (w h wr : Nat) (idx : List Byte) : List Byte :=
  (List.range h).flatMap fun y => (idx.drop (y * wr)).take w

/-- The first `n` entries, 0 past the end (R110, the LB path). -/
def takePadded (n : Nat) (idx : List Byte) : List Byte := idx.take n ++ List.replicate (n - idx.length) 0#8

end Sys2Proof.Machine
end

