-- ==== Sys2Proof/Machine/Parser.lean ====
section
/-! DEFINITION. The command-tag parser's instructions (40_tag_parser.md): the register slots AD_*, the operations
PARSE_TAG, TOTAL_LEN, FIND_REG and LATCH_*, the register-batch packets GIFTAG_PACKED, GIFTAG_REGLIST and
GIFTAG_DISABLED. -/

namespace Sys2Proof.Machine

/-- The answer of an operation of the port (30_encoding.md R68). -/
def State.answer (o : PortOut) (s : State) : State := { s with out := o }

/-! ### Register slots (R58, R73 to R76) -/

/-- AD_BITBLTBUF: all three fields of the latch are written together (R73). -/
def execAdBitbltbuf (v : Quad) (s : State) : Host.Outcome State Fault Refusal :=
  .next { s with bitbltbuf := latchBitbltbuf v }

/-- AD_TRXPOS (R74). -/
def execAdTrxpos (v : Quad) (s : State) : Host.Outcome State Fault Refusal :=
  .next { s with trxpos := latchTrxpos v }

/-- AD_TRXREG (R75). -/
def execAdTrxreg (v : Quad) (s : State) : Host.Outcome State Fault Refusal :=
  .next { s with trxreg := latchTrxreg v }

/-- AD_TRXDIR: the whole slot is read and thrown away (R58, R62, R76). -/
def execAdTrxdir (_v : Quad) (s : State) : Host.Outcome State Fault Refusal := .next s

/-- AD_OTHER: a slot with another id has no effect (R58, R76). -/
def execAdOther (_id _v : Quad) (s : State) : Host.Outcome State Fault Refusal := .next s

/-! ### Operations of the port -/

/-- OP_PARSE_TAG (R70): OutOfBounds unless both halves lie in the record. -/
def execOpParseTag (a : Nat) (s : State) : Host.Outcome State Fault Refusal :=
  match parseTag s.inp a with
  | .error e => .next (s.raise e)
  | .ok t => .next (s.answer (.tag t t.kind))

/-- OP_TOTAL_LEN (R71). -/
def execOpTotalLen (tag : TagDescriptor) (s : State) : Host.Outcome State Fault Refusal :=
  .next (s.answer (.length (totalLen tag.nloop)))

/-- OP_FIND_REG (R72). With a `bound` past the record, which the rule's callers never pass, the read of a slot's id can
fail and raises as every InRead does (R32): log 12. -/
def execOpFindReg (scanStart loopCount : Nat) (registerId : Quad) (bound : Nat) (s : State) :
    Host.Outcome State Fault Refusal :=
  match findReg s.inp registerId bound loopCount scanStart with
  | .error e => .next (s.raise e)
  | .ok o => .next (s.answer (.offset o))

/-- OP_LATCH_BITBLTBUF (R73). -/
def execOpLatchBitbltbuf (v : Quad) (s : State) : Host.Outcome State Fault Refusal :=
  .next ({ s with bitbltbuf := latchBitbltbuf v }.answer .written)

/-- OP_LATCH_TRXPOS (R74). -/
def execOpLatchTrxpos (v : Quad) (s : State) : Host.Outcome State Fault Refusal :=
  .next ({ s with trxpos := latchTrxpos v }.answer .written)

/-- OP_LATCH_TRXREG (R75). -/
def execOpLatchTrxreg (v : Quad) (s : State) : Host.Outcome State Fault Refusal :=
  .next ({ s with trxreg := latchTrxreg v }.answer .written)

/-! ### Register-batch packets (R76, R107) -/

/-- `REG_BATCH(c, tag, bound)` at the cursor with bound `END` (R76, R107): each latch whose slot is found is loaded from
the first one, the others keep their values; the cursor advances by the full packet. -/
def regBatch (nloop : BitVec 15) (s : State) : Except Raise State :=
  match lookupReg s.inp (s.cur + 16) nloop.toNat idBitbltbuf s.scanEnd with
  | .error e => .error e
  | .ok vb =>
    match lookupReg s.inp (s.cur + 16) nloop.toNat idTrxpos s.scanEnd with
    | .error e => .error e
    | .ok vp =>
      match lookupReg s.inp (s.cur + 16) nloop.toNat idTrxreg s.scanEnd with
      | .error e => .error e
      | .ok vr =>
        .ok { s with
          bitbltbuf := (vb.map latchBitbltbuf).getD s.bitbltbuf
          trxpos := (vp.map latchTrxpos).getD s.trxpos
          trxreg := (vr.map latchTrxreg).getD s.trxreg
          cur := s.cur + totalLen nloop }

/-- GIFTAG_PACKED: a register batch (R55, R76). -/
def execGiftagPacked (nloop : BitVec 15) (_rest : TagRest) (s : State) : Host.Outcome State Fault Refusal :=
  .next (orRaise s (regBatch nloop s))

/-- GIFTAG_REGLIST: a register batch of 16-byte slots in this block (R55, I7). -/
def execGiftagReglist (nloop : BitVec 15) (_rest : TagRest) (s : State) : Host.Outcome State Fault Refusal :=
  .next (orRaise s (regBatch nloop s))

/-- GIFTAG_DISABLED: a register batch in this block (R55, I7). -/
def execGiftagDisabled (nloop : BitVec 15) (_rest : TagRest) (s : State) : Host.Outcome State Fault Refusal :=
  .next (orRaise s (regBatch nloop s))

end Sys2Proof.Machine
end

