-- ==== Sys2Proof/Machine/Converter.lean ====
section
/-! DEFINITION. The indexed-color format converter's operations (42_format_converter.md) on the port. -/

namespace Sys2Proof.Machine

/-- OP_READ_PALETTE (R92): OutOfBounds unless the whole palette lies in the record. -/
def execOpReadPalette (p w h : Nat) (s : State) : Host.Outcome State Fault Refusal :=
  match readPalette s.inp p w h with
  | .error e => .next (s.raise e)
  | .ok pal => .next (s.answer (.palette pal))

/-- OP_READ_FLAT_PALETTE (R93). -/
def execOpReadFlatPalette (p : Nat) (s : State) : Host.Outcome State Fault Refusal :=
  match readFlatPalette s.inp p with
  | .error e => .next (s.raise e)
  | .ok pal => .next (s.answer (.palette pal))

/-- OP_UNSWIZZLE_CLUT (R94). -/
def execOpUnswizzleClut (pal : List Color) (s : State) : Host.Outcome State Fault Refusal :=
  .next (s.answer (.palette (unswizzleClut pal)))

/-- OP_APPLY_PALETTE (R96). -/
def execOpApplyPalette (pal : List Color) (idx : List Byte) (s : State) : Host.Outcome State Fault Refusal :=
  .next (s.answer (.bytes (applyPalette pal idx)))

/-- OP_EXPAND4 (R97). -/
def execOpExpand4 (bs : List Byte) (s : State) : Host.Outcome State Fault Refusal :=
  .next (s.answer (.bytes (expand4 bs)))

end Sys2Proof.Machine
end

