-- ==== Sys2Proof/Machine/Sequencer.lean ====
section
/-! DEFINITION. The sequencer (43_sequencer.md): the header step, the record classes, image packets, the readback, and
DECODE. A step of the machine is one step of the sequencer; log 14 says in which phases it rests. -/

namespace Sys2Proof.Machine

/-! ### Header and class selection (R98 to R101) -/

/-- `HEADER_STEP` (R99): the checks in the order of R113, then W, H, RL and T are latched. -/
def headerStep (s : State) : Except Raise State :=
  if s.inp.length < headerBytes then .error (.outOfBounds 0 headerBytes)
  else
    let hd := headerOf s.inp
    if hd.width = 0#16 ∨ hd.height = 0#16 then .error .invalidHeader
    else .ok { s with width := hd.width, height := hd.height, recLen := hd.recLen, tagOff := hd.tagOff }

/-- What the class selection finds: the phase to go to, or a record of the blank class, which has no phase of its own
and is carried out at once (R98). -/
inductive Selected where
  | enter (s : State)
  | blank (lo hi : Quad) (s : State)
  deriving DecidableEq, Repr

/-- The rest of DECODE up to the class (R98): the flat class by `T <= 0`, the check `T >= len` (R100), `END` (R101),
the first tag and its NLOOP (R53). -/
def selectClass (s : State) : Except Raise Selected :=
  if s.tagOff.toInt ≤ 0 then .ok (.enter { s with phase := .flat })
  else if s.inp.length ≤ tagStart s.tagOff then .error (.outOfBounds (tagStart s.tagOff) 16)
  else
    match fetchTag s.inp (tagStart s.tagOff) with
    | .error e => .error e
    | .ok (lo, hi) =>
      let s' := { s with scanEnd := scanEndOf recordLengthUnit s.inp.length s.recLen }
      if tagNloop lo = nloopDirect then .ok (.enter { s' with phase := .direct })
      else if tagNloop lo = nloopIndexed then .ok (.enter { s' with phase := .clutLoad })
      else .ok (.blank lo hi s')

/-- The step of phase `Header`. -/
def openRecord (s : State) : Except Raise Selected :=
  match headerStep s with
  | .error e => .error e
  | .ok s' => selectClass s'

/-! ### Record classes -/

/-- `BLANK()` (R104): a zero-filled DirectColor image of the declared size. -/
def blankStep (s : State) : State :=
  s.finish
    { width := s.width, height := s.height, kind := .directColor,
      buffer := List.replicate (4 * (s.width.toNat * s.height.toNat)) 0#8, palette := none }

/-- `FLAT_STEP` (R102): palette, then pixels; neither the surface nor a latch is touched (D38). -/
def flatStep (s : State) : Except Raise State :=
  match readFlatPalette s.inp flatPaletteOffset with
  | .error e => .error e
  | .ok pal =>
    match inBytes s.inp (flatPaletteOffset + flatPaletteBytes) (s.width.toNat * s.height.toNat) with
    | .error e => .error e
    | .ok px =>
      .ok (State.finish { width := s.width, height := s.height, kind := .indexed8, buffer := px, palette := some pal }
        { s with pal := pal })

/-- `DIRECT_STEP` (R103): pixels as stored. -/
def directStep (s : State) : Except Raise State :=
  match inBytes s.inp (tagStart s.tagOff + directPixelOffset) (4 * (s.width.toNat * s.height.toNat)) with
  | .error e => .error e
  | .ok px =>
    .ok (s.finish { width := s.width, height := s.height, kind := .directColor, buffer := px, palette := none })

/-- The palette part of `CLUT_STEP` (R105), once the first batch's TRXREG is `v`. -/
def clutLoad (v : Quad) (s : State) : Except Raise State :=
  let t := tagStart s.tagOff
  let pw := (latchTrxreg v).rrw.toNat
  let ph := (latchTrxreg v).rrh.toNat
  if pw * ph ≠ 16 ∧ pw * ph ≠ 256 then .ok (blankStep s)
  else
    match parseTag s.inp (t + secondTagOffset) with
    | .error e => .error e
    | .ok t2 =>
      match readPalette s.inp (t + clutPaletteOffset) pw ph with
      | .error e => .error e
      | .ok stored =>
        .ok { s with pal := unswizzleClut stored, cur := t + clutPaletteOffset + payloadLen t2.nloop, phase := .scanning }

/-- `CLUT_STEP` (R105): the first batch's TRXREG declares the palette; its other slots are not latched (D9). -/
def clutStep (s : State) : Except Raise State :=
  match lookupReg s.inp (tagStart s.tagOff + 16) 4 idTrxreg s.inp.length with
  | .error e => .error e
  | .ok none => .ok (blankStep s)
  | .ok (some v) => clutLoad v s

/-! ### Image packets (R108, R109) -/

/-- `TRANSFER(D)` (R109). -/
def transfer (payload : List Byte) (s : State) : State :=
  if goesThroughSurface s.pal.length s.bitbltbuf.dpsm then
    { s with
      surface := writePsmct32 bpUnitWords s.bitbltbuf.dbp.toNat s.bitbltbuf.dbw.toNat s.trxpos.dsax.toNat s.trxpos.dsay.toNat
        s.trxreg.rrw.toNat s.trxreg.rrh.toNat payload s.surface
      surfaceUsed := true }
  else { s with lb := s.lb ++ payload }

/-- The payload of an image packet at `c` and the cursor after it: a second image tag that follows at once within `END`
is joined and consumed, at most one (R108, D15). -/
def imagePayload (inp : List Byte) (scanEnd c : Nat) (nloop : BitVec 15) : Except Raise (List Byte × Nat) :=
  match inBytes inp (c + 16) (payloadLen nloop) with
  | .error e => .error e
  | .ok d =>
    let c2 := c + 16 + payloadLen nloop
    if scanEnd < c2 + 16 then .ok (d, c2)
    else
      match parseTag inp c2 with
      | .error e => .error e
      | .ok t2 =>
        if t2.flg = flgImage then
          match inBytes inp (c2 + 16) (payloadLen t2.nloop) with
          | .error e => .error e
          | .ok d2 => .ok (d ++ d2, c2 + 16 + payloadLen t2.nloop)
        else .ok (d, c2)

/-- `IMAGE_STEP` with its TRANSFER (R108, R109); the sequencer rests in `Transferring` and goes back to `Scanning` with
its next step (R98, log 14). -/
def imageStep (nloop : BitVec 15) (s : State) : Except Raise State :=
  match imagePayload s.inp s.scanEnd s.cur nloop with
  | .error e => .error e
  | .ok (d, c2) => .ok { transfer d s with cur := c2, phase := .transferring }

/-! ### Readback (R110) -/

/-- The pixel indices of the final image (R110). -/
def readbackIndices (s : State) : List Byte :=
  let w := s.width.toNat
  let h := s.height.toNat
  let dbp := s.bitbltbuf.dbp.toNat
  let dbw2 := 2 * s.bitbltbuf.dbw.toNat
  if s.pal.length = 256 then
    crop w h (roundUp w granularity8)
      (readPsmt8 bpUnitWords dbp dbw2 0 0 (roundUp w granularity8) (roundUp h granularity8) s.surface)
  else if s.surfaceUsed then
    crop w h (roundUp w granularity4)
      (expand4 (readPsmt4 bpUnitWords dbp dbw2 0 0 (roundUp w granularity4) (roundUp h granularity4) s.surface))
  else takePadded (w * h) (expand4 s.lb)

/-- The nibble phase the readback leaves: its READ_PSMT4, where it makes one, starts at 0 and toggles per pixel (R27). -/
def readbackPhase (s : State) : Bool :=
  if s.pal.length = 256 then s.odd
  else if s.surfaceUsed then nibblePhase (roundUp s.width.toNat granularity4 * roundUp s.height.toNat granularity4)
  else s.odd

/-- `READBACK` (R110). -/
def readback (s : State) : State :=
  State.finish
    { width := s.width, height := s.height, kind := .directColor, buffer := applyPalette s.pal (readbackIndices s),
      palette := some s.pal }
    { s with odd := readbackPhase s }

/-! ### Record and image instructions -/

/-- RECORD_FLAT (R50, R102). The header's values were latched by the header step. -/
def execRecordFlat (_hd : Header) (s : State) : Host.Outcome State Fault Refusal := .next (orRaise s (flatStep s))

/-- RECORD_DIRECT (R103). -/
def execRecordDirect (_flg : BitVec 2) (_rest : TagRest) (s : State) : Host.Outcome State Fault Refusal :=
  .next (orRaise s (directStep s))

/-- RECORD_INDEXED (R105). -/
def execRecordIndexed (_flg : BitVec 2) (_rest : TagRest) (s : State) : Host.Outcome State Fault Refusal :=
  .next (orRaise s (clutStep s))

/-- RECORD_BLANK (R104). -/
def execRecordBlank (_nloop : BitVec 15) (_flg : BitVec 2) (_rest : TagRest) (s : State) :
    Host.Outcome State Fault Refusal :=
  .next (blankStep s)

/-- GIFTAG_IMAGE (R108). -/
def execGiftagImage (nloop : BitVec 15) (_rest : TagRest) (s : State) : Host.Outcome State Fault Refusal :=
  .next (orRaise s (imageStep nloop s))

/-! ### The whole transaction (R98) -/

/-- The first tag of the record, in the phases its class was selected for: its bytes were checked by the header step. -/
def firstTag (s : State) : Quad × Quad :=
  (fieldAt 64 s.inp (tagStart s.tagOff) 8, fieldAt 64 s.inp (tagStart s.tagOff + 8) 8)

/-- The class step of a record whose first tag has this NLOOP (R98). -/
def classStep (nloop : BitVec 15) (s : State) : State :=
  if nloop = nloopDirect then orRaise s (directStep s)
  else if nloop = nloopIndexed then orRaise s (clutStep s)
  else blankStep s

/-- A packet of the scan: FLG selects (R106). -/
def packetStep (lo : Quad) (s : State) : State :=
  if tagFlg lo = flgImage then orRaise s (imageStep (tagNloop lo) s) else orRaise s (regBatch (tagNloop lo) s)

/-- One step of the sequencer, by phase (R98, R106). A transaction that has ended stays as it is. -/
def seqStep (s : State) : State :=
  match s.phase with
  | .header =>
    match openRecord s with
    | .error e => s.raise e
    | .ok (.enter s') => s'
    | .ok (.blank _ _ s') => blankStep s'
  | .flat => orRaise s (flatStep s)
  | .direct => classStep (tagNloop (firstTag s).1) s
  | .clutLoad => classStep (tagNloop (firstTag s).1) s
  | .scanning =>
    if s.scanEnd < s.cur + 16 then { s with phase := .readback }
    else
      match fetchTag s.inp s.cur with
      | .error e => s.raise e
      | .ok (lo, _) => packetStep lo s
  | .transferring => { s with phase := .scanning }
  | .readback => readback s
  | .done => s
  | .failed => s

/-- At most `n` steps of the sequencer, up to the end of the transaction. -/
def seqRun : Nat → State → State
  | 0, s => s
  | n + 1, s => if s.phase.isFinal then s else seqRun n (seqStep s)

/-- How many sequencer steps a record of `len` bytes can take: the header, the class, the readback and its entry, and
two for each of at most `len / 16` packets (R111). -/
def decodeFuel (len : Nat) : Nat := 2 * (len / 16) + 4

/-- `DECODE(In)`: reset, then the sequencer's steps to the end (R98, R131). -/
def decodeRecord (record : List Byte) : State := seqRun (decodeFuel record.length) (State.load record)

/-- OP_DECODE (R98): one atomic step for the host (R131); nothing of the earlier state is left (R13, R123). -/
def execOpDecode (record : List Byte) (_s : State) : Host.Outcome State Fault Refusal := .next (decodeRecord record)

end Sys2Proof.Machine
end

