-- ==== Sys2Proof/Machine/Translator.lean ====
section
/-! DEFINITION. The address translator's operations (41_address_translator.md R88 to R91) on the port. -/

namespace Sys2Proof.Machine

/-- OP_WRITE_PSMCT32 (R88). -/
def execOpWritePsmct32 (dbp : BitVec 14) (dbw : BitVec 6) (dsax dsay : BitVec 11) (rrw rrh : BitVec 12) (src : List Byte)
    (s : State) : Host.Outcome State Fault Refusal :=
  .next (State.answer .written
    { s with surface := writePsmct32 bpUnitWords dbp.toNat dbw.toNat dsax.toNat dsay.toNat rrw.toNat rrh.toNat src s.surface })

/-- OP_READ_PSMCT32 (R89). -/
def execOpReadPsmct32 (dbp : BitVec 14) (dbw : BitVec 6) (x0 y0 : BitVec 11) (w h : BitVec 12) (s : State) :
    Host.Outcome State Fault Refusal :=
  .next (s.answer
    (.bytes (readPsmct32 bpUnitWords dbp.toNat dbw.toNat x0.toNat y0.toNat w.toNat h.toNat s.surface)))

/-- OP_READ_PSMT8 (R90). -/
def execOpReadPsmt8 (dbp dbw x0 y0 w h : Nat) (s : State) : Host.Outcome State Fault Refusal :=
  .next (s.answer (.bytes (readPsmt8 bpUnitWords dbp dbw x0 y0 w h s.surface)))

/-- OP_READ_PSMT4 (R91); the nibble phase starts at 0 and is toggled by every pixel (R27). -/
def execOpReadPsmt4 (dbp dbw x0 y0 w h : Nat) (s : State) : Host.Outcome State Fault Refusal :=
  .next (State.answer (.bytes (readPsmt4 bpUnitWords dbp dbw x0 y0 w h s.surface))
    { s with odd := nibblePhase (w * h) })

end Sys2Proof.Machine
end

