-- ==== Sys2Proof/Machine/Dispatch.lean ====
section
/-! DEFINITION. One arm per instruction, each a direct call of its meaning. -/

namespace Sys2Proof.Machine

def exec (i : Instr) (s : State) : Host.Outcome State Fault Refusal :=
  match i with
  -- record classes (43_sequencer.md)
  | .recordFlat hd => Sys2Proof.Machine.execRecordFlat hd s
  | .recordDirect flg rest => Sys2Proof.Machine.execRecordDirect flg rest s
  | .recordIndexed flg rest => Sys2Proof.Machine.execRecordIndexed flg rest s
  | .recordBlank nloop flg rest => Sys2Proof.Machine.execRecordBlank nloop flg rest s
  -- packets of the scan (40_tag_parser.md R76, 43_sequencer.md R108)
  | .giftagPacked nloop rest => Sys2Proof.Machine.execGiftagPacked nloop rest s
  | .giftagReglist nloop rest => Sys2Proof.Machine.execGiftagReglist nloop rest s
  | .giftagImage nloop rest => Sys2Proof.Machine.execGiftagImage nloop rest s
  | .giftagDisabled nloop rest => Sys2Proof.Machine.execGiftagDisabled nloop rest s
  -- register slots (40_tag_parser.md R73 to R76)
  | .adBitbltbuf v => Sys2Proof.Machine.execAdBitbltbuf v s
  | .adTrxpos v => Sys2Proof.Machine.execAdTrxpos v s
  | .adTrxreg v => Sys2Proof.Machine.execAdTrxreg v s
  | .adTrxdir v => Sys2Proof.Machine.execAdTrxdir v s
  | .adOther id v => Sys2Proof.Machine.execAdOther id v s
  -- operation port (30_encoding.md R68)
  | .opParseTag a => Sys2Proof.Machine.execOpParseTag a s
  | .opTotalLen tag => Sys2Proof.Machine.execOpTotalLen tag s
  | .opFindReg scanStart loopCount registerId bound => Sys2Proof.Machine.execOpFindReg scanStart loopCount registerId bound s
  | .opLatchBitbltbuf v => Sys2Proof.Machine.execOpLatchBitbltbuf v s
  | .opLatchTrxpos v => Sys2Proof.Machine.execOpLatchTrxpos v s
  | .opLatchTrxreg v => Sys2Proof.Machine.execOpLatchTrxreg v s
  | .opWritePsmct32 dbp dbw dsax dsay rrw rrh src => Sys2Proof.Machine.execOpWritePsmct32 dbp dbw dsax dsay rrw rrh src s
  | .opReadPsmct32 dbp dbw x0 y0 w h => Sys2Proof.Machine.execOpReadPsmct32 dbp dbw x0 y0 w h s
  | .opReadPsmt8 dbp dbw x0 y0 w h => Sys2Proof.Machine.execOpReadPsmt8 dbp dbw x0 y0 w h s
  | .opReadPsmt4 dbp dbw x0 y0 w h => Sys2Proof.Machine.execOpReadPsmt4 dbp dbw x0 y0 w h s
  | .opReadPalette p w h => Sys2Proof.Machine.execOpReadPalette p w h s
  | .opReadFlatPalette p => Sys2Proof.Machine.execOpReadFlatPalette p s
  | .opUnswizzleClut pal => Sys2Proof.Machine.execOpUnswizzleClut pal s
  | .opApplyPalette pal idx => Sys2Proof.Machine.execOpApplyPalette pal idx s
  | .opExpand4 bs => Sys2Proof.Machine.execOpExpand4 bs s
  | .opDecode record => Sys2Proof.Machine.execOpDecode record s

end Sys2Proof.Machine
end

