-- ==== Sys2Proof/Machine/Fetch.lean ====
section
/-! DEFINITION. Where the next instruction comes from, and how an instruction's bits are placed there. Step.lean only
calls these. -/

namespace Sys2Proof.Machine

/-- What a step finds to do: run an instruction on a state, or a step of the sequencer that no instruction names. -/
inductive Fetched where
  | run (i : Instr) (s : State)
  | sequence (s : State)
  deriving DecidableEq, Repr

/-- The instruction of a request on the port (30_encoding.md R57, R68). -/
def decodeRequest : Request → Instr
  | .op p => decodePort p
  | .slot v id => decodeSlot v id

/-- What a block whose transaction has ended finds: the request on the port, taken off it, or nothing to do. -/
def fetchRequest (s : State) : Fetched :=
  match s.port with
  | some r => .run (decodeRequest r) s.consume
  | none => .sequence s

/-- Fetch. The phase says what stands next (43_sequencer.md R98): the header, the record's class, a packet of the scan, or
a step without an instruction. The host cannot touch a running transaction (00_scope.md R4, 60_exceptions.md R118), so a
request on the port waits until the transaction has ended (log 16). -/
def fetch (s : State) : Fetched :=
  match s.phase with
  | .header =>
    match openRecord s with
    | .error e => .sequence (s.raise e)
    | .ok (.enter s') => .sequence s'
    | .ok (.blank lo hi s') => .run (decodeFirstTag lo hi) s'
  | .flat => .run (.recordFlat (headerOf s.inp)) s
  | .direct => .run (decodeFirstTag (firstTag s).1 (firstTag s).2) s
  | .clutLoad => .run (decodeFirstTag (firstTag s).1 (firstTag s).2) s
  | .scanning =>
    if s.scanEnd < s.cur + 16 then .sequence { s with phase := .readback }
    else
      match fetchTag s.inp s.cur with
      | .error e => .sequence (s.raise e)
      | .ok (lo, hi) => .run (decodeTag lo hi) s
  | .transferring => .sequence { s with phase := .scanning }
  | .readback => .sequence (readback s)
  | .done => fetchRequest s
  | .failed => fetchRequest s

/-! ### Placing an instruction (log 2, log 15) -/

/-- The header of the record that a table word is placed in: a 1 × 1 image, `T` right after the header for a first tag,
`T = 0` for the flat class; `RL` large enough not to bound the scan. -/
def hostHeader (tagOff : Word) : Header :=
  { width := 1#16, height := 1#16, unused4 := 0#16, recLen := 0xFFFF#16, unused8 := 0#32, unused12 := 0#32,
    tagOff := tagOff }

/-- A record with this header and body, its header values latched and the sequencer in phase `p`. -/
def placeRecord (s : State) (hd : Header) (body : List Byte) (p : Phase) : State :=
  { s with
    inp := headerBytesOf hd ++ body
    width := hd.width
    height := hd.height
    recLen := hd.recLen
    tagOff := hd.tagOff
    scanEnd := (headerBytesOf hd ++ body).length
    phase := p }

/-- Place a first tag: a record whose tag stream starts right behind the header. The blank class has no phase of its
own, so its record is placed before the header step. -/
def placeFirstTag (s : State) (bs : List Byte) : State :=
  let lo := fieldAt 64 bs 0 8
  let body := bs ++ List.replicate 112 0#8
  if tagNloop lo = nloopDirect then placeRecord s (hostHeader 20#32) body .direct
  else if tagNloop lo = nloopIndexed then placeRecord s (hostHeader 20#32) body .clutLoad
  else placeRecord s (hostHeader 20#32) body .header

/-- Place a tag of the scan at the cursor, with as many zero bytes behind it as its NLOOP declares. -/
def placeTag (s : State) (bs : List Byte) : State :=
  { placeRecord s (hostHeader 20#32) (bs ++ List.replicate (payloadLen (tagNloop (fieldAt 64 bs 0 8))) 0#8) .scanning with
    cur := 20 }

/-- Put a request on the port of a block whose transaction has ended, where the next step takes it. -/
def placeRequest (s : State) (r : Request) : State := { s with port := some r, phase := .done }

/-- Place an encoding where `fetch` finds it. -/
def placeEncoded (s : State) : Encoded → State
  | .header bs =>
    placeRecord s (headerOf bs) (List.replicate (flatPaletteBytes + (headerOf bs).width.toNat * (headerOf bs).height.toNat) 0#8)
      .flat
  | .firstTag bs => placeFirstTag s bs
  | .tag bs => placeTag s bs
  | .slot bs => placeRequest s (.slot (fieldAt 64 bs 0 8) (fieldAt 64 bs 8 8))
  | .port p => placeRequest s (.op p)

end Sys2Proof.Machine
end

