-- ==== Sys2Proof/Safety.lean ====
section
/-! DEFINITION. What statements about the machine are said in: values of the record as the rules write them, the first
slot of a batch, a sound image, and the invariant of a run. -/

namespace Sys2Proof.Machine

/-! ### The record, as 20_memory.md R32 reads it -/

/-- The little-endian value of `In[a .. a+n-1]` as R32 sums it; meant for ranges inside the record. -/
def valueAt (inp : List Byte) (a n : Nat) : Nat :=
  ((List.range n).map fun k => 2 ^ (8 * k) * (inp.getD (a + k) 0#8).toNat).sum

/-- The byte string `In[a .. a+n-1]`. -/
def bytesAt (inp : List Byte) (a n : Nat) : List Byte := (inp.drop a).take n

/-- NLOOP, EOP and FLG of the tag at `a`, from its low half (30_encoding.md R54). -/
def nloopAt (inp : List Byte) (a : Nat) : Nat := valueAt inp a 8 % 2 ^ 15
def eopAt (inp : List Byte) (a : Nat) : Nat := valueAt inp a 8 / 2 ^ 15 % 2
def flgAt (inp : List Byte) (a : Nat) : Nat := valueAt inp a 8 / 2 ^ 58 % 4

/-! ### Slots (40_tag_parser.md R72) -/

/-- The slot at `slot` carries the 64-bit id `id`. -/
def SlotMatches (inp : List Byte) (slot : Nat) (id : Quad) : Prop := valueAt inp (slot + 8) 8 = id.toNat

/-- `o` is the first of `count` slots from `start` that lies whole below `bound` and carries `id`. -/
def IsFirstSlot (inp : List Byte) (start count bound : Nat) (id : Quad) (o : Nat) : Prop :=
  ∃ k, k < count ∧ o = start + 16 * k ∧ o + 16 ≤ bound ∧ SlotMatches inp o id ∧
    ∀ j, j < k → ¬ SlotMatches inp (start + 16 * j) id

/-- None of `count` slots from `start` that lie whole below `bound` carries `id`. -/
def NoSlot (inp : List Byte) (start count bound : Nat) (id : Quad) : Prop :=
  ∀ k, k < count → start + 16 * k + 16 ≤ bound → ¬ SlotMatches inp (start + 16 * k) id

/-! ### Pixels -/

/-- The byte address of the surface word of pixel `k` of a PSMCT32 rectangle, counted row by row (41_address_translator.md
R88, R89): the address function the operations use, at the machine's base pointer unit. -/
def pixelByte (dbp dbw x0 y0 w k : Nat) : Nat := 4 * addr32 bpUnitWords dbp dbw (x0 + k % w) (y0 + k / w)

/-- Pixel `k` is written by a transfer of a `w × h` rectangle from `len` bytes: it is a pixel of the rectangle, the source
holds its whole word (R88), and its word lies inside the surface (20_memory.md R38). -/
def PixelWritten (dbp dbw x0 y0 w h len k : Nat) : Prop :=
  k < w * h ∧ 4 * k + 4 ≤ len ∧ pixelByte dbp dbw x0 y0 w k + 4 ≤ surfaceBytes

/-- The 4-bit value of nibble `k` of a packed byte string, low nibble first (R91, 42_format_converter.md R97). -/
def nibbleOf (bs : List Byte) (k : Nat) : Nat := (bs.getD (k / 2) 0#8).toNat / 16 ^ (k % 2) % 16

/-! ### States and outcomes statements name -/

/-- The state once the header's values are latched. -/
def State.headerLatched (s : State) : State :=
  { s with
    width := .ofNat 16 (valueAt s.inp 0 2), height := .ofNat 16 (valueAt s.inp 2 2),
    recLen := .ofNat 16 (valueAt s.inp 6 2), tagOff := .ofNat 32 (valueAt s.inp 16 4) }

/-- What a record of the indexed class does whose TRXREG slot, at `o`, declares `w * h` entries. -/
def ClutOutcome (flg : BitVec 2) (r : TagRest) (s : State) (o : Nat) : Prop :=
  let t0 := s.tagOff.toNat
  let w := valueAt s.inp o 8 % 2 ^ 12
  let h := valueAt s.inp o 8 / 2 ^ 32 % 2 ^ 12
  (w * h ≠ 16 → w * h ≠ 256 → exec (.recordIndexed flg r) s = exec (.recordBlank 0 flg r) s) ∧
  (w * h = 16 ∨ w * h = 256 →
    (s.inp.length < t0 + 96 + 4 * (w * h) →
      ∃ t, exec (.recordIndexed flg r) s = .next t ∧ t.phase = .failed ∧ t.result = some (.error .outOfBounds)) ∧
    (t0 + 96 + 4 * (w * h) ≤ s.inp.length →
      ∃ stored logical,
        exec (.opReadPalette (t0 + 96) w h) s = .next { s with out := .palette stored } ∧
        exec (.opUnswizzleClut stored) s = .next { s with out := .palette logical } ∧
        exec (.recordIndexed flg r) s = .next { s with
          pal := logical, cur := t0 + 96 + 16 * nloopAt s.inp (t0 + 80), phase := .scanning }))

/-- The state after a payload is transferred, the cursor moved and the scan taken up again (R109): through the surface with
256 entries or format PSMCT32, else appended to LB. -/
def State.afterTransfer (s : State) (payload : List Byte) (cursor : Nat) : State :=
  if s.pal.length = 256 ∨ s.bitbltbuf.dpsm.toNat = 0 then
    { s with
      surface := writePsmct32 bpUnitWords s.bitbltbuf.dbp.toNat s.bitbltbuf.dbw.toNat s.trxpos.dsax.toNat
        s.trxpos.dsay.toNat s.trxreg.rrw.toNat s.trxreg.rrh.toNat payload s.surface,
      surfaceUsed := true, cur := cursor, phase := .scanning }
  else { s with lb := s.lb ++ payload, cur := cursor, phase := .scanning }

/-- The instruction completes and brings the machine to `u`: at once, or resting in another phase from which the next step
is `u`, with every other field as in `u`. -/
def Transfers (i : Instr) (s u : State) : Prop :=
  ∃ t, exec i s = .next t ∧ t = { u with phase := t.phase } ∧ (t = u ∨ step t = .next u)

/-- The state an error leaves: everything at its reset value but the record, a waiting request, the error and its diagnostic
data (R115, log 5). -/
def State.discarded (s : State) (kind : ErrorKind) (diag : Option (Nat × Nat)) : State :=
  { State.reset with inp := s.inp, port := s.port, phase := .failed, result := some (.error kind), diag := diag }

/-- The index the readback gives pixel `(x, y)`: from the surface as PSMT8 with 256 entries, as PSMT4 when a transfer
went through the surface, else from LB, 0 past its end. -/
def State.pixelIndex (s : State) (x y : Nat) : Nat :=
  if s.pal.length = 256 then
    (memRead s.surface (addr8 bpUnitWords s.bitbltbuf.dbp.toNat (2 * s.bitbltbuf.dbw.toNat) x y)).toNat
  else if s.surfaceUsed then
    (memRead s.surface (addr4 bpUnitWords s.bitbltbuf.dbp.toNat (2 * s.bitbltbuf.dbw.toNat) x y / 2)).toNat /
      16 ^ (addr4 bpUnitWords s.bitbltbuf.dbp.toNat (2 * s.bitbltbuf.dbw.toNat) x y % 2) % 16
  else nibbleOf s.lb (y * s.width.toNat + x)

/-! ### Images (10_state.md R28) -/

/-- The invariant of a RasterImage: both sizes positive, `|buffer| = height * stride`, and a palette as the branch that
made it gives one: 256 entries for Indexed8 (R102), none, 16 or 256 for DirectColor. -/
def RasterImage.Sound (img : RasterImage) : Prop :=
  0 < img.width.toNat ∧ 0 < img.height.toNat ∧ img.buffer.length = img.height.toNat * img.stride ∧
    match img.kind, img.palette with
    | .indexed8, some pal => pal.length = 256
    | .indexed8, none => False
    | .directColor, some pal => pal.length = 16 ∨ pal.length = 256
    | .directColor, none => True

/-! ### The invariant of a run -/

/-- What the result register may hold in a phase (R18, R28): nothing until the transaction ends, a sound image in
`Done`, an error in `Failed`. -/
def resultFits : Phase → Option Result → Prop
  | .done, some (.image img) => img.Sound
  | .failed, some (.error _) => True
  | .header, none => True
  | .flat, none => True
  | .direct, none => True
  | .clutLoad, none => True
  | .scanning, none => True
  | .transferring, none => True
  | .readback, none => True
  | _, _ => False

/-- The phases after HEADER_STEP and before the end. -/
def Phase.headerLatched : Phase → Bool
  | .flat => true
  | .direct => true
  | .clutLoad => true
  | .scanning => true
  | .transferring => true
  | .readback => true
  | .header => false
  | .done => false
  | .failed => false

/-- The phases after CLUT_STEP and before the end. -/
def Phase.paletteLoaded : Phase → Bool
  | .scanning => true
  | .transferring => true
  | .readback => true
  | .header => false
  | .flat => false
  | .direct => false
  | .clutLoad => false
  | .done => false
  | .failed => false

/-- The phases before CLUT_STEP sets the cursor. -/
def Phase.beforeScan : Phase → Bool
  | .header => true
  | .flat => true
  | .direct => true
  | .clutLoad => true
  | .scanning => false
  | .transferring => false
  | .readback => false
  | .done => false
  | .failed => false

/-- The invariant every step keeps and reset has. -/
structure State.Inv (s : State) : Prop where
  /-- the surface keeps its canonical form and stays inside SURFACE_BYTES (R23). -/
  surface : Memory.wf s.surface
  /-- `END <= len` (R101). -/
  scanEnd : s.scanEnd ≤ s.inp.length
  /-- R18, R28. -/
  result : resultFits s.phase s.result
  /-- a zero width or height never gets past the header step (R99). -/
  sizes : s.phase.headerLatched = true → 0 < s.width.toNat ∧ 0 < s.height.toNat
  /-- `N` is 16 or 256 after the CLUT load (R24). -/
  palette : s.phase.paletteLoaded = true → s.pal.length = 16 ∨ s.pal.length = 256
  /-- the cursor is 0 until the CLUT load and lies behind the palette's start from then on (R15, R105). -/
  cursorBefore : s.phase.beforeScan = true → s.cur = 0
  cursorAfter : s.phase.paletteLoaded = true → tagStart s.tagOff + clutPaletteOffset ≤ s.cur

/-- A request that starts a new transaction. -/
def Request.isDecode : Request → Bool
  | .op p => p.code == 15#4
  | .slot _ _ => false

end Sys2Proof.Machine
end

