-- ==== Sys2Proof/Certificates/Slice0/Obligations.lean ====
section
/-! DEFINITION. The statements about the model, one definition each; OBLIGATIONS.json lists them with the rules of spec/
they formalise. An equation `exec i s = .next { s with … }` is at once the result, the frame (every field not named keeps
its value, all of memory with it) and the completion of the instruction. -/

open Sys2Proof Sys2Proof.Machine

/-! ### Encoding (30_encoding.md) -/

/-- Decoding the encoding of a well-formed instruction gives it back, every operand included. -/
def Obligations.DecodeInvertsEncode : Prop :=
  ∀ i : Instr, WellFormed i = true → decode (encode i) = .ok i

/-- Every encoding in the record that decodes is the encoding of what it decodes to: no bit of a header, tag or slot is
dropped. The port's operands are the model's own form (log 3) and are left out. -/
def Obligations.EncodeInvertsDecodeInRecord : Prop :=
  ∀ (e : Encoded) (i : Instr), (∀ p, e ≠ .port p) → decode e = .ok i → encode i = e

/-- Words written out from the spec's own examples: the two tags of 40_tag_parser.md R70, program P1's TRXREG slot,
program P5's header, a first tag with program P4's NLOOP; and operation code 0xF with its record, in the MODEL's own form of
a port operation (log 3: the spec gives the port's operands no bits). -/
def Obligations.SpecWordsDecode : Prop :=
  decode (.tag [0x04, 0, 0, 0, 0, 0, 0, 0x10, 0x0E, 0, 0, 0, 0, 0, 0, 0]) =
      .ok (.giftagPacked 4 { eop := 0, gap := 0, pre := 0, prim := 0, nreg := 1, regs := 0xE }) ∧
  decode (.tag [0x08, 0x80, 0, 0, 0, 0, 0, 0x18, 0x0E, 0, 0, 0, 0, 0, 0, 0]) =
      .ok (.giftagImage 8 { eop := 1, gap := 0, pre := 0, prim := 0, nreg := 1, regs := 0xE }) ∧
  decode (.slot [0x08, 0, 0, 0, 0x02, 0, 0, 0, 0x52, 0, 0, 0, 0, 0, 0, 0]) = .ok (.adTrxreg 0x0000000200000008) ∧
  decode (.header [0x02, 0, 0x02, 0, 0, 0, 0, 0, 0, 0, 0, 0, 0, 0, 0, 0, 0, 0, 0, 0]) =
      .ok (.recordFlat { width := 2, height := 2, unused4 := 0, recLen := 0, unused8 := 0, unused12 := 0, tagOff := 0 }) ∧
  decode (.firstTag [0x05, 0, 0, 0, 0, 0, 0, 0x10, 0x0E, 0, 0, 0, 0, 0, 0, 0]) =
      .ok (.recordBlank 5 0 { eop := 0, gap := 0, pre := 0, prim := 0, nreg := 1, regs := 0xE }) ∧
  decode (.port { code := 0xF, nums := [], data := [0x10], pal := [] }) = .ok (.opDecode [0x10])

/-- FLG alone selects the packet: 2 is an image, 0, 1 and 3 are register batches; NLOOP is `lo[14:0]`. -/
def Obligations.FlgSelectsPacketKind : Prop :=
  ∀ lo hi : Quad, ∃ (n : BitVec 15) (r : TagRest), n.toNat = lo.toNat % 2 ^ 15 ∧
    (lo.toNat / 2 ^ 58 % 4 = 0 → decodeTag lo hi = .giftagPacked n r ∧ (tagDescriptor lo).kind = .registerBatch) ∧
    (lo.toNat / 2 ^ 58 % 4 = 1 → decodeTag lo hi = .giftagReglist n r ∧ (tagDescriptor lo).kind = .registerBatch) ∧
    (lo.toNat / 2 ^ 58 % 4 = 2 → decodeTag lo hi = .giftagImage n r ∧ (tagDescriptor lo).kind = .image) ∧
    (lo.toNat / 2 ^ 58 % 4 = 3 → decodeTag lo hi = .giftagDisabled n r ∧ (tagDescriptor lo).kind = .registerBatch)

/-! ### Fetch and step -/

/-- A step runs the decoded instruction: while the transaction runs, the one at the cursor in the scan, the first tag's class
in its phase, the flat header's; once it has ended, the one on the port (taken off it). That the port stands in State (log 3),
that a slot can be requested alone (log 4) and that a request waits for the end of a transaction (log 16) are the model's. -/
def Obligations.StepRunsDecodedInstruction : Prop :=
  ∀ (s : State) (i : Instr),
    (s.phase = .scanning → s.cur + 16 ≤ s.scanEnd → s.scanEnd ≤ s.inp.length →
      decode (.tag (bytesAt s.inp s.cur 16)) = .ok i → step s = exec i s) ∧
    (s.phase = .direct ∨ s.phase = .clutLoad → tagStart s.tagOff + 16 ≤ s.inp.length →
      decode (.firstTag (bytesAt s.inp (tagStart s.tagOff) 16)) = .ok i → step s = exec i s) ∧
    (s.phase = .flat → decode (.header (bytesAt s.inp 0 20)) = .ok i → step s = exec i s) ∧
    (s.phase = .done ∨ s.phase = .failed →
      (∀ p, s.port = some (.op p) → decode (.port p) = .ok i → step s = exec i { s with port := none }) ∧
      (∀ v id, s.port = some (.slot v id) → decode (.slot (slotBytes v id)) = .ok i →
        step s = exec i { s with port := none }))

/-- The host cannot touch a running transaction: whatever stands on the port, a step does the same to every other field, and
leaves the request waiting (that the port is a field of State is the model's, log 3; that the request waits, log 16). -/
def Obligations.RunningTransactionIgnoresPort : Prop :=
  ∀ (s : State) (r : Option Request), s.phase ≠ .done → s.phase ≠ .failed →
    ∃ t, step s = .next t ∧ t.port = s.port ∧ step { s with port := r } = .next { t with port := r }

/-- No state makes a step stop: every step answers a next state. -/
def Obligations.EveryStepAnswersNextState : Prop :=
  ∀ s : State, ∃ t, step s = .next t

/-! ### The input record (20_memory.md) -/

/-- An input read answers the bytes, and their little-endian sum, exactly when the range lies in the record. -/
def Obligations.InputReadIsCheckedLittleEndianSum : Prop :=
  ∀ (inp : List Byte) (a n : Nat),
    (a + n ≤ inp.length →
      inRead inp a n = .ok (valueAt inp a n) ∧
        ∃ bs, inBytes inp a n = .ok bs ∧ bs.length = n ∧ ∀ k, k < n → bs.getD k 0#8 = inp.getD (a + k) 0#8) ∧
    (inp.length < a + n →
      inRead inp a n = .error (.outOfBounds a n) ∧ inBytes inp a n = .error (.outOfBounds a n))

/-- The block never writes `In`: no step of a running transaction changes it, and after its end none does but one that starts
a new transaction. -/
def Obligations.RecordIsNeverWritten : Prop :=
  ∀ s t : State, ((s.phase = .done ∨ s.phase = .failed) → ∀ r, s.port = some r → r.isDecode = false) →
    step s = .next t → t.inp = s.inp

/-! ### Command-tag parser (40_tag_parser.md) -/

/-- PARSE_TAG answers NLOOP, EOP, FLG and the kind, or fails when the 16 bytes do not all lie in the record. -/
def Obligations.ParseTagAnswersDescriptor : Prop :=
  ∀ (a : Nat) (s : State),
    (a + 16 ≤ s.inp.length →
      ∃ d : TagDescriptor, d.nloop.toNat = nloopAt s.inp a ∧ d.eop.toNat = eopAt s.inp a ∧ d.flg.toNat = flgAt s.inp a ∧
        exec (.opParseTag a) s =
          .next { s with out := .tag d (if flgAt s.inp a = 2 then .image else .registerBatch) }) ∧
    (s.inp.length < a + 16 →
      ∃ t, exec (.opParseTag a) s = .next t ∧ t.phase = .failed ∧ t.result = some (.error .outOfBounds))

/-- TOTAL_LEN is 16 bytes for the tag and 16 for each count; never 0. -/
def Obligations.TotalLenIsSixteenPerLoop : Prop :=
  ∀ (d : TagDescriptor) (s : State),
    ∃ n, exec (.opTotalLen d) s = .next { s with out := .length n } ∧ n = 16 + 16 * d.nloop.toNat ∧
      n = 16 + payloadLen d.nloop ∧ payloadLen d.nloop = 16 * d.nloop.toNat ∧ 16 ≤ n ∧ n ≤ 524288

/-- FIND_REG answers the first complete slot below the bound whose whole id is the one asked for, 0 if there is none. -/
def Obligations.FindRegAnswersFirstMatch : Prop :=
  ∀ (start count : Nat) (id : Quad) (bound : Nat) (s : State), bound ≤ s.inp.length →
    ∃ o, exec (.opFindReg start count id bound) s = .next { s with out := .offset o } ∧
      (IsFirstSlot s.inp start count bound id o ∨ (o = 0 ∧ NoSlot s.inp start count bound id))

/-- With a bound past the record, which no caller of the rule passes, a slot whose id does not lie in the record makes
FIND_REG fail as every input read does (the model's reading, log 12). -/
def Obligations.FindRegPastRecordFails : Prop :=
  ∀ (start count : Nat) (id : Quad) (bound : Nat) (s : State),
    0 < count → start + 16 ≤ bound → s.inp.length < start + 16 →
    ∃ t, exec (.opFindReg start count id bound) s = .next t ∧ t.phase = .failed ∧ t.result = some (.error .outOfBounds)

/-- The three LATCH operations take their fields at the rules' bit positions, and nothing else changes. -/
def Obligations.LatchOpsTakeTheirFields : Prop :=
  ∀ (v : Quad) (s : State),
    exec (.opLatchBitbltbuf v) s = .next { s with
      bitbltbuf := { dbp := .ofNat 14 (v.toNat / 2 ^ 32), dbw := .ofNat 6 (v.toNat / 2 ^ 48), dpsm := .ofNat 6 (v.toNat / 2 ^ 56) }
      out := .written } ∧
    exec (.opLatchTrxpos v) s = .next { s with
      trxpos := { dsax := .ofNat 11 (v.toNat / 2 ^ 32), dsay := .ofNat 11 (v.toNat / 2 ^ 48) }
      out := .written } ∧
    exec (.opLatchTrxreg v) s = .next { s with
      trxreg := { rrw := .ofNat 12 v.toNat, rrh := .ofNat 12 (v.toNat / 2 ^ 32) }
      out := .written }

/-- A register slot on its own (the model's request, log 4) loads its latch, and TRXDIR and every other id do nothing. -/
def Obligations.SlotsLatchOrDoNothing : Prop :=
  ∀ (v id : Quad) (s : State),
    exec (.adBitbltbuf v) s = .next { s with
      bitbltbuf := { dbp := .ofNat 14 (v.toNat / 2 ^ 32), dbw := .ofNat 6 (v.toNat / 2 ^ 48), dpsm := .ofNat 6 (v.toNat / 2 ^ 56) } } ∧
    exec (.adTrxpos v) s = .next { s with
      trxpos := { dsax := .ofNat 11 (v.toNat / 2 ^ 32), dsay := .ofNat 11 (v.toNat / 2 ^ 48) } } ∧
    exec (.adTrxreg v) s = .next { s with
      trxreg := { rrw := .ofNat 12 v.toNat, rrh := .ofNat 12 (v.toNat / 2 ^ 32) } } ∧
    exec (.adTrxdir v) s = .next s ∧
    exec (.adOther id v) s = .next s

/-- A register batch loads each latch from the first slot of its id that lies whole below END, keeps a latch whose slot
is absent, and moves the cursor by the full packet; the three FLG values of a batch do the same. -/
def Obligations.RegisterBatchLatchesFirstSlots : Prop :=
  ∀ (n : BitVec 15) (r : TagRest) (s : State) (i : Instr),
    i = .giftagPacked n r ∨ i = .giftagReglist n r ∨ i = .giftagDisabled n r → s.scanEnd ≤ s.inp.length →
    ∃ (b : Bitbltbuf) (p : Trxpos) (q : Trxreg),
      exec i s = .next { s with bitbltbuf := b, trxpos := p, trxreg := q, cur := s.cur + 16 + 16 * n.toNat } ∧
      (∀ o, IsFirstSlot s.inp (s.cur + 16) n.toNat s.scanEnd 0x50 o →
        b = { dbp := .ofNat 14 (valueAt s.inp o 8 / 2 ^ 32), dbw := .ofNat 6 (valueAt s.inp o 8 / 2 ^ 48),
              dpsm := .ofNat 6 (valueAt s.inp o 8 / 2 ^ 56) }) ∧
      (NoSlot s.inp (s.cur + 16) n.toNat s.scanEnd 0x50 → b = s.bitbltbuf) ∧
      (∀ o, IsFirstSlot s.inp (s.cur + 16) n.toNat s.scanEnd 0x51 o →
        p = { dsax := .ofNat 11 (valueAt s.inp o 8 / 2 ^ 32), dsay := .ofNat 11 (valueAt s.inp o 8 / 2 ^ 48) }) ∧
      (NoSlot s.inp (s.cur + 16) n.toNat s.scanEnd 0x51 → p = s.trxpos) ∧
      (∀ o, IsFirstSlot s.inp (s.cur + 16) n.toNat s.scanEnd 0x52 o →
        q = { rrw := .ofNat 12 (valueAt s.inp o 8), rrh := .ofNat 12 (valueAt s.inp o 8 / 2 ^ 32) }) ∧
      (NoSlot s.inp (s.cur + 16) n.toNat s.scanEnd 0x52 → q = s.trxreg)

/-- Whatever a discarded field holds, the block does the same: the tags' unused fields, the first tag's FLG, the slot
bits no latch takes, a TRXDIR or unknown slot as a whole. -/
def Obligations.DiscardedFieldsChangeNothing : Prop :=
  ∀ (n : BitVec 15) (f f' : BitVec 2) (r r' : TagRest) (v v' id : Quad) (s : State),
    exec (.giftagPacked n r) s = exec (.giftagPacked n r') s ∧
    exec (.giftagReglist n r) s = exec (.giftagReglist n r') s ∧
    exec (.giftagDisabled n r) s = exec (.giftagDisabled n r') s ∧
    exec (.giftagImage n r) s = exec (.giftagImage n r') s ∧
    exec (.recordDirect f r) s = exec (.recordDirect f' r') s ∧
    exec (.recordIndexed f r) s = exec (.recordIndexed f' r') s ∧
    exec (.recordBlank n f r) s = exec (.recordBlank n f' r') s ∧
    (v &&& 0x3F3F3FFF00000000 = v' &&& 0x3F3F3FFF00000000 → exec (.adBitbltbuf v) s = exec (.adBitbltbuf v') s) ∧
    (v &&& 0x07FF07FF00000000 = v' &&& 0x07FF07FF00000000 → exec (.adTrxpos v) s = exec (.adTrxpos v') s) ∧
    (v &&& 0x00000FFF00000FFF = v' &&& 0x00000FFF00000FFF → exec (.adTrxreg v) s = exec (.adTrxreg v') s) ∧
    exec (.adTrxdir v) s = exec (.adTrxdir v') s ∧
    exec (.adOther id v) s = exec (.adOther id v') s

/-! ### Address translator (41_address_translator.md; the tables are general knowledge of the spec, log 10) -/

/-- Within one page each address function is a bijection: 64 × 32 pixels onto 2048 words, 128 × 64 onto 8192 bytes,
128 × 128 onto 16384 nibbles; for every base pointer unit. -/
def Obligations.AddressBijectiveWithinPage : Prop :=
  ∀ unit dbp dbw : Nat,
    (∀ w, w < 2048 → ∃ x y, x < 64 ∧ y < 32 ∧ addr32 unit dbp dbw x y = dbp * unit + w ∧
      ∀ x' y', x' < 64 → y' < 32 → addr32 unit dbp dbw x' y' = dbp * unit + w → x' = x ∧ y' = y) ∧
    (∀ x y, x < 64 → y < 32 → dbp * unit ≤ addr32 unit dbp dbw x y ∧ addr32 unit dbp dbw x y < dbp * unit + 2048) ∧
    (∀ b, b < 8192 → ∃ x y, x < 128 ∧ y < 64 ∧ addr8 unit dbp dbw x y = 4 * (dbp * unit) + b ∧
      ∀ x' y', x' < 128 → y' < 64 → addr8 unit dbp dbw x' y' = 4 * (dbp * unit) + b → x' = x ∧ y' = y) ∧
    (∀ x y, x < 128 → y < 64 →
      4 * (dbp * unit) ≤ addr8 unit dbp dbw x y ∧ addr8 unit dbp dbw x y < 4 * (dbp * unit) + 8192) ∧
    (∀ q, q < 16384 → ∃ x y, x < 128 ∧ y < 128 ∧ addr4 unit dbp dbw x y = 8 * (dbp * unit) + q ∧
      ∀ x' y', x' < 128 → y' < 128 → addr4 unit dbp dbw x' y' = 8 * (dbp * unit) + q → x' = x ∧ y' = y) ∧
    (∀ x y, x < 128 → y < 128 →
      8 * (dbp * unit) ≤ addr4 unit dbp dbw x y ∧ addr4 unit dbp dbw x y < 8 * (dbp * unit) + 16384)

/-- Within page 0 two pixels lie in the same aligned run of 64 words exactly when they lie in the same block. -/
def Obligations.BlocksAreRunsOfSixtyFourWords : Prop :=
  ∀ unit dbw : Nat,
    (∀ x y x' y', x < 64 → y < 32 → x' < 64 → y' < 32 →
      (addr32 unit 0 dbw x y / 64 = addr32 unit 0 dbw x' y' / 64 ↔ x / 8 = x' / 8 ∧ y / 8 = y' / 8)) ∧
    (∀ x y x' y', x < 128 → y < 64 → x' < 128 → y' < 64 →
      (addr8 unit 0 dbw x y / 256 = addr8 unit 0 dbw x' y' / 256 ↔ x / 16 = x' / 16 ∧ y / 16 = y' / 16)) ∧
    (∀ x y x' y', x < 128 → y < 128 → x' < 128 → y' < 128 →
      (addr4 unit 0 dbw x y / 512 = addr4 unit 0 dbw x' y' / 512 ↔ x / 32 = x' / 32 ∧ y / 16 = y' / 16))

/-- Where the buffer is at least as wide as the columns used, no two pixels share an address, in any number of rows. -/
def Obligations.AddressInjectiveWithinBufferWidth : Prop :=
  ∀ unit dbp dbw x y x' y' : Nat,
    (x < 64 * dbw → x' < 64 * dbw → addr32 unit dbp dbw x y = addr32 unit dbp dbw x' y' → x = x' ∧ y = y') ∧
    (x < 128 * (dbw / 2) → x' < 128 * (dbw / 2) → addr8 unit dbp dbw x y = addr8 unit dbp dbw x' y' → x = x' ∧ y = y') ∧
    (x < 128 * (dbw / 2) → x' < 128 * (dbw / 2) → addr4 unit dbp dbw x y = addr4 unit dbp dbw x' y' → x = x' ∧ y = y')

/-- WRITE_PSMCT32 writes only the surface. A byte outside every written pixel's word keeps its value; the word of a
written pixel that no later written pixel shares holds the pixel's four source bytes. -/
def Obligations.WriteScattersPixels : Prop :=
  ∀ (dbp : BitVec 14) (dbw : BitVec 6) (dsax dsay : BitVec 11) (rrw rrh : BitVec 12) (src : List Byte) (s : State),
    ∃ m, exec (.opWritePsmct32 dbp dbw dsax dsay rrw rrh src) s = .next { s with surface := m, out := .written } ∧
      (∀ a, (∀ k, PixelWritten dbp.toNat dbw.toNat dsax.toNat dsay.toNat rrw.toNat rrh.toNat src.length k →
          a < pixelByte dbp.toNat dbw.toNat dsax.toNat dsay.toNat rrw.toNat k ∨
            pixelByte dbp.toNat dbw.toNat dsax.toNat dsay.toNat rrw.toNat k + 4 ≤ a) →
        memRead m a = memRead s.surface a) ∧
      (Memory.wf s.surface →
        ∀ k, PixelWritten dbp.toNat dbw.toNat dsax.toNat dsay.toNat rrw.toNat rrh.toNat src.length k →
          (∀ j, k < j → PixelWritten dbp.toNat dbw.toNat dsax.toNat dsay.toNat rrw.toNat rrh.toNat src.length j →
            pixelByte dbp.toNat dbw.toNat dsax.toNat dsay.toNat rrw.toNat j ≠
              pixelByte dbp.toNat dbw.toNat dsax.toNat dsay.toNat rrw.toNat k) →
          ∀ b, b < 4 → memRead m (pixelByte dbp.toNat dbw.toNat dsax.toNat dsay.toNat rrw.toNat k + b) =
            src.getD (4 * k + b) 0#8)

/-- With the base pointer unit of 2048 words a base of 512 or more lies past the 4 MiB surface: the write is dropped
whole and no error is raised. -/
def Obligations.WriteBeyondSurfaceIsDropped : Prop :=
  ∀ (dbp : BitVec 14) (dbw : BitVec 6) (dsax dsay : BitVec 11) (rrw rrh : BitVec 12) (src : List Byte) (s : State),
    512 ≤ dbp.toNat →
      exec (.opWritePsmct32 dbp dbw dsax dsay rrw rrh src) s = .next { s with out := .written }

/-- READ_PSMCT32 answers four bytes per pixel, row by row, 0 outside the surface, and changes nothing else. -/
def Obligations.ReadPsmct32GathersWords : Prop :=
  ∀ (dbp : BitVec 14) (dbw : BitVec 6) (x0 y0 : BitVec 11) (w h : BitVec 12) (s : State),
    ∃ bs, exec (.opReadPsmct32 dbp dbw x0 y0 w h) s = .next { s with out := .bytes bs } ∧
      bs.length = 4 * (w.toNat * h.toNat) ∧
      ∀ k b, k < w.toNat * h.toNat → b < 4 →
        bs.getD (4 * k + b) 0#8 =
          (if pixelByte dbp.toNat dbw.toNat x0.toNat y0.toNat w.toNat k + b < surfaceBytes
            then Memory.get s.surface (pixelByte dbp.toNat dbw.toNat x0.toNat y0.toNat w.toNat k + b) else 0#8)

/-- What WRITE_PSMCT32 wrote, READ_PSMCT32 reads back whole, on a rectangle no wider than the buffer and inside the
surface. -/
def Obligations.ReadPsmct32InvertsWrite : Prop :=
  ∀ (dbp : BitVec 14) (dbw : BitVec 6) (dsax dsay : BitVec 11) (rrw rrh : BitVec 12) (src : List Byte) (s : State),
    Memory.wf s.surface → src.length = 4 * (rrw.toNat * rrh.toNat) → dsax.toNat + rrw.toNat ≤ 64 * dbw.toNat →
    (∀ k, k < rrw.toNat * rrh.toNat →
      pixelByte dbp.toNat dbw.toNat dsax.toNat dsay.toNat rrw.toNat k + 4 ≤ surfaceBytes) →
    ∃ t, exec (.opWritePsmct32 dbp dbw dsax dsay rrw rrh src) s = .next t ∧
      exec (.opReadPsmct32 dbp dbw dsax dsay rrw rrh) t = .next { t with out := .bytes src }

/-- READ_PSMT8 answers one byte per pixel, row by row, 0 outside the surface, and changes nothing else. -/
def Obligations.ReadPsmt8GathersBytes : Prop :=
  ∀ (dbp dbw x0 y0 w h : Nat) (s : State),
    ∃ bs, exec (.opReadPsmt8 dbp dbw x0 y0 w h) s = .next { s with out := .bytes bs } ∧ bs.length = w * h ∧
      ∀ k, k < w * h →
        bs.getD k 0#8 =
          (if addr8 bpUnitWords dbp dbw (x0 + k % w) (y0 + k / w) < surfaceBytes
            then Memory.get s.surface (addr8 bpUnitWords dbp dbw (x0 + k % w) (y0 + k / w)) else 0#8)

/-- READ_PSMT4 packs one nibble per pixel, low nibble first, running on across rows; an odd total leaves the last high
nibble 0; EXPAND4 of the answer gives each pixel's index, with one 0 more for an odd total. Of the state only the answer
and the nibble phase change; what the phase holds afterwards is left open here. -/
def Obligations.ReadPsmt4PacksNibbles : Prop :=
  ∀ (dbp dbw x0 y0 w h : Nat) (s : State),
    ∃ bs odd t, t = { s with out := .bytes bs, odd := odd } ∧
      exec (.opReadPsmt4 dbp dbw x0 y0 w h) s = .next t ∧ bs.length = (w * h + 1) / 2 ∧
      (∀ k, k < w * h →
        nibbleOf bs k =
          (memRead s.surface (addr4 bpUnitWords dbp dbw (x0 + k % w) (y0 + k / w) / 2)).toNat /
            16 ^ (addr4 bpUnitWords dbp dbw (x0 + k % w) (y0 + k / w) % 2) % 16) ∧
      (w * h % 2 = 1 → nibbleOf bs (w * h) = 0) ∧
      ∃ idx, exec (.opExpand4 bs) t = .next { t with out := .bytes idx } ∧ idx.length = w * h + w * h % 2 ∧
        ∀ k, k < idx.length → (idx.getD k 0#8).toNat = nibbleOf bs k

/-! ### Format converter (42_format_converter.md) -/

/-- READ_PALETTE answers `w * h` entries R, G, B, A as stored when they lie in the record, and then changes nothing but the
answer; a palette with entries that leaves the record is OutOfBounds. -/
def Obligations.ReadPaletteAnswersStoredEntries : Prop :=
  ∀ (p w h : Nat) (s : State),
    (p + 4 * (w * h) ≤ s.inp.length →
      ∃ pal, exec (.opReadPalette p w h) s = .next { s with out := .palette pal } ∧ pal.length = w * h ∧
        ∀ j, j < w * h → pal[j]? = some
          { r := s.inp.getD (p + 4 * j) 0#8, g := s.inp.getD (p + 4 * j + 1) 0#8, b := s.inp.getD (p + 4 * j + 2) 0#8,
            a := s.inp.getD (p + 4 * j + 3) 0#8 }) ∧
    (0 < w * h → s.inp.length < p + 4 * (w * h) →
      ∃ t, exec (.opReadPalette p w h) s = .next t ∧ t.phase = .failed ∧ t.result = some (.error .outOfBounds))

/-- READ_PALETTE of no entries past the record is OutOfBounds: the MODEL's reading (log 18), since the rule also says that
no entries give the empty palette. -/
def Obligations.ReadEmptyPalettePastRecordFails : Prop :=
  ∀ (p w h : Nat) (s : State), w * h = 0 → s.inp.length < p →
    ∃ t, exec (.opReadPalette p w h) s = .next t ∧ t.phase = .failed ∧ t.result = some (.error .outOfBounds)

/-- READ_FLAT_PALETTE answers 256 entries from little-endian ARGB words, or fails. -/
def Obligations.ReadFlatPaletteAnswersArgbWords : Prop :=
  ∀ (p : Nat) (s : State),
    (p + 1024 ≤ s.inp.length →
      ∃ pal, exec (.opReadFlatPalette p) s = .next { s with out := .palette pal } ∧ pal.length = 256 ∧
        ∀ j, j < 256 → pal[j]? = some
          { r := .ofNat 8 (valueAt s.inp (p + 4 * j) 4 / 2 ^ 16), g := .ofNat 8 (valueAt s.inp (p + 4 * j) 4 / 2 ^ 8),
            b := .ofNat 8 (valueAt s.inp (p + 4 * j) 4), a := .ofNat 8 (valueAt s.inp (p + 4 * j) 4 / 2 ^ 24) }) ∧
    (s.inp.length < p + 1024 →
      ∃ t, exec (.opReadFlatPalette p) s = .next t ∧ t.phase = .failed ∧ t.result = some (.error .outOfBounds))

/-- UNSWIZZLE_CLUT swaps bits 3 and 4 of the index of a 256-entry palette, and leaves every other palette as it is. -/
def Obligations.UnswizzleSwapsBitsThreeAndFour : Prop :=
  ∀ (pal : List Color) (s : State),
    ∃ logical, exec (.opUnswizzleClut pal) s = .next { s with out := .palette logical } ∧
      logical.length = pal.length ∧
      (pal.length = 256 → ∀ j, j < 256 →
        logical[j]? = pal[j % 8 + 8 * (j / 16 % 2) + 16 * (j / 8 % 2) + 32 * (j / 32)]?) ∧
      (pal.length ≠ 256 → logical = pal)

/-- Unswizzling twice gives the palette back; a 16-entry palette is left as it is at once. -/
def Obligations.UnswizzleIsInvolution : Prop :=
  ∀ (pal : List Color) (s : State), pal.length = 256 ∨ pal.length = 16 →
    ∃ logical, exec (.opUnswizzleClut pal) s = .next { s with out := .palette logical } ∧
      exec (.opUnswizzleClut logical) s = .next { s with out := .palette pal } ∧ (pal.length = 16 → logical = pal)

/-- APPLY_PALETTE gives four bytes per index byte: the entry at the index modulo the palette's count. -/
def Obligations.ApplyPaletteTakesIndexModuloCount : Prop :=
  ∀ (pal : List Color) (idx : List Byte) (s : State), 0 < pal.length →
    ∃ bs, exec (.opApplyPalette pal idx) s = .next { s with out := .bytes bs } ∧ bs.length = 4 * idx.length ∧
      ∀ k, k < idx.length → ∃ c, pal[(idx.getD k 0#8).toNat % pal.length]? = some c ∧
        bs.getD (4 * k) 0#8 = c.r ∧ bs.getD (4 * k + 1) 0#8 = c.g ∧ bs.getD (4 * k + 2) 0#8 = c.b ∧
        bs.getD (4 * k + 3) 0#8 = c.a

/-- On an empty palette, where the rule gives no color, APPLY_PALETTE still completes with four bytes per index, each a
free value (the model's choice, log 7). -/
def Obligations.ApplyEmptyPaletteCompletes : Prop :=
  ∀ (idx : List Byte) (s : State),
    ∃ bs, exec (.opApplyPalette [] idx) s = .next { s with out := .bytes bs } ∧ bs.length = 4 * idx.length

/-- EXPAND4 doubles the length: byte `k` gives its low nibble, then its high nibble, each in 0..15. -/
def Obligations.Expand4SplitsNibblesLowFirst : Prop :=
  ∀ (bs : List Byte) (s : State),
    ∃ idx, exec (.opExpand4 bs) s = .next { s with out := .bytes idx } ∧ idx.length = 2 * bs.length ∧
      (∀ k, k < bs.length → (idx.getD (2 * k) 0#8).toNat = (bs.getD k 0#8).toNat % 16 ∧
        (idx.getD (2 * k + 1) 0#8).toNat = (bs.getD k 0#8).toNat / 16) ∧
      ∀ b, b ∈ idx → b.toNat < 16

/-! ### Sequencer (43_sequencer.md) -/

/-- The header step checks the length, then the sizes, and otherwise latches W, H, RL and T: the values are there after the
step whenever the class selection does not fail, and it fails only when `T > 0` and the first tag leaves the record. -/
def Obligations.HeaderStepChecksAndLatches : Prop :=
  ∀ (s : State) (tagOff : Int), s.phase = .header →
    tagOff = (if valueAt s.inp 16 4 < 2 ^ 31 then (valueAt s.inp 16 4 : Int) else (valueAt s.inp 16 4 : Int) - 2 ^ 32) →
    ∃ t, step s = .next t ∧
      (s.inp.length < 20 → t.phase = .failed ∧ t.result = some (.error .outOfBounds)) ∧
      (20 ≤ s.inp.length → valueAt s.inp 0 2 = 0 ∨ valueAt s.inp 2 2 = 0 →
        t.phase = .failed ∧ t.result = some (.error .invalidHeader)) ∧
      (20 ≤ s.inp.length → valueAt s.inp 0 2 ≠ 0 → valueAt s.inp 2 2 ≠ 0 →
        (tagOff ≤ 0 ∨ tagOff + 16 ≤ s.inp.length →
          t.phase ≠ .failed ∧ t.width = .ofNat 16 (valueAt s.inp 0 2) ∧ t.height = .ofNat 16 (valueAt s.inp 2 2) ∧
            t.recLen = .ofNat 16 (valueAt s.inp 6 2) ∧ t.tagOff.toInt = tagOff) ∧
        (0 < tagOff → (s.inp.length : Int) < tagOff + 16 →
          t.phase = .failed ∧ t.result = some (.error .outOfBounds)))

/-- The class of a record whose header passes: flat for `T <= 0`; OutOfBounds when the first tag does not lie in the
record; else by the first tag's NLOOP alone. `END = min(len, 16 * RL)` takes the spec's open parameter of 16 (R101, log 9). -/
def Obligations.FirstTagSelectsClass : Prop :=
  ∀ (s : State) (tagOff : Int), s.phase = .header → 20 ≤ s.inp.length →
    valueAt s.inp 0 2 ≠ 0 → valueAt s.inp 2 2 ≠ 0 →
    tagOff = (if valueAt s.inp 16 4 < 2 ^ 31 then (valueAt s.inp 16 4 : Int) else (valueAt s.inp 16 4 : Int) - 2 ^ 32) →
    (tagOff ≤ 0 → step s = .next { s.headerLatched with phase := .flat }) ∧
    (0 < tagOff → (s.inp.length : Int) < tagOff + 16 →
      ∃ t, step s = .next t ∧ t.phase = .failed ∧ t.result = some (.error .outOfBounds)) ∧
    (0 < tagOff → tagOff + 16 ≤ s.inp.length →
      (nloopAt s.inp tagOff.toNat = 3 → step s = .next { s.headerLatched with
        scanEnd := min s.inp.length (valueAt s.inp 6 2 * 16), phase := .direct }) ∧
      (nloopAt s.inp tagOff.toNat = 4 → step s = .next { s.headerLatched with
        scanEnd := min s.inp.length (valueAt s.inp 6 2 * 16), phase := .clutLoad }) ∧
      (nloopAt s.inp tagOff.toNat ≠ 3 → nloopAt s.inp tagOff.toNat ≠ 4 → step s = .next { s.headerLatched with
        scanEnd := min s.inp.length (valueAt s.inp 6 2 * 16), phase := .done,
        result := some (.image
          { width := .ofNat 16 (valueAt s.inp 0 2), height := .ofNat 16 (valueAt s.inp 2 2), kind := .directColor,
            buffer := List.replicate (4 * (valueAt s.inp 0 2 * valueAt s.inp 2 2)) 0#8, palette := none }) }))

/-- RECORD_FLAT: the 256-entry palette at 20 and the indices at 1044, attached and not applied; the surface, the latches
and `RL` play no part. -/
def Obligations.FlatRecordGivesIndexedImage : Prop :=
  ∀ (hd : Header) (s : State),
    (1044 + s.width.toNat * s.height.toNat ≤ s.inp.length →
      ∃ pal, exec (.recordFlat hd) s = .next { s with
          pal := pal, phase := .done,
          result := some (.image
            { width := s.width, height := s.height, kind := .indexed8,
              buffer := bytesAt s.inp 1044 (s.width.toNat * s.height.toNat), palette := some pal }) } ∧
        exec (.opReadFlatPalette 20) s = .next { s with out := .palette pal } ∧ pal.length = 256) ∧
    (s.inp.length < 1044 + s.width.toNat * s.height.toNat →
      ∃ t, exec (.recordFlat hd) s = .next t ∧ t.phase = .failed ∧ t.result = some (.error .outOfBounds))

/-- RECORD_DIRECT: the `4 * W * H` bytes at `T + 80`, as stored; nothing but phase and result changes. -/
def Obligations.DirectRecordCopiesPixels : Prop :=
  ∀ (flg : BitVec 2) (r : TagRest) (s : State), 0 < s.tagOff.toInt →
    (s.tagOff.toNat + 80 + 4 * (s.width.toNat * s.height.toNat) ≤ s.inp.length →
      exec (.recordDirect flg r) s = .next { s with
        phase := .done,
        result := some (.image
          { width := s.width, height := s.height, kind := .directColor,
            buffer := bytesAt s.inp (s.tagOff.toNat + 80) (4 * (s.width.toNat * s.height.toNat)), palette := none }) }) ∧
    (s.inp.length < s.tagOff.toNat + 80 + 4 * (s.width.toNat * s.height.toNat) →
      ∃ t, exec (.recordDirect flg r) s = .next t ∧ t.phase = .failed ∧ t.result = some (.error .outOfBounds))

/-- RECORD_BLANK: a zero-filled DirectColor image of the declared size with no palette, and no error. -/
def Obligations.BlankRecordIsZeroFilled : Prop :=
  ∀ (n : BitVec 15) (flg : BitVec 2) (r : TagRest) (s : State),
    ∃ buf, exec (.recordBlank n flg r) s = .next { s with
        phase := .done,
        result := some (.image
          { width := s.width, height := s.height, kind := .directColor, buffer := buf, palette := none }) } ∧
      buf.length = 4 * (s.width.toNat * s.height.toNat) ∧ ∀ b, b ∈ buf → b = 0#8

/-- RECORD_INDEXED: the first batch's TRXREG declares the palette; without one, or with a count other than 16 and 256,
the image is blank; else the palette is read, unswizzled and stored, and the cursor follows the second tag's NLOOP. No
latch is written. -/
def Obligations.IndexedRecordLoadsPalette : Prop :=
  ∀ (flg : BitVec 2) (r : TagRest) (s : State), 0 < s.tagOff.toInt →
    (NoSlot s.inp (s.tagOff.toNat + 16) 4 s.inp.length 0x52 →
      exec (.recordIndexed flg r) s = exec (.recordBlank 0 flg r) s) ∧
    (∀ o, IsFirstSlot s.inp (s.tagOff.toNat + 16) 4 s.inp.length 0x52 o → ClutOutcome flg r s o)

/-- Where no instruction stands, the sequencer moves on by itself: past the last packet to the readback, from a finished
transfer back to the scan, and nowhere from a final phase without a request. That it rests in these phases is the model's
(log 14). -/
def Obligations.SequencerMovesWithoutInstruction : Prop :=
  ∀ s : State,
    (s.phase = .scanning → s.scanEnd < s.cur + 16 → step s = .next { s with phase := .readback }) ∧
    (s.phase = .transferring → step s = .next { s with phase := .scanning }) ∧
    (s.phase = .done ∨ s.phase = .failed → s.port = none → step s = .next s)

/-- GIFTAG_IMAGE: the payload, joined with that of one image packet that follows at once within END, is transferred by
palette size and format with the latches as they are, and the scan goes on behind it; a payload that leaves the record is
OutOfBounds. `Transfers` leaves open whether the machine rests once on the way back to the scan (it does, log 14). -/
def Obligations.ImagePacketTransfersPayload : Prop :=
  ∀ (n : BitVec 15) (r : TagRest) (s : State) (c2 n2 : Nat), s.scanEnd ≤ s.inp.length →
    c2 = s.cur + 16 + 16 * n.toNat → n2 = nloopAt s.inp c2 →
    (s.inp.length < c2 →
      ∃ t, exec (.giftagImage n r) s = .next t ∧ t.phase = .failed ∧ t.result = some (.error .outOfBounds)) ∧
    (c2 ≤ s.inp.length → s.scanEnd < c2 + 16 ∨ flgAt s.inp c2 ≠ 2 →
      Transfers (.giftagImage n r) s (s.afterTransfer (bytesAt s.inp (s.cur + 16) (16 * n.toNat)) c2)) ∧
    (c2 + 16 ≤ s.scanEnd → flgAt s.inp c2 = 2 → s.inp.length < c2 + 16 + 16 * n2 →
      ∃ t, exec (.giftagImage n r) s = .next t ∧ t.phase = .failed ∧ t.result = some (.error .outOfBounds)) ∧
    (c2 + 16 ≤ s.scanEnd → flgAt s.inp c2 = 2 → c2 + 16 + 16 * n2 ≤ s.inp.length →
      Transfers (.giftagImage n r) s (s.afterTransfer
        (bytesAt s.inp (s.cur + 16) (16 * n.toNat) ++ bytesAt s.inp (c2 + 16) (16 * n2)) (c2 + 16 + 16 * n2)))

/-- READBACK: every pixel of the `W × H` image gets the palette's color of its index; the rounding cannot be seen; the
logical palette is attached. Only phase, result and the nibble phase change (what the nibble phase holds is left open). -/
def Obligations.ReadbackColorsEveryPixel : Prop :=
  ∀ s : State, s.phase = .readback → s.pal.length = 16 ∨ s.pal.length = 256 →
    ∃ (buf : List Byte) (odd : Bool),
      step s = .next { s with
        odd := odd, phase := .done,
        result := some (.image
          { width := s.width, height := s.height, kind := .directColor, buffer := buf, palette := some s.pal }) } ∧
      buf.length = 4 * (s.width.toNat * s.height.toNat) ∧
      ∀ x y, x < s.width.toNat → y < s.height.toNat →
        ∃ c, s.pal[s.pixelIndex x y % s.pal.length]? = some c ∧
          buf.getD (4 * (y * s.width.toNat + x)) 0#8 = c.r ∧ buf.getD (4 * (y * s.width.toNat + x) + 1) 0#8 = c.g ∧
          buf.getD (4 * (y * s.width.toNat + x) + 2) 0#8 = c.b ∧ buf.getD (4 * (y * s.width.toNat + x) + 3) 0#8 = c.a

/-- Every transaction terminates, in `Done` with a sound image or in `Failed` with an error, whatever the state before it. -/
def Obligations.DecodeEndsWithImageOrError : Prop :=
  ∀ record : List Byte, ∃ t, (∀ s, exec (.opDecode record) s = .next t) ∧
    ((t.phase = .done ∧ ∃ img, t.result = some (.image img) ∧ img.Sound) ∨
      (t.phase = .failed ∧ ∃ k, t.result = some (.error k)))

/-- DECODE of a valid flat record, from any state: Indexed8, `W * H` indices from 1044 on, exactly 256 palette entries. -/
def Obligations.ValidFlatRecordDecodes : Prop :=
  ∀ (record : List Byte) (s : State) (w h : Nat), w = valueAt record 0 2 → h = valueAt record 2 2 → 0 < w → 0 < h →
    valueAt record 16 4 = 0 ∨ 2 ^ 31 ≤ valueAt record 16 4 → 1044 + w * h ≤ record.length →
    ∃ t img pal, exec (.opDecode record) s = .next t ∧ t.phase = .done ∧ t.result = some (.image img) ∧
      img.width.toNat = w ∧ img.height.toNat = h ∧ img.kind = .indexed8 ∧ img.buffer = bytesAt record 1044 (w * h) ∧
      img.buffer.length = w * h ∧ img.palette = some pal ∧ pal.length = 256

/-- DECODE of a record with `T > 0` that is not of the indexed class, from any state: the stored pixels for a first-tag
NLOOP of 3, `4 * W * H` zero bytes for one other than 3 and 4, DirectColor without a palette. -/
def Obligations.DirectAndBlankRecordsDecode : Prop :=
  ∀ (record : List Byte) (s : State) (w h tagOff : Nat), w = valueAt record 0 2 → h = valueAt record 2 2 → 0 < w → 0 < h →
    tagOff = valueAt record 16 4 → 0 < tagOff → tagOff < 2 ^ 31 → 20 ≤ record.length → tagOff + 16 ≤ record.length →
    (nloopAt record tagOff = 3 → tagOff + 80 + 4 * (w * h) ≤ record.length →
      ∃ t, exec (.opDecode record) s = .next t ∧ t.phase = .done ∧ t.result = some (.image
        { width := .ofNat 16 w, height := .ofNat 16 h, kind := .directColor,
          buffer := bytesAt record (tagOff + 80) (4 * (w * h)), palette := none })) ∧
    (nloopAt record tagOff ≠ 3 → nloopAt record tagOff ≠ 4 →
      ∃ t, exec (.opDecode record) s = .next t ∧ t.phase = .done ∧ t.result = some (.image
        { width := .ofNat 16 w, height := .ofNat 16 h, kind := .directColor,
          buffer := List.replicate (4 * (w * h)) 0#8, palette := none }))

/-- The one atomic DECODE is the machine's own run, step by step, from reset with the record as `In`. What one step is, and
so the count of steps, is the model's choice (log 14). -/
def Obligations.DecodeIsTheSteppedRun : Prop :=
  ∀ (record : List Byte) (s : State),
    exec (.opDecode record) s =
      Host.Core.run Sys2Proof.core (2 * (record.length / 16) + 4) { State.reset with inp := record }

/-- In a run, a packet of the scan fails only when an image payload leaves the record: its own, or that of the image packet
that follows at once within END and is joined to it. -/
def Obligations.ScanFailsOnlyOnImagePayload : Prop :=
  ∀ (s t : State) (c2 : Nat), s.Inv → s.phase = .scanning → step s = .next t → t.phase = .failed →
    c2 = s.cur + 16 + 16 * nloopAt s.inp s.cur →
    t.result = some (.error .outOfBounds) ∧ s.cur + 16 ≤ s.scanEnd ∧ flgAt s.inp s.cur = 2 ∧
      (s.inp.length < c2 ∨
        (c2 + 16 ≤ s.scanEnd ∧ flgAt s.inp c2 = 2 ∧ s.inp.length < c2 + 16 + 16 * nloopAt s.inp c2))

/-- The cursor only moves forward, and by the packet's whole length over a packet, unless a new transaction is started after
the end of the last one. -/
def Obligations.CursorOnlyMovesForward : Prop :=
  ∀ s t : State, s.Inv → ((s.phase = .done ∨ s.phase = .failed) → ∀ r, s.port = some r → r.isDecode = false) →
    step s = .next t → t.phase ≠ .failed →
    s.cur ≤ t.cur ∧
      (s.phase = .scanning → s.cur + 16 ≤ s.scanEnd → s.cur + 16 + 16 * nloopAt s.inp s.cur ≤ t.cur)

/-! ### Errors and reset (60_exceptions.md, 70_reset_and_hazards.md) -/

/-- An error discards the transaction: what is left is the reset state with the record, phase `Failed`, the error and
diagnostic data; no surface write, latch, palette or image survives. So for a step of a running transaction, for every
instruction but DECODE (which runs a transaction of its own), and in every phase for the operations whose read leaves the
record. What a discarded register shows is the model's choice (log 5). That FIND_REG raises, with a bound past the record,
is the model's reading (log 12), and so is that READ_PALETTE does for no entries past the record (log 18). -/
def Obligations.ErrorDiscardsTransaction : Prop :=
  ∀ s : State,
    (∀ t, s.phase ≠ .done → s.phase ≠ .failed → step s = .next t → t.phase = .failed → ∃ k d, t = s.discarded k d) ∧
    (∀ i t, (∀ record, i ≠ .opDecode record) → s.phase ≠ .failed → exec i s = .next t → t.phase = .failed →
      ∃ k d, t = s.discarded k d) ∧
    (∀ a, s.inp.length < a + 16 → ∃ d, exec (.opParseTag a) s = .next (s.discarded .outOfBounds d)) ∧
    (∀ start count id bound, 0 < count → start + 16 ≤ bound → s.inp.length < start + 16 →
      ∃ d, exec (.opFindReg start count id bound) s = .next (s.discarded .outOfBounds d)) ∧
    (∀ p w h, s.inp.length < p + 4 * (w * h) →
      ∃ d, exec (.opReadPalette p w h) s = .next (s.discarded .outOfBounds d)) ∧
    (∀ p, s.inp.length < p + 1024 → ∃ d, exec (.opReadFlatPalette p) s = .next (s.discarded .outOfBounds d))

/-- Reset leaves every field at the rule's value; every surface byte reads 0. -/
def Obligations.ResetLeavesRuleValues : Prop :=
  ∃ s : State, s = State.reset ∧ s.cur = 0 ∧ s.scanEnd = 0 ∧ s.width = 0 ∧ s.height = 0 ∧ s.recLen = 0 ∧ s.tagOff = 0 ∧
    s.phase = .header ∧ s.bitbltbuf.dbp = 0 ∧ s.bitbltbuf.dbw = 0 ∧ s.bitbltbuf.dpsm = 0 ∧ s.trxpos.dsax = 0 ∧
    s.trxpos.dsay = 0 ∧ s.trxreg.rrw = 0 ∧ s.trxreg.rrh = 0 ∧ (∀ a, memRead s.surface a = 0#8) ∧ s.pal.length = 0 ∧
    s.surfaceUsed = false ∧ s.lb = [] ∧ s.odd = false ∧ s.result = none

/-! ### Invariants of the machine -/

/-- Every instruction keeps the surface in its canonical form, inside SURFACE_BYTES. -/
def Obligations.InstructionsKeepSurfaceCanonical : Prop :=
  ∀ (i : Instr) (s t : State), Memory.wf s.surface → exec i s = .next t → Memory.wf t.surface

/-- Every step keeps the invariant, from every state that has it. -/
def Obligations.StepKeepsInvariant : Prop :=
  ∀ s t : State, s.Inv → step s = .next t → t.Inv

/-- The reset state has the invariant. -/
def Obligations.ResetMeetsInvariant : Prop := State.reset.Inv
end

