-- ==== Sys2Proof/Laws/Input.lean ====
section
/-! SUPPORT. What the input reads, the tag parser and the slot search answer, each said once. -/

namespace Sys2Proof.Machine

/-! ### Input reads -/

theorem bytesAt_length {inp : List Byte} {a n : Nat} (h : a + n ≤ inp.length) : (bytesAt inp a n).length = n := by
  simp only [bytesAt, List.length_take, List.length_drop]; omega

theorem inBytes_of_le {inp : List Byte} {a n : Nat} (h : a + n ≤ inp.length) :
    inBytes inp a n = .ok (bytesAt inp a n) := by
  simp [inBytes, bytesAt, Nat.not_lt.2 h]

theorem inBytes_of_lt {inp : List Byte} {a n : Nat} (h : inp.length < a + n) :
    inBytes inp a n = .error (.outOfBounds a n) := by
  simp [inBytes, h]

theorem inBytes_ok {inp : List Byte} {a n : Nat} {bs : List Byte} (h : inBytes inp a n = .ok bs) :
    a + n ≤ inp.length ∧ bs = bytesAt inp a n := by
  unfold inBytes at h
  split at h
  · cases h
  · cases h; exact ⟨by omega, rfl⟩

theorem inBytes_error {inp : List Byte} {a n : Nat} {e : Raise} (h : inBytes inp a n = .error e) :
    inp.length < a + n ∧ e = .outOfBounds a n := by
  unfold inBytes at h
  split at h
  · cases h; exact ⟨by assumption, rfl⟩
  · cases h

/-- The value of a byte string is R32's sum over its bytes. -/
theorem leNat_eq_sum (bs : List Byte) :
    leNat bs = ((List.range bs.length).map fun k => 2 ^ (8 * k) * (bs.getD k 0#8).toNat).sum := by
  induction bs with
  | nil => rfl
  | cons b bs ih =>
    rw [leNat, ih, List.length_cons, List.range_succ_eq_map, List.map_cons, List.map_map, List.sum_cons,
      ← List.sum_map_mul_left]
    simp only [List.getD_cons_zero, Nat.mul_zero, pow_zero, Nat.one_mul, Function.comp_def, List.getD_cons_succ]
    refine congrArg (b.toNat + List.sum ·) (List.map_congr_left fun k _ => ?_)
    rw [Nat.succ_eq_add_one, Nat.mul_add, pow_add]
    ring

theorem leNat_bytesAt {inp : List Byte} {a n : Nat} (h : a + n ≤ inp.length) :
    leNat (bytesAt inp a n) = valueAt inp a n := by
  rw [leNat_eq_sum, bytesAt_length h, valueAt]
  congr 1
  refine List.map_congr_left fun k hk => ?_
  have hk : k < n := List.mem_range.1 hk
  have : (bytesAt inp a n).getD k 0#8 = inp.getD (a + k) 0#8 := by
    simp [bytesAt, List.getD_eq_getElem?_getD, hk]
  rw [this]

theorem leNat_lt (bs : List Byte) : leNat bs < 2 ^ (8 * bs.length) := by
  induction bs with
  | nil => simp [leNat]
  | cons b bs ih =>
    have := b.isLt
    have h8 : 2 ^ (8 * (b :: bs).length) = 256 * 2 ^ (8 * bs.length) := by
      rw [List.length_cons, Nat.mul_add, pow_add]; ring
    rw [leNat, h8]
    omega

theorem valueAt_lt {inp : List Byte} {a n : Nat} (h : a + n ≤ inp.length) : valueAt inp a n < 2 ^ (8 * n) := by
  have := leNat_lt (bytesAt inp a n)
  rwa [leNat_bytesAt h, bytesAt_length h] at this

/-- An 8-byte value fits a quad. -/
theorem valueAt_eight_lt {inp : List Byte} {a : Nat} (h : a + 8 ≤ inp.length) : valueAt inp a 8 < 2 ^ 64 := valueAt_lt h

theorem inRead_of_le {inp : List Byte} {a n : Nat} (h : a + n ≤ inp.length) :
    inRead inp a n = .ok (valueAt inp a n) := by
  rw [inRead, inBytes_of_le h, ← leNat_bytesAt h]

theorem inRead_of_lt {inp : List Byte} {a n : Nat} (h : inp.length < a + n) :
    inRead inp a n = .error (.outOfBounds a n) := by
  rw [inRead, inBytes_of_lt h]

theorem inQuad_of_le {inp : List Byte} {a : Nat} (h : a + 8 ≤ inp.length) :
    inQuad inp a = .ok (BitVec.ofNat 64 (valueAt inp a 8)) := by
  rw [inQuad, inRead_of_le h]

theorem inQuad_of_lt {inp : List Byte} {a : Nat} (h : inp.length < a + 8) :
    inQuad inp a = .error (.outOfBounds a 8) := by
  rw [inQuad, inRead_of_lt h]

/-! ### Tags -/

/-- Both halves of the tag at `a`. -/
def quadsAt (inp : List Byte) (a : Nat) : Quad × Quad :=
  (BitVec.ofNat 64 (valueAt inp a 8), BitVec.ofNat 64 (valueAt inp (a + 8) 8))

theorem fetchTag_of_le {inp : List Byte} {a : Nat} (h : a + 16 ≤ inp.length) :
    fetchTag inp a = .ok (quadsAt inp a) := by
  rw [fetchTag, inQuad_of_le (by omega), inQuad_of_le (by omega)]
  rfl

theorem fetchTag_of_lt {inp : List Byte} {a : Nat} (h : inp.length < a + 16) :
    ∃ x, fetchTag inp a = .error (.outOfBounds x 8) := by
  by_cases h8 : a + 8 ≤ inp.length
  · exact ⟨a + 8, by rw [fetchTag, inQuad_of_le h8, inQuad_of_lt (by omega)]⟩
  · exact ⟨a, by rw [fetchTag, inQuad_of_lt (by omega)]⟩

theorem fetchTag_ok {inp : List Byte} {a : Nat} {q : Quad × Quad} (h : fetchTag inp a = .ok q) :
    a + 16 ≤ inp.length ∧ q = quadsAt inp a := by
  by_cases hle : a + 16 ≤ inp.length
  · rw [fetchTag_of_le hle] at h; cases h; exact ⟨hle, rfl⟩
  · obtain ⟨x, hx⟩ := fetchTag_of_lt (Nat.lt_of_not_le hle)
    rw [hx] at h; cases h

theorem fetchTag_error {inp : List Byte} {a : Nat} {e : Raise} (h : fetchTag inp a = .error e) :
    inp.length < a + 16 ∧ e.kind = .outOfBounds := by
  by_cases hle : a + 16 ≤ inp.length
  · rw [fetchTag_of_le hle] at h; cases h
  · obtain ⟨x, hx⟩ := fetchTag_of_lt (Nat.lt_of_not_le hle)
    rw [hx] at h; cases h; exact ⟨by omega, rfl⟩

theorem parseTag_of_le {inp : List Byte} {a : Nat} (h : a + 16 ≤ inp.length) :
    parseTag inp a = .ok (tagDescriptor (quadsAt inp a).1) := by
  rw [parseTag, fetchTag_of_le h]

theorem parseTag_of_lt {inp : List Byte} {a : Nat} (h : inp.length < a + 16) :
    ∃ x, parseTag inp a = .error (.outOfBounds x 8) := by
  obtain ⟨x, hx⟩ := fetchTag_of_lt h
  exact ⟨x, by rw [parseTag, hx]⟩

theorem parseTag_error {inp : List Byte} {a : Nat} {e : Raise} (h : parseTag inp a = .error e) :
    inp.length < a + 16 ∧ e.kind = .outOfBounds := by
  by_cases hle : a + 16 ≤ inp.length
  · rw [parseTag_of_le hle] at h; cases h
  · obtain ⟨x, hx⟩ := parseTag_of_lt (Nat.lt_of_not_le hle)
    rw [hx] at h; cases h; exact ⟨by omega, rfl⟩

/-- The fields of the descriptor, in the arithmetic of 30_encoding.md R54. -/
theorem tagNloop_ofNat (x : Nat) : (tagNloop (BitVec.ofNat 64 x)).toNat = x % 2 ^ 15 := by
  simp only [tagNloop, BitVec.extractLsb'_toNat, BitVec.toNat_ofNat, Nat.shiftRight_zero]
  omega

theorem tagFlg_ofNat (x : Nat) : (tagFlg (BitVec.ofNat 64 x)).toNat = x / 2 ^ 58 % 4 := by
  simp only [tagFlg, BitVec.extractLsb'_toNat, BitVec.toNat_ofNat, Nat.shiftRight_eq_div_pow]
  omega

theorem tagEop_ofNat (x : Nat) : (tagEop (BitVec.ofNat 64 x)).toNat = x / 2 ^ 15 % 2 := by
  simp only [tagEop, BitVec.extractLsb'_toNat, BitVec.toNat_ofNat, Nat.shiftRight_eq_div_pow]
  omega

theorem tagNloop_toNat (inp : List Byte) (a : Nat) : (tagNloop (quadsAt inp a).1).toNat = nloopAt inp a :=
  tagNloop_ofNat _

theorem tagFlg_toNat (inp : List Byte) (a : Nat) : (tagFlg (quadsAt inp a).1).toNat = flgAt inp a :=
  tagFlg_ofNat _

theorem tagEop_toNat (inp : List Byte) (a : Nat) : (tagEop (quadsAt inp a).1).toNat = eopAt inp a :=
  tagEop_ofNat _

/-! ### Slots -/

theorem slotMatches_iff {inp : List Byte} {slot : Nat} (h : slot + 16 ≤ inp.length) (id : Quad) :
    BitVec.ofNat 64 (valueAt inp (slot + 8) 8) = id ↔ SlotMatches inp slot id := by
  have hlt := valueAt_eight_lt (inp := inp) (a := slot + 8) (by omega)
  unfold SlotMatches
  generalize valueAt inp (slot + 8) 8 = x at hlt ⊢
  rw [← BitVec.toNat_inj, BitVec.toNat_ofNat, Nat.mod_eq_of_lt hlt]

/-- What FIND_REG answers when the bound lies in the record: the first matching slot, or 0. -/
theorem findReg_spec {inp : List Byte} {id : Quad} {bound : Nat} (hb : bound ≤ inp.length) (count start : Nat) :
    ∃ o, findReg inp id bound count start = .ok o ∧
      (IsFirstSlot inp start count bound id o ∨ (o = 0 ∧ NoSlot inp start count bound id)) := by
  induction count generalizing start with
  | zero => exact ⟨0, rfl, Or.inr ⟨rfl, fun k hk => absurd hk (Nat.not_lt_zero k)⟩⟩
  | succ n ih =>
    rw [findReg]
    by_cases hfit : bound < start + 16
    · rw [if_pos hfit]
      exact ⟨0, rfl, Or.inr ⟨rfl, fun k _ hk => by omega⟩⟩
    · rw [if_neg hfit, inQuad_of_le (by omega)]
      have hiff := slotMatches_iff (show start + 16 ≤ inp.length by omega) id
      by_cases hm : SlotMatches inp start id
      · simp only [hiff.2 hm, if_true]
        exact ⟨start, rfl, Or.inl ⟨0, by omega, by omega, by omega, hm, fun j hj => absurd hj (Nat.not_lt_zero j)⟩⟩
      · simp only [mt hiff.1 hm, if_false]
        obtain ⟨o, ho, h⟩ := ih (start + 16)
        refine ⟨o, ho, h.imp ?_ ?_⟩
        · rintro ⟨k, hk, rfl, hbk, hmk, hfirst⟩
          refine ⟨k + 1, by omega, by omega, hbk, hmk, fun j hj => ?_⟩
          cases j with
          | zero => simpa using hm
          | succ j => have := hfirst j (by omega); rwa [show start + 16 * (j + 1) = start + 16 + 16 * j by omega]
        · rintro ⟨rfl, hno⟩
          refine ⟨rfl, fun k hk hbk => ?_⟩
          cases k with
          | zero => simpa using hm
          | succ k =>
            have := hno k (by omega) (by omega)
            rwa [show start + 16 * (k + 1) = start + 16 + 16 * k by omega]

/-- What the lookup of a register answers in a batch whose bound lies in the record. -/
theorem lookupReg_spec {inp : List Byte} {id : Quad} {bound : Nat} (hb : bound ≤ inp.length) (count : Nat) {start : Nat}
    (hs : 0 < start) :
    (∃ o, IsFirstSlot inp start count bound id o ∧
        lookupReg inp start count id bound = .ok (some (BitVec.ofNat 64 (valueAt inp o 8)))) ∨
      (NoSlot inp start count bound id ∧ lookupReg inp start count id bound = .ok none) := by
  obtain ⟨o, ho, h | ⟨rfl, h⟩⟩ := findReg_spec (id := id) hb count start
  · refine Or.inl ⟨o, h, ?_⟩
    obtain ⟨k, _, rfl, hbk, _⟩ := h
    rw [lookupReg, ho]
    simp only [show start + 16 * k ≠ 0 by omega, if_false]
    rw [inQuad_of_le (by omega)]
  · exact Or.inr ⟨h, by rw [lookupReg, ho]; simp⟩

end Sys2Proof.Machine
end

