-- ==== Sys2Proof/Laws/Memory.lean ====
section
/-! SUPPORT. The surface: reads after writes, and every write keeps the canonical form. -/

namespace Sys2Proof.Machine

theorem Memory.wf_nil : Memory.wf [] := ⟨List.Pairwise.nil, by simp⟩

/-- A key below every listed address is not listed. -/
theorem Memory.get_eq_zero_of_lt {m : Memory} {a : Nat} (h : ∀ c ∈ m, a < c.1) : Memory.get m a = 0#8 := by
  induction m with
  | nil => rfl
  | cons c m ih =>
    obtain ⟨k, b⟩ := c
    have hk : a < k := h (k, b) (by simp)
    have hne : k ≠ a := by omega
    simp only [Memory.get, hne, if_false]
    exact ih fun c hc => h c (by simp [hc])

/-- Writing one byte leaves every other byte alone, in any list. -/
theorem Memory.get_set_ne (m : Memory) {a a' : Nat} (b : Byte) (h : a' ≠ a) :
    Memory.get (Memory.set m a b) a' = Memory.get m a' := by
  have h' : a ≠ a' := Ne.symm h
  induction m with
  | nil => by_cases hb : b = 0#8 <;> simp [Memory.set, Memory.get, hb, h']
  | cons c m ih =>
    obtain ⟨k, c⟩ := c
    simp only [Memory.set]
    by_cases hlt : a < k
    · by_cases hb : b = 0#8 <;> simp [hlt, hb, Memory.get, h']
    · by_cases heq : a = k
      · subst heq
        by_cases hb : b = 0#8 <;> simp [hb, Memory.get, h']
      · simp only [hlt, heq, if_false, Memory.get, ih]

/-- Reading back the byte just written, in a canonical memory. -/
theorem Memory.get_set_self {m : Memory} (hm : Memory.wf m) (a : Nat) (b : Byte) :
    Memory.get (Memory.set m a b) a = b := by
  have hs := hm.1
  clear hm
  induction m with
  | nil => by_cases hb : b = 0#8 <;> simp [Memory.set, Memory.get, hb]
  | cons c m ih =>
    obtain ⟨k, c⟩ := c
    rw [List.pairwise_cons] at hs
    obtain ⟨hk, hs⟩ := hs
    simp only [Memory.set]
    by_cases hlt : a < k
    · by_cases hb : b = 0#8
      · have hne : k ≠ a := by omega
        simp only [hlt, hb, if_true, Memory.get, hne, if_false]
        exact Memory.get_eq_zero_of_lt fun c hc => lt_trans hlt (hk c hc)
      · simp [hlt, hb, Memory.get]
    · by_cases heq : a = k
      · subst heq
        by_cases hb : b = 0#8
        · simp only [lt_irrefl, if_false, if_true, hb]
          exact Memory.get_eq_zero_of_lt hk
        · simp [hb, Memory.get]
      · have hne : k ≠ a := Ne.symm heq
        simp only [hlt, heq, if_false, Memory.get, hne]
        exact ih hs

/-- The addresses listed after a write: the written one, and those listed before. -/
theorem Memory.mem_set {m : Memory} {a : Nat} {b : Byte} {c : Host.Cell} (h : c ∈ Memory.set m a b) :
    (c.1 = a ∧ c.2 = b ∧ b ≠ 0#8) ∨ c ∈ m := by
  induction m with
  | nil =>
    simp only [Memory.set] at h
    split at h
    · cases h
    · rename_i hb
      obtain rfl := List.mem_singleton.1 h
      exact Or.inl ⟨rfl, rfl, hb⟩
  | cons d m ih =>
    obtain ⟨k, d⟩ := d
    simp only [Memory.set] at h
    split at h
    · split at h
      · exact Or.inr h
      · rename_i hb
        rcases List.mem_cons.1 h with rfl | h
        · exact Or.inl ⟨rfl, rfl, hb⟩
        · exact Or.inr h
    · split at h
      · split at h
        · exact Or.inr (List.mem_cons_of_mem _ h)
        · rename_i hb
          rcases List.mem_cons.1 h with rfl | h
          · exact Or.inl ⟨rfl, rfl, hb⟩
          · exact Or.inr (List.mem_cons_of_mem _ h)
      · rcases List.mem_cons.1 h with rfl | h
        · exact Or.inr (List.mem_cons_self ..)
        · exact (ih h).imp id (List.mem_cons_of_mem _)

/-- A write inside the surface keeps the canonical form. -/
theorem Memory.wf_set {m : Memory} (hm : Memory.wf m) {a : Nat} (ha : a < surfaceBytes) (b : Byte) :
    Memory.wf (Memory.set m a b) := by
  refine ⟨?_, ?_⟩
  · have hs := hm.1
    clear hm
    induction m with
    | nil => by_cases hb : b = 0#8 <;> simp [Memory.set, hb]
    | cons c m ih =>
      obtain ⟨k, c⟩ := c
      obtain ⟨hk, hs'⟩ := List.pairwise_cons.1 hs
      simp only [Memory.set]
      split
      · rename_i hlt
        split
        · exact hs
        · refine List.pairwise_cons.2 ⟨fun d hd => ?_, hs⟩
          rcases List.mem_cons.1 hd with rfl | hd
          · exact hlt
          · exact lt_trans hlt (hk d hd)
      · split
        · rename_i heq
          subst heq
          split
          · exact hs'
          · exact List.pairwise_cons.2 ⟨hk, hs'⟩
        · refine List.pairwise_cons.2 ⟨fun d hd => ?_, ih hs'⟩
          rcases Memory.mem_set hd with ⟨h1, _, _⟩ | hd
          · simp only [h1]; omega
          · exact hk d hd
  · intro c hc
    rcases Memory.mem_set hc with ⟨h1, h2, h3⟩ | hc
    · exact ⟨h1 ▸ ha, h2 ▸ h3⟩
    · exact hm.2 c hc

/-- `MemWrite` keeps the canonical form, whether it writes or is clipped. -/
theorem memWrite4_wf {m : Memory} (hm : Memory.wf m) (a : Nat) (b0 b1 b2 b3 : Byte) :
    Memory.wf (memWrite4 m a b0 b1 b2 b3) := by
  unfold memWrite4
  split
  · exact hm
  · exact Memory.wf_set (Memory.wf_set (Memory.wf_set (Memory.wf_set hm (by omega) _) (by omega) _) (by omega) _)
      (by omega) _

/-- `MemWrite` leaves every byte outside its four alone. -/
theorem memRead_memWrite4_outside (m : Memory) {a x : Nat} (b0 b1 b2 b3 : Byte) (h : x < a ∨ a + 4 ≤ x) :
    memRead (memWrite4 m a b0 b1 b2 b3) x = memRead m x := by
  unfold memRead memWrite4
  split
  · split
    · rfl
    · repeat rw [Memory.get_set_ne _ _ (by omega)]
  · rfl

/-- The word just written, read back, when it lies inside the surface. -/
theorem memRead4_memWrite4 {m : Memory} (hm : Memory.wf m) {a : Nat} (b0 b1 b2 b3 : Byte) (h : a + 4 ≤ surfaceBytes) :
    memRead4 (memWrite4 m a b0 b1 b2 b3) a = [b0, b1, b2, b3] := by
  have hn : ¬ surfaceBytes < a + 4 := by omega
  have w0 := Memory.wf_set hm (a := a) (by omega) b0
  have w1 := Memory.wf_set w0 (a := a + 1) (by omega) b1
  have w2 := Memory.wf_set w1 (a := a + 2) (by omega) b2
  have i0 : a < surfaceBytes := by omega
  have i1 : a + 1 < surfaceBytes := by omega
  have i2 : a + 2 < surfaceBytes := by omega
  have i3 : a + 3 < surfaceBytes := by omega
  simp only [memRead4, memRead, memWrite4, hn, if_false, i0, i1, i2, i3, if_true]
  rw [Memory.get_set_self w2]
  rw [Memory.get_set_ne _ _ (show a ≠ a + 3 by omega), Memory.get_set_ne _ _ (show a ≠ a + 2 by omega),
    Memory.get_set_ne _ _ (show a ≠ a + 1 by omega), Memory.get_set_self hm]
  rw [Memory.get_set_ne _ _ (show a + 1 ≠ a + 3 by omega), Memory.get_set_ne _ _ (show a + 1 ≠ a + 2 by omega),
    Memory.get_set_self w0]
  rw [Memory.get_set_ne _ _ (show a + 2 ≠ a + 3 by omega), Memory.get_set_self w1]

/-- A transfer keeps the canonical form. -/
theorem scatter_wf {unit dbp dbw x0 y0 w count k : Nat} {src : List Byte} {m : Memory} (hm : Memory.wf m) :
    Memory.wf (scatter unit dbp dbw x0 y0 w count k src m) := by
  fun_induction scatter unit dbp dbw x0 y0 w count k src m with
  | case1 k b0 b1 b2 b3 rest m hk ih => exact ih (memWrite4_wf hm _ _ _ _ _)
  | case2 => exact hm
  | case3 => exact hm

theorem writePsmct32_wf {unit dbp dbw dsax dsay rrw rrh : Nat} {src : List Byte} {m : Memory} (hm : Memory.wf m) :
    Memory.wf (writePsmct32 unit dbp dbw dsax dsay rrw rrh src m) := scatter_wf hm

theorem reset_surface_wf : Memory.wf State.reset.surface := Memory.wf_nil

end Sys2Proof.Machine
end

