-- ==== Sys2Proof/Laws/State.lean ====
section
/-! SUPPORT. What each named update of State leaves in each field; all true by unfolding. -/

namespace Sys2Proof.Machine

/-! ### raise -/

@[simp] theorem State.raise_inp (e : Raise) (s : State) : (s.raise e).inp = s.inp := rfl
@[simp] theorem State.raise_cur (e : Raise) (s : State) : (s.raise e).cur = 0 := rfl
@[simp] theorem State.raise_scanEnd (e : Raise) (s : State) : (s.raise e).scanEnd = 0 := rfl
@[simp] theorem State.raise_width (e : Raise) (s : State) : (s.raise e).width = State.reset.width := rfl
@[simp] theorem State.raise_height (e : Raise) (s : State) : (s.raise e).height = State.reset.height := rfl
@[simp] theorem State.raise_recLen (e : Raise) (s : State) : (s.raise e).recLen = State.reset.recLen := rfl
@[simp] theorem State.raise_tagOff (e : Raise) (s : State) : (s.raise e).tagOff = State.reset.tagOff := rfl
@[simp] theorem State.raise_phase (e : Raise) (s : State) : (s.raise e).phase = .failed := rfl
@[simp] theorem State.raise_bitbltbuf (e : Raise) (s : State) : (s.raise e).bitbltbuf = State.reset.bitbltbuf := rfl
@[simp] theorem State.raise_trxpos (e : Raise) (s : State) : (s.raise e).trxpos = State.reset.trxpos := rfl
@[simp] theorem State.raise_trxreg (e : Raise) (s : State) : (s.raise e).trxreg = State.reset.trxreg := rfl
@[simp] theorem State.raise_surface (e : Raise) (s : State) : (s.raise e).surface = [] := rfl
@[simp] theorem State.raise_pal (e : Raise) (s : State) : (s.raise e).pal = [] := rfl
@[simp] theorem State.raise_surfaceUsed (e : Raise) (s : State) : (s.raise e).surfaceUsed = State.reset.surfaceUsed := rfl
@[simp] theorem State.raise_lb (e : Raise) (s : State) : (s.raise e).lb = [] := rfl
@[simp] theorem State.raise_odd (e : Raise) (s : State) : (s.raise e).odd = State.reset.odd := rfl
@[simp] theorem State.raise_result (e : Raise) (s : State) : (s.raise e).result = some (.error e.kind) := rfl
@[simp] theorem State.raise_diag (e : Raise) (s : State) : (s.raise e).diag = e.diag := rfl
@[simp] theorem State.raise_port (e : Raise) (s : State) : (s.raise e).port = s.port := rfl
@[simp] theorem State.raise_out (e : Raise) (s : State) : (s.raise e).out = State.reset.out := rfl

/-! ### finish -/

@[simp] theorem State.finish_inp (img : RasterImage) (s : State) : (s.finish img).inp = s.inp := rfl
@[simp] theorem State.finish_cur (img : RasterImage) (s : State) : (s.finish img).cur = s.cur := rfl
@[simp] theorem State.finish_scanEnd (img : RasterImage) (s : State) : (s.finish img).scanEnd = s.scanEnd := rfl
@[simp] theorem State.finish_width (img : RasterImage) (s : State) : (s.finish img).width = s.width := rfl
@[simp] theorem State.finish_height (img : RasterImage) (s : State) : (s.finish img).height = s.height := rfl
@[simp] theorem State.finish_recLen (img : RasterImage) (s : State) : (s.finish img).recLen = s.recLen := rfl
@[simp] theorem State.finish_tagOff (img : RasterImage) (s : State) : (s.finish img).tagOff = s.tagOff := rfl
@[simp] theorem State.finish_phase (img : RasterImage) (s : State) : (s.finish img).phase = .done := rfl
@[simp] theorem State.finish_bitbltbuf (img : RasterImage) (s : State) : (s.finish img).bitbltbuf = s.bitbltbuf := rfl
@[simp] theorem State.finish_trxpos (img : RasterImage) (s : State) : (s.finish img).trxpos = s.trxpos := rfl
@[simp] theorem State.finish_trxreg (img : RasterImage) (s : State) : (s.finish img).trxreg = s.trxreg := rfl
@[simp] theorem State.finish_surface (img : RasterImage) (s : State) : (s.finish img).surface = s.surface := rfl
@[simp] theorem State.finish_pal (img : RasterImage) (s : State) : (s.finish img).pal = s.pal := rfl
@[simp] theorem State.finish_surfaceUsed (img : RasterImage) (s : State) : (s.finish img).surfaceUsed = s.surfaceUsed := rfl
@[simp] theorem State.finish_lb (img : RasterImage) (s : State) : (s.finish img).lb = s.lb := rfl
@[simp] theorem State.finish_odd (img : RasterImage) (s : State) : (s.finish img).odd = s.odd := rfl
@[simp] theorem State.finish_result (img : RasterImage) (s : State) : (s.finish img).result = some (.image img) := rfl
@[simp] theorem State.finish_diag (img : RasterImage) (s : State) : (s.finish img).diag = s.diag := rfl
@[simp] theorem State.finish_port (img : RasterImage) (s : State) : (s.finish img).port = s.port := rfl
@[simp] theorem State.finish_out (img : RasterImage) (s : State) : (s.finish img).out = s.out := rfl

/-! ### consume -/

@[simp] theorem State.consume_inp (s : State) : (s.consume).inp = s.inp := rfl
@[simp] theorem State.consume_cur (s : State) : (s.consume).cur = s.cur := rfl
@[simp] theorem State.consume_scanEnd (s : State) : (s.consume).scanEnd = s.scanEnd := rfl
@[simp] theorem State.consume_width (s : State) : (s.consume).width = s.width := rfl
@[simp] theorem State.consume_height (s : State) : (s.consume).height = s.height := rfl
@[simp] theorem State.consume_recLen (s : State) : (s.consume).recLen = s.recLen := rfl
@[simp] theorem State.consume_tagOff (s : State) : (s.consume).tagOff = s.tagOff := rfl
@[simp] theorem State.consume_phase (s : State) : (s.consume).phase = s.phase := rfl
@[simp] theorem State.consume_bitbltbuf (s : State) : (s.consume).bitbltbuf = s.bitbltbuf := rfl
@[simp] theorem State.consume_trxpos (s : State) : (s.consume).trxpos = s.trxpos := rfl
@[simp] theorem State.consume_trxreg (s : State) : (s.consume).trxreg = s.trxreg := rfl
@[simp] theorem State.consume_surface (s : State) : (s.consume).surface = s.surface := rfl
@[simp] theorem State.consume_pal (s : State) : (s.consume).pal = s.pal := rfl
@[simp] theorem State.consume_surfaceUsed (s : State) : (s.consume).surfaceUsed = s.surfaceUsed := rfl
@[simp] theorem State.consume_lb (s : State) : (s.consume).lb = s.lb := rfl
@[simp] theorem State.consume_odd (s : State) : (s.consume).odd = s.odd := rfl
@[simp] theorem State.consume_result (s : State) : (s.consume).result = s.result := rfl
@[simp] theorem State.consume_diag (s : State) : (s.consume).diag = s.diag := rfl
@[simp] theorem State.consume_port (s : State) : (s.consume).port = none := rfl
@[simp] theorem State.consume_out (s : State) : (s.consume).out = s.out := rfl

/-! ### load -/

@[simp] theorem State.load_inp (record : List Byte) : (State.load record).inp = record := rfl
@[simp] theorem State.load_cur (record : List Byte) : (State.load record).cur = 0 := rfl
@[simp] theorem State.load_scanEnd (record : List Byte) : (State.load record).scanEnd = 0 := rfl
@[simp] theorem State.load_width (record : List Byte) : (State.load record).width = State.reset.width := rfl
@[simp] theorem State.load_height (record : List Byte) : (State.load record).height = State.reset.height := rfl
@[simp] theorem State.load_recLen (record : List Byte) : (State.load record).recLen = State.reset.recLen := rfl
@[simp] theorem State.load_tagOff (record : List Byte) : (State.load record).tagOff = State.reset.tagOff := rfl
@[simp] theorem State.load_phase (record : List Byte) : (State.load record).phase = .header := rfl
@[simp] theorem State.load_bitbltbuf (record : List Byte) : (State.load record).bitbltbuf = State.reset.bitbltbuf := rfl
@[simp] theorem State.load_trxpos (record : List Byte) : (State.load record).trxpos = State.reset.trxpos := rfl
@[simp] theorem State.load_trxreg (record : List Byte) : (State.load record).trxreg = State.reset.trxreg := rfl
@[simp] theorem State.load_surface (record : List Byte) : (State.load record).surface = [] := rfl
@[simp] theorem State.load_pal (record : List Byte) : (State.load record).pal = [] := rfl
@[simp] theorem State.load_surfaceUsed (record : List Byte) : (State.load record).surfaceUsed = State.reset.surfaceUsed := rfl
@[simp] theorem State.load_lb (record : List Byte) : (State.load record).lb = [] := rfl
@[simp] theorem State.load_odd (record : List Byte) : (State.load record).odd = State.reset.odd := rfl
@[simp] theorem State.load_result (record : List Byte) : (State.load record).result = none := rfl
@[simp] theorem State.load_diag (record : List Byte) : (State.load record).diag = State.reset.diag := rfl
@[simp] theorem State.load_port (record : List Byte) : (State.load record).port = none := rfl
@[simp] theorem State.load_out (record : List Byte) : (State.load record).out = State.reset.out := rfl

/-! ### answer -/

@[simp] theorem State.answer_inp (o : PortOut) (s : State) : (s.answer o).inp = s.inp := rfl
@[simp] theorem State.answer_cur (o : PortOut) (s : State) : (s.answer o).cur = s.cur := rfl
@[simp] theorem State.answer_scanEnd (o : PortOut) (s : State) : (s.answer o).scanEnd = s.scanEnd := rfl
@[simp] theorem State.answer_width (o : PortOut) (s : State) : (s.answer o).width = s.width := rfl
@[simp] theorem State.answer_height (o : PortOut) (s : State) : (s.answer o).height = s.height := rfl
@[simp] theorem State.answer_recLen (o : PortOut) (s : State) : (s.answer o).recLen = s.recLen := rfl
@[simp] theorem State.answer_tagOff (o : PortOut) (s : State) : (s.answer o).tagOff = s.tagOff := rfl
@[simp] theorem State.answer_phase (o : PortOut) (s : State) : (s.answer o).phase = s.phase := rfl
@[simp] theorem State.answer_bitbltbuf (o : PortOut) (s : State) : (s.answer o).bitbltbuf = s.bitbltbuf := rfl
@[simp] theorem State.answer_trxpos (o : PortOut) (s : State) : (s.answer o).trxpos = s.trxpos := rfl
@[simp] theorem State.answer_trxreg (o : PortOut) (s : State) : (s.answer o).trxreg = s.trxreg := rfl
@[simp] theorem State.answer_surface (o : PortOut) (s : State) : (s.answer o).surface = s.surface := rfl
@[simp] theorem State.answer_pal (o : PortOut) (s : State) : (s.answer o).pal = s.pal := rfl
@[simp] theorem State.answer_surfaceUsed (o : PortOut) (s : State) : (s.answer o).surfaceUsed = s.surfaceUsed := rfl
@[simp] theorem State.answer_lb (o : PortOut) (s : State) : (s.answer o).lb = s.lb := rfl
@[simp] theorem State.answer_odd (o : PortOut) (s : State) : (s.answer o).odd = s.odd := rfl
@[simp] theorem State.answer_result (o : PortOut) (s : State) : (s.answer o).result = s.result := rfl
@[simp] theorem State.answer_diag (o : PortOut) (s : State) : (s.answer o).diag = s.diag := rfl
@[simp] theorem State.answer_port (o : PortOut) (s : State) : (s.answer o).port = s.port := rfl
@[simp] theorem State.answer_out (o : PortOut) (s : State) : (s.answer o).out = o := rfl

end Sys2Proof.Machine
end

