-- ==== Sys2Proof/Laws/Ops.lean ====
section
/-! SUPPORT. What each shared operation can do, said once: the inversion lemmas of the sequencer's steps, and the sizes of
what the converter and the translator answer. -/

namespace Sys2Proof.Machine

/-! ### Raising -/

theorem orRaise_cases (s : State) (r : Except Raise State) :
    (∃ t, r = .ok t ∧ orRaise s r = t) ∨ (∃ e, r = .error e ∧ orRaise s r = s.raise e) := by
  cases r with
  | ok t => exact Or.inl ⟨t, rfl, rfl⟩
  | error e => exact Or.inr ⟨e, rfl, rfl⟩

/-! ### Register batches (R76) -/

/-- A batch that does not raise writes at most the three latches and moves the cursor by the packet's length. -/
theorem regBatch_ok {nloop : BitVec 15} {s t : State} (h : regBatch nloop s = .ok t) :
    ∃ b p r, t = { s with bitbltbuf := b, trxpos := p, trxreg := r, cur := s.cur + totalLen nloop } := by
  unfold regBatch at h
  split at h
  · cases h
  · split at h
    · cases h
    · split at h
      · cases h
      · cases h; exact ⟨_, _, _, rfl⟩

/-- A batch inside the record never raises, and loads each latch from the first slot of its id. -/
theorem regBatch_spec (nloop : BitVec 15) {s : State} (hb : s.scanEnd ≤ s.inp.length) :
    ∃ vb vp vr,
      lookupReg s.inp (s.cur + 16) nloop.toNat idBitbltbuf s.scanEnd = .ok vb ∧
      lookupReg s.inp (s.cur + 16) nloop.toNat idTrxpos s.scanEnd = .ok vp ∧
      lookupReg s.inp (s.cur + 16) nloop.toNat idTrxreg s.scanEnd = .ok vr ∧
      regBatch nloop s = .ok
        { s with
          bitbltbuf := (vb.map latchBitbltbuf).getD s.bitbltbuf
          trxpos := (vp.map latchTrxpos).getD s.trxpos
          trxreg := (vr.map latchTrxreg).getD s.trxreg
          cur := s.cur + totalLen nloop } := by
  have key : ∀ id, ∃ v, lookupReg s.inp (s.cur + 16) nloop.toNat id s.scanEnd = .ok v := by
    intro id
    rcases lookupReg_spec (id := id) hb nloop.toNat (show 0 < s.cur + 16 by omega) with ⟨o, _, h⟩ | ⟨_, h⟩
    · exact ⟨_, h⟩
    · exact ⟨_, h⟩
  obtain ⟨vb, hvb⟩ := key idBitbltbuf
  obtain ⟨vp, hvp⟩ := key idTrxpos
  obtain ⟨vr, hvr⟩ := key idTrxreg
  exact ⟨vb, vp, vr, hvb, hvp, hvr, by simp only [regBatch, hvb, hvp, hvr]⟩

/-! ### Image packets (R108, R109) -/

/-- Where a payload comes from and what the cursor becomes, when no read leaves the record. -/
theorem imagePayload_ok {inp : List Byte} {scanEnd c : Nat} {nloop : BitVec 15} {d : List Byte} {c2 : Nat}
    (h : imagePayload inp scanEnd c nloop = .ok (d, c2)) :
    c + 16 + payloadLen nloop ≤ inp.length ∧ c + 16 + payloadLen nloop ≤ c2 := by
  unfold imagePayload at h
  split at h
  · cases h
  · rename_i d1 h1
    have := (inBytes_ok h1).1
    refine ⟨this, ?_⟩
    dsimp only at h
    split at h
    · cases h; exact le_refl _
    · split at h
      · cases h
      · split at h
        · split at h
          · cases h
          · cases h; omega
        · cases h; exact le_refl _

/-- An error of an image packet is OutOfBounds: its own payload, the peeked tag, or the joined payload leaves the
record. -/
theorem imagePayload_error {inp : List Byte} {scanEnd c : Nat} {nloop : BitVec 15} {e : Raise}
    (h : imagePayload inp scanEnd c nloop = .error e) : e.kind = .outOfBounds := by
  unfold imagePayload at h
  split at h
  · rename_i e' h1
    cases h; rw [(inBytes_error h1).2]; rfl
  · dsimp only at h
    split at h
    · cases h
    · split at h
      · rename_i e' h1
        cases h; exact (parseTag_error h1).2
      · split at h
        · split at h
          · rename_i e' h1
            cases h; rw [(inBytes_error h1).2]; rfl
          · cases h
        · cases h

/-- A transfer writes the surface and sets `S`, or appends to `LB`; nothing else. -/
theorem transfer_cases (payload : List Byte) (s : State) :
    (goesThroughSurface s.pal.length s.bitbltbuf.dpsm = true ∧
        transfer payload s =
          { s with
            surface := writePsmct32 bpUnitWords s.bitbltbuf.dbp.toNat s.bitbltbuf.dbw.toNat s.trxpos.dsax.toNat
              s.trxpos.dsay.toNat s.trxreg.rrw.toNat s.trxreg.rrh.toNat payload s.surface
            surfaceUsed := true }) ∨
      (goesThroughSurface s.pal.length s.bitbltbuf.dpsm = false ∧ transfer payload s = { s with lb := s.lb ++ payload }) := by
  unfold transfer
  cases h : goesThroughSurface s.pal.length s.bitbltbuf.dpsm
  · exact Or.inr ⟨rfl, by simp⟩
  · exact Or.inl ⟨rfl, by simp⟩

theorem transfer_surface_wf (payload : List Byte) {s : State} (h : Memory.wf s.surface) :
    Memory.wf (transfer payload s).surface := by
  rcases transfer_cases payload s with ⟨_, ht⟩ | ⟨_, ht⟩ <;> rw [ht]
  · exact writePsmct32_wf h
  · exact h

/-- An image packet that does not raise: a transfer, the cursor after it, phase `Transferring`. -/
theorem imageStep_ok {nloop : BitVec 15} {s t : State} (h : imageStep nloop s = .ok t) :
    ∃ d c2, imagePayload s.inp s.scanEnd s.cur nloop = .ok (d, c2) ∧
      t = { transfer d s with cur := c2, phase := .transferring } := by
  unfold imageStep at h
  split at h
  · cases h
  · rename_i d c2 h1
    cases h; exact ⟨d, c2, h1, rfl⟩

/-! ### Sizes of what the converter and the translator answer -/

theorem entriesOf_length (entry : Byte → Byte → Byte → Byte → Color) (bs : List Byte) :
    (entriesOf entry bs).length = bs.length / 4 := by
  fun_induction entriesOf entry bs with
  | case1 b0 b1 b2 b3 rest ih => simp only [List.length_cons, ih]; omega
  | case2 bs h =>
    match bs, h with
    | [], _ => rfl
    | [_], _ => simp
    | [_, _], _ => simp
    | [_, _, _], _ => simp
    | b0 :: b1 :: b2 :: b3 :: rest, h => exact absurd rfl (h b0 b1 b2 b3 rest)

theorem readPalette_ok {inp : List Byte} {p w h : Nat} {pal : List Color} (hp : readPalette inp p w h = .ok pal) :
    p + 4 * (w * h) ≤ inp.length ∧ pal.length = w * h := by
  unfold readPalette at hp
  split at hp
  · cases hp
  · rename_i bs hbs
    obtain ⟨hle, rfl⟩ := inBytes_ok hbs
    cases hp
    exact ⟨hle, by rw [entriesOf_length, bytesAt_length hle]; omega⟩

theorem readFlatPalette_ok {inp : List Byte} {p : Nat} {pal : List Color} (hp : readFlatPalette inp p = .ok pal) :
    p + flatPaletteBytes ≤ inp.length ∧ pal.length = 256 := by
  unfold readFlatPalette at hp
  split at hp
  · cases hp
  · rename_i bs hbs
    obtain ⟨hle, rfl⟩ := inBytes_ok hbs
    cases hp
    exact ⟨hle, by rw [entriesOf_length, bytesAt_length hle]; rfl⟩

theorem unswizzleClut_length (pal : List Color) : (unswizzleClut pal).length = pal.length := by
  unfold unswizzleClut
  split
  · rename_i h; rw [List.length_map, List.length_range, h]
  · rfl

theorem expand4_length (bs : List Byte) : (expand4 bs).length = 2 * bs.length := by
  induction bs with
  | nil => rfl
  | cons b bs ih => simp only [expand4, List.length_cons, ih]; omega

theorem packNibbles_length (ns : List (BitVec 4)) : (packNibbles ns).length = (ns.length + 1) / 2 := by
  fun_induction packNibbles ns with
  | case1 lo hi rest ih => simp only [List.length_cons, ih]; omega
  | case2 => simp
  | case3 => rfl

theorem applyPaletteFrom_length (pal : List Color) (k : Nat) (idx : List Byte) :
    (applyPaletteFrom pal k idx).length = 4 * idx.length := by
  induction idx generalizing k with
  | nil => rfl
  | cons b idx ih => simp only [applyPaletteFrom, List.length_append, ih, List.length_cons, colorBytes, List.length_nil]; omega

theorem applyPalette_length (pal : List Color) (idx : List Byte) : (applyPalette pal idx).length = 4 * idx.length :=
  applyPaletteFrom_length pal 0 idx

theorem rectPixels_length (x0 y0 w h : Nat) : (rectPixels x0 y0 w h).length = w * h := by simp [rectPixels]

theorem readPsmt8_length (unit dbp dbw x0 y0 w h : Nat) (m : Memory) :
    (readPsmt8 unit dbp dbw x0 y0 w h m).length = w * h := by
  rw [readPsmt8, List.length_map, rectPixels_length]

theorem readPsmt4_length (unit dbp dbw x0 y0 w h : Nat) (m : Memory) :
    (readPsmt4 unit dbp dbw x0 y0 w h m).length = (w * h + 1) / 2 := by
  rw [readPsmt4, packNibbles_length, List.length_map, rectPixels_length]

theorem takePadded_length (n : Nat) (idx : List Byte) : (takePadded n idx).length = n := by
  rw [takePadded, List.length_append, List.length_take, List.length_replicate]; omega

theorem le_roundUp (v : Nat) {g : Nat} (hg : 0 < g) : v ≤ roundUp v g := by
  have h1 := Nat.div_add_mod (v + g - 1) g
  have h2 := Nat.mod_lt (v + g - 1) hg
  rw [roundUp, Nat.mul_comm]
  omega

/-- The crop of a buffer that holds the whole rounded rectangle has the declared size. -/
theorem crop_length {w h wr hr : Nat} {idx : List Byte} (hw : w ≤ wr) (hh : h ≤ hr) (hidx : wr * hr ≤ idx.length) :
    (crop w h wr idx).length = h * w := by
  rw [crop, List.length_flatMap, List.map_congr_left (g := fun _ => w)]
  · simp
  · intro y hy
    have hy : y < h := List.mem_range.1 hy
    have h1 : (y + 1) * wr ≤ wr * hr := by rw [Nat.mul_comm wr hr]; exact Nat.mul_le_mul_right _ (by omega)
    rw [Nat.add_mul, Nat.one_mul] at h1
    rw [List.length_take, List.length_drop]
    omega

/-- The readback has one index per pixel of the declared size (R110). -/
theorem readbackIndices_length (s : State) : (readbackIndices s).length = s.height.toNat * s.width.toNat := by
  simp only [readbackIndices]
  split
  · exact crop_length (le_roundUp _ (g := granularity8) (by decide)) (le_roundUp _ (g := granularity8) (by decide))
      (by rw [readPsmt8_length])
  · split
    · refine crop_length (le_roundUp _ (g := granularity4) (by decide)) (le_roundUp _ (g := granularity4) (by decide)) ?_
      rw [expand4_length, readPsmt4_length]; omega
    · rw [takePadded_length, Nat.mul_comm]

/-! ### Header and classes (R98 to R105) -/

theorem headerStep_ok {s t : State} (h : headerStep s = .ok t) :
    headerBytes ≤ s.inp.length ∧ 0 < (headerOf s.inp).width.toNat ∧ 0 < (headerOf s.inp).height.toNat ∧
      t = { s with
        width := (headerOf s.inp).width, height := (headerOf s.inp).height, recLen := (headerOf s.inp).recLen,
        tagOff := (headerOf s.inp).tagOff } := by
  unfold headerStep at h
  split at h
  · cases h
  · rename_i hlen
    dsimp only at h
    split at h
    · cases h
    · rename_i hwh
      cases h
      rw [not_or] at hwh
      refine ⟨by omega, ?_, ?_, rfl⟩ <;> [have := hwh.1; have := hwh.2] <;>
        exact Nat.pos_of_ne_zero fun h0 => this (BitVec.eq_of_toNat_eq (by simpa using h0))

theorem selectClass_ok {s : State} {x : Selected} (h : selectClass s = .ok x) :
    (s.tagOff.toInt ≤ 0 ∧ x = .enter { s with phase := .flat }) ∨
      (0 < s.tagOff.toInt ∧ tagStart s.tagOff + 16 ≤ s.inp.length ∧
        ((tagNloop (quadsAt s.inp (tagStart s.tagOff)).1 = nloopDirect ∧
            x = .enter { s with scanEnd := scanEndOf recordLengthUnit s.inp.length s.recLen, phase := .direct }) ∨
          (tagNloop (quadsAt s.inp (tagStart s.tagOff)).1 = nloopIndexed ∧
            x = .enter { s with scanEnd := scanEndOf recordLengthUnit s.inp.length s.recLen, phase := .clutLoad }) ∨
          (tagNloop (quadsAt s.inp (tagStart s.tagOff)).1 ≠ nloopDirect ∧
            tagNloop (quadsAt s.inp (tagStart s.tagOff)).1 ≠ nloopIndexed ∧
            x = .blank (quadsAt s.inp (tagStart s.tagOff)).1 (quadsAt s.inp (tagStart s.tagOff)).2
              { s with scanEnd := scanEndOf recordLengthUnit s.inp.length s.recLen }))) := by
  unfold selectClass at h
  split at h
  · cases h; exact Or.inl ⟨by assumption, rfl⟩
  · rename_i hpos
    split at h
    · cases h
    · split at h
      · cases h
      · rename_i lo hi hft
        obtain ⟨hle, hq⟩ := fetchTag_ok hft
        refine Or.inr ⟨by omega, hle, ?_⟩
        rw [← hq]
        dsimp only at h ⊢
        split at h
        · cases h; exact Or.inl ⟨by assumption, rfl⟩
        · split at h
          · cases h; exact Or.inr (Or.inl ⟨by assumption, rfl⟩)
          · cases h; exact Or.inr (Or.inr ⟨by assumption, by assumption, rfl⟩)

theorem flatStep_ok {s t : State} (h : flatStep s = .ok t) :
    ∃ pal, readFlatPalette s.inp flatPaletteOffset = .ok pal ∧
      flatPaletteOffset + flatPaletteBytes + s.width.toNat * s.height.toNat ≤ s.inp.length ∧
      t = State.finish
        { width := s.width, height := s.height, kind := .indexed8,
          buffer := bytesAt s.inp (flatPaletteOffset + flatPaletteBytes) (s.width.toNat * s.height.toNat),
          palette := some pal }
        { s with pal := pal } := by
  unfold flatStep at h
  split at h
  · cases h
  · rename_i pal hp
    split at h
    · cases h
    · rename_i px hpx
      obtain ⟨hle, rfl⟩ := inBytes_ok hpx
      cases h; exact ⟨pal, hp, hle, rfl⟩

theorem directStep_ok {s t : State} (h : directStep s = .ok t) :
    tagStart s.tagOff + directPixelOffset + 4 * (s.width.toNat * s.height.toNat) ≤ s.inp.length ∧
      t = s.finish
        { width := s.width, height := s.height, kind := .directColor,
          buffer := bytesAt s.inp (tagStart s.tagOff + directPixelOffset) (4 * (s.width.toNat * s.height.toNat)),
          palette := none } := by
  unfold directStep at h
  split at h
  · cases h
  · rename_i px hpx
    obtain ⟨hle, rfl⟩ := inBytes_ok hpx
    cases h; exact ⟨hle, rfl⟩

/-- CLUT_STEP that does not raise: a blank image, or a palette of 16 or 256 entries and the cursor behind the second
tag's payload. -/
theorem clutStep_ok {s t : State} (h : clutStep s = .ok t) :
    t = blankStep s ∨
      ∃ n2 : BitVec 15, ∃ stored : List Color, (stored.length = 16 ∨ stored.length = 256) ∧
        t = { s with
          pal := unswizzleClut stored, cur := tagStart s.tagOff + clutPaletteOffset + payloadLen n2, phase := .scanning } := by
  unfold clutStep at h
  split at h
  · cases h
  · cases h; exact Or.inl rfl
  · rename_i v _
    simp only [clutLoad] at h
    split at h
    · cases h; exact Or.inl rfl
    · rename_i hN
      split at h
      · cases h
      · split at h
        · cases h
        · rename_i _ t2 _ _ stored hs
          cases h
          refine Or.inr ⟨t2.nloop, stored, ?_, rfl⟩
          rw [(readPalette_ok hs).2]; omega

end Sys2Proof.Machine
end

