-- ==== Sys2Proof/Laws/PerInstr.lean ====
section
/-! SUPPORT. A statement about every instruction, one lemma each: the shape of its encoding. -/

namespace Sys2Proof.Laws.EncodeFormat

/-- How many number operands the operation with a code has (30_encoding.md R68, the table's operand column); the fields
of TOTAL_LEN's tag are three numbers. -/
def portArity (code : BitVec 4) : Nat := [1, 3, 4, 1, 1, 1, 6, 6, 6, 6, 3, 1, 0, 0, 0, 0].getD code.toNat 0

/-- An encoding has the shape of its place: 20 bytes for a header (R49), 16 for a tag or slot (R54, R57), the operands
R68 lists for an operation of the port. -/
def Shaped : Encoded → Prop
  | .header bs => bs.length = 20
  | .firstTag bs => bs.length = 16
  | .tag bs => bs.length = 16
  | .slot bs => bs.length = 16
  | .port p => p.nums.length = portArity p.code

/-- The encoding of the instruction has the shape of its place. -/
def Statement (i : Instr) : Prop := Shaped (encode i)

theorem recordFlat (hd : Header) : Statement (.recordFlat hd) := rfl

theorem recordDirect (flg : BitVec 2) (rest : TagRest) : Statement (.recordDirect flg rest) := rfl

theorem recordIndexed (flg : BitVec 2) (rest : TagRest) : Statement (.recordIndexed flg rest) := rfl

theorem recordBlank (nloop : BitVec 15) (flg : BitVec 2) (rest : TagRest) : Statement (.recordBlank nloop flg rest) := rfl

theorem giftagPacked (nloop : BitVec 15) (rest : TagRest) : Statement (.giftagPacked nloop rest) := rfl

theorem giftagReglist (nloop : BitVec 15) (rest : TagRest) : Statement (.giftagReglist nloop rest) := rfl

theorem giftagImage (nloop : BitVec 15) (rest : TagRest) : Statement (.giftagImage nloop rest) := rfl

theorem giftagDisabled (nloop : BitVec 15) (rest : TagRest) : Statement (.giftagDisabled nloop rest) := rfl

theorem adBitbltbuf (v : Quad) : Statement (.adBitbltbuf v) := rfl

theorem adTrxpos (v : Quad) : Statement (.adTrxpos v) := rfl

theorem adTrxreg (v : Quad) : Statement (.adTrxreg v) := rfl

theorem adTrxdir (v : Quad) : Statement (.adTrxdir v) := rfl

theorem adOther (id v : Quad) : Statement (.adOther id v) := rfl

theorem opParseTag (a : Nat) : Statement (.opParseTag a) := rfl

theorem opTotalLen (tag : TagDescriptor) : Statement (.opTotalLen tag) := rfl

theorem opFindReg (scanStart loopCount : Nat) (registerId : Quad) (bound : Nat) : Statement (.opFindReg scanStart loopCount registerId bound) := rfl

theorem opLatchBitbltbuf (v : Quad) : Statement (.opLatchBitbltbuf v) := rfl

theorem opLatchTrxpos (v : Quad) : Statement (.opLatchTrxpos v) := rfl

theorem opLatchTrxreg (v : Quad) : Statement (.opLatchTrxreg v) := rfl

theorem opWritePsmct32 (dbp : BitVec 14) (dbw : BitVec 6) (dsax dsay : BitVec 11) (rrw rrh : BitVec 12) (src : List Byte) : Statement (.opWritePsmct32 dbp dbw dsax dsay rrw rrh src) := rfl

theorem opReadPsmct32 (dbp : BitVec 14) (dbw : BitVec 6) (x0 y0 : BitVec 11) (w h : BitVec 12) : Statement (.opReadPsmct32 dbp dbw x0 y0 w h) := rfl

theorem opReadPsmt8 (dbp dbw x0 y0 w h : Nat) : Statement (.opReadPsmt8 dbp dbw x0 y0 w h) := rfl

theorem opReadPsmt4 (dbp dbw x0 y0 w h : Nat) : Statement (.opReadPsmt4 dbp dbw x0 y0 w h) := rfl

theorem opReadPalette (p w h : Nat) : Statement (.opReadPalette p w h) := rfl

theorem opReadFlatPalette (p : Nat) : Statement (.opReadFlatPalette p) := rfl

theorem opUnswizzleClut (pal : List Color) : Statement (.opUnswizzleClut pal) := rfl

theorem opApplyPalette (pal : List Color) (idx : List Byte) : Statement (.opApplyPalette pal idx) := rfl

theorem opExpand4 (bs : List Byte) : Statement (.opExpand4 bs) := rfl

theorem opDecode (record : List Byte) : Statement (.opDecode record) := rfl

end Sys2Proof.Laws.EncodeFormat
end

