-- ==== Sys2Proof/Laws/Step.lean ====
section
/-! SUPPORT. What a step is: the port's instruction, or the sequencer's step. -/

namespace Sys2Proof.Machine

/-- A block whose transaction has ended looks at its port only. -/
theorem fetch_final {s : State} (hf : s.phase.isFinal = true) : fetch s = fetchRequest s := by
  unfold fetch
  split <;> first | rfl | (rename_i hp; rw [hp] at hf; cases hf)

/-- Once the transaction has ended, a request on the port is taken and its instruction run. -/
theorem step_request {s : State} {r : Request} (hf : s.phase.isFinal = true) (h : s.port = some r) :
    step s = exec (decodeRequest r) s.consume := by
  rw [step, fetch_final hf, fetchRequest, h]

/-- A tag of the scan, run as an instruction, is the sequencer's packet step. -/
theorem exec_decodeTag (lo hi : Quad) (s : State) : exec (decodeTag lo hi) s = .next (packetStep lo s) := by
  unfold decodeTag packetStep
  by_cases h0 : tagFlg lo = 0#2
  · rw [if_pos h0, if_neg (by rw [h0]; decide)]; rfl
  · rw [if_neg h0]
    by_cases h1 : tagFlg lo = 1#2
    · rw [if_pos h1, if_neg (by rw [h1]; decide)]; rfl
    · rw [if_neg h1]
      by_cases h2 : tagFlg lo = flgImage
      · rw [if_pos h2, if_pos h2]; rfl
      · rw [if_neg h2, if_neg h2]; rfl

/-- A first tag, run as an instruction, is the sequencer's class step. -/
theorem exec_decodeFirstTag (lo hi : Quad) (s : State) :
    exec (decodeFirstTag lo hi) s = .next (classStep (tagNloop lo) s) := by
  unfold decodeFirstTag classStep
  split
  · rfl
  · split <;> rfl

/-- While the transaction runs, and with no request on the port, a step is the sequencer's step: it always answers a next
state. -/
theorem step_sequencer {s : State} (h : s.phase.isFinal = false ∨ s.port = none) : step s = .next (seqStep s) := by
  unfold step fetch fetchRequest seqStep
  cases hp : s.phase with
  | header =>
    cases ho : openRecord s with
    | error e => rfl
    | ok x =>
      cases x with
      | enter s' => rfl
      | blank lo hi s' =>
        dsimp only
        rw [exec_decodeFirstTag]
        have : tagNloop lo ≠ nloopDirect ∧ tagNloop lo ≠ nloopIndexed := by
          unfold openRecord at ho
          split at ho
          · cases ho
          · rcases selectClass_ok ho with ⟨_, hx⟩ | ⟨_, _, ⟨_, hx⟩ | ⟨_, hx⟩ | ⟨hd, hi, hx⟩⟩
            · cases hx
            · cases hx
            · cases hx
            · cases hx; exact ⟨hd, hi⟩
        rw [classStep, if_neg this.1, if_neg this.2]
  | flat => rfl
  | direct => exact exec_decodeFirstTag _ _ _
  | clutLoad => exact exec_decodeFirstTag _ _ _
  | scanning =>
    dsimp only
    by_cases hs : s.scanEnd < s.cur + 16
    · rw [if_pos hs, if_pos hs]
    · rw [if_neg hs, if_neg hs]
      cases hf : fetchTag s.inp s.cur with
      | error e => rfl
      | ok q => exact exec_decodeTag _ _ _
  | transferring => rfl
  | readback => rfl
  | done =>
    have hn : s.port = none := by simpa [hp, Phase.isFinal] using h
    dsimp only; rw [hn]
  | failed =>
    have hn : s.port = none := by simpa [hp, Phase.isFinal] using h
    dsimp only; rw [hn]

end Sys2Proof.Machine
end

