-- ==== Sys2Proof/Tests/Slice0.lean ====
section
/-! SUPPORT. The model's own tests. Expected values come from the vectors and programs of 95_test_vectors.md (their names
stand in the docstrings) or are written out by hand from the encodings of 30_encoding.md. The `witness` theorems show, for
each statement with hypotheses, a state and operands that meet them. -/

namespace Sys2Proof.Tests

open Sys2Proof.Machine

set_option Elab.async false

/-! ### Helpers -/

/-- The state an outcome goes on with. -/
def nextOf : Host.Outcome State Fault Refusal → Option State
  | .next s => some s
  | .fault _ => none
  | .refused _ => none

/-- What a port operation answered on a record. -/
def answer (i : Instr) (inp : List Byte) : Option PortOut := (nextOf (exec i { State.reset with inp := inp })).map State.out

/-- What a whole transaction leaves in the result register. -/
def decoded (record : List Byte) : Option Result :=
  match nextOf (exec (.opDecode record) State.reset) with
  | some s => s.result
  | none => none

def zeros (n : Nat) : List Byte := List.replicate n 0

/-- `pattern(n)` (95_test_vectors.md): the bytes 0, 1, 2, and so on. -/
def pattern (n : Nat) : List Byte := (List.range n).map (BitVec.ofNat 8)

/-- Program P1 up to its palette (bytes 0x00 to 0x7F), as the spec prints it. -/
def p1Head : List Byte :=
  [0x10, 0x00, 0x10, 0x00, 0x00, 0x00, 0x1A, 0x00, 0, 0, 0, 0, 0, 0, 0, 0, 0x20, 0, 0, 0] ++ zeros 12 ++
  [0x04, 0, 0, 0, 0, 0, 0, 0x10, 0x0E, 0, 0, 0, 0, 0, 0, 0] ++
  [0, 0, 0, 0, 0x00, 0x01, 0x01, 0x00, 0x50, 0, 0, 0, 0, 0, 0, 0] ++
  [0, 0, 0, 0, 0, 0, 0, 0, 0x51, 0, 0, 0, 0, 0, 0, 0] ++
  [0x08, 0, 0, 0, 0x02, 0, 0, 0, 0x52, 0, 0, 0, 0, 0, 0, 0] ++
  [0, 0, 0, 0, 0, 0, 0, 0, 0x53, 0, 0, 0, 0, 0, 0, 0] ++
  [0x04, 0, 0, 0, 0, 0, 0, 0x18, 0x0E, 0, 0, 0, 0, 0, 0, 0]

/-- The palette of P1: `PAL[i] = (16i, 255-16i, i, 0x80)`. -/
def p1Pal : List Color :=
  (List.range 16).map fun i => { r := .ofNat 8 (16 * i), g := .ofNat 8 (255 - 16 * i), b := .ofNat 8 i, a := 0x80 }

/-- P1 from its texture batch on (bytes 0xC0 to 0x19F). -/
def p1Scan : List Byte :=
  [0x04, 0, 0, 0, 0, 0, 0, 0x10, 0x0E, 0, 0, 0, 0, 0, 0, 0] ++
  [0, 0, 0, 0, 0x00, 0x00, 0x01, 0x00, 0x50, 0, 0, 0, 0, 0, 0, 0] ++
  [0, 0, 0, 0, 0, 0, 0, 0, 0x51, 0, 0, 0, 0, 0, 0, 0] ++
  [0x08, 0, 0, 0, 0x04, 0, 0, 0, 0x52, 0, 0, 0, 0, 0, 0, 0] ++
  [0, 0, 0, 0, 0, 0, 0, 0, 0x53, 0, 0, 0, 0, 0, 0, 0] ++
  [0x08, 0x80, 0, 0, 0, 0, 0, 0x18, 0x0E, 0, 0, 0, 0, 0, 0, 0] ++ pattern 128

/-- Program P1, 416 bytes. -/
def p1 : List Byte := p1Head ++ p1Pal.flatMap colorBytes ++ p1Scan

/-- Reset with P1 as the record. -/
def p1Start : State := { State.reset with inp := p1 }

/-- P1 once its header and first tag were read. -/
def p1Clut : State :=
  { p1Start with width := 16, height := 16, recLen := 26, tagOff := 32, scanEnd := 416, phase := .clutLoad }

/-- P1 at its texture batch. -/
def p1Batch : State := { p1Clut with pal := p1Pal, cur := 0xC0, phase := .scanning }

/-- P1 at its image packet, the latches as trace step 3 and TP22 give them. -/
def p1Image : State :=
  { p1Batch with bitbltbuf := { dbp := 0, dbw := 1, dpsm := 0 }, trxreg := { rrw := 8, rrh := 4 }, cur := 0x110 }

/-- P1's batch with its transaction over, so that the port is looked at. -/
def p1Idle : State := { p1Batch with phase := .done }

/-- The tag fields of every tag the syntax of R69 writes, EOP aside. -/
def plainRest (eop : BitVec 1) : TagRest := { eop := eop, gap := 0, pre := 0, prim := 0, nreg := 1, regs := 0xE }

/-! ### WellFormed: each check refuses an ill-formed term -/

theorem test_wf_flat : WellFormed (.recordFlat (hostHeader 1)) = false ∧ WellFormed (.recordFlat (hostHeader 0x7FFFFFFF)) = false ∧
    WellFormed (.recordFlat (hostHeader 0)) = true ∧ WellFormed (.recordFlat (hostHeader 0xFFFFFFFB)) = true := by decide

theorem test_wf_blank : WellFormed (.recordBlank 3 0 (plainRest 0)) = false ∧ WellFormed (.recordBlank 4 0 (plainRest 0)) = false ∧
    WellFormed (.recordBlank 5 0 (plainRest 0)) = true := by decide

theorem test_wf_other_id : WellFormed (.adOther 0x50 0) = false ∧ WellFormed (.adOther 0x51 0) = false ∧
    WellFormed (.adOther 0x52 0) = false ∧ WellFormed (.adOther 0x53 0) = false ∧ WellFormed (.adOther 0x152 0) = true := by
  decide

theorem test_wf_palette : WellFormed (.opApplyPalette [] [1]) = false ∧ WellFormed (.opApplyPalette [noColor] [1]) = true := by
  decide

/-! ### Decoding, on words written out from the encodings -/

/-- R49: `W = 2`, `H = 3`, `RL = 4`, `T = -5`, the unused fields distinct. A header with `T > 0` is no RECORD_FLAT. -/
theorem test_decode_header :
    decode (.header [2, 0, 3, 0, 0x0A, 0, 4, 0, 0x0B, 0, 0, 0, 0x0C, 0, 0, 0, 0xFB, 0xFF, 0xFF, 0xFF]) =
        .ok (.recordFlat { width := 2, height := 3, unused4 := 10, recLen := 4, unused8 := 11, unused12 := 12,
                           tagOff := 0xFFFFFFFB }) ∧
    decode (.header (zeros 16 ++ [0x20, 0, 0, 0])) = .error (.notFlat 0x20) ∧
    decode (.header (zeros 19)) = .error (.wrongLength 20 19) := by decide

/-- R53: NLOOP 3, 4 and 5; FLG is no part of the choice. -/
theorem test_decode_first_tag :
    decode (.firstTag [3, 0, 0, 0, 0, 0, 0, 0x18, 0x0E, 0, 0, 0, 0, 0, 0, 0]) = .ok (.recordDirect 2 (plainRest 0)) ∧
    decode (.firstTag [4, 0x80, 0, 0, 0, 0, 0, 0x10, 0x0E, 0, 0, 0, 0, 0, 0, 0]) = .ok (.recordIndexed 0 (plainRest 1)) ∧
    decode (.firstTag [5, 0, 0, 0, 0, 0, 0, 0x1C, 0x0E, 0, 0, 0, 0, 0, 0, 0]) = .ok (.recordBlank 5 3 (plainRest 0)) ∧
    decode (.firstTag [4, 1, 0, 0, 0, 0, 0, 0x10, 0x0E, 0, 0, 0, 0, 0, 0, 0]) = .ok (.recordBlank 260 0 (plainRest 0)) := by
  decide

/-- TP1, TP2, TP3, TP4: the four FLG values. -/
theorem test_decode_tag :
    decode (.tag [4, 0, 0, 0, 0, 0, 0, 0x10, 0x0E, 0, 0, 0, 0, 0, 0, 0]) = .ok (.giftagPacked 4 (plainRest 0)) ∧
    decode (.tag [8, 0x80, 0, 0, 0, 0, 0, 0x18, 0x0E, 0, 0, 0, 0, 0, 0, 0]) = .ok (.giftagImage 8 (plainRest 1)) ∧
    decode (.tag ([0xFF, 0xFF, 0, 0, 0, 0, 0, 0x0C] ++ zeros 8)) =
        .ok (.giftagDisabled 0x7FFF { eop := 1, gap := 0, pre := 0, prim := 0, nreg := 0, regs := 0 }) ∧
    decode (.tag ([0, 0, 0, 0, 0, 0, 0, 0x04] ++ zeros 8)) =
        .ok (.giftagReglist 0 { eop := 0, gap := 0, pre := 0, prim := 0, nreg := 0, regs := 0 }) ∧
    decode (.tag (zeros 17)) = .error (.wrongLength 16 17) := by decide

/-- R54: each discarded field alone, all its bits set. -/
theorem test_decode_tag_fields :
    decode (.tag ([0, 0, 0xFF, 0xFF, 0xFF, 0x3F, 0, 0] ++ zeros 8)) =
        .ok (.giftagPacked 0 { eop := 0, gap := 0x3FFFFFFF, pre := 0, prim := 0, nreg := 0, regs := 0 }) ∧
    decode (.tag ([0, 0, 0, 0, 0, 0x40, 0, 0] ++ zeros 8)) =
        .ok (.giftagPacked 0 { eop := 0, gap := 0, pre := 1, prim := 0, nreg := 0, regs := 0 }) ∧
    decode (.tag ([0, 0, 0, 0, 0, 0x80, 0xFF, 0x03] ++ zeros 8)) =
        .ok (.giftagPacked 0 { eop := 0, gap := 0, pre := 0, prim := 0x7FF, nreg := 0, regs := 0 }) ∧
    decode (.tag ([0, 0, 0, 0, 0, 0, 0, 0xF0] ++ zeros 7 ++ [0x80])) =
        .ok (.giftagPacked 0 { eop := 0, gap := 0, pre := 0, prim := 0, nreg := 15, regs := 0x8000000000000000 }) := by
  decide

/-- R57 and R58; the last id is TP14's 0x152. -/
theorem test_decode_slot :
    decode (.slot [0, 0, 0, 0, 0, 1, 1, 0, 0x50, 0, 0, 0, 0, 0, 0, 0]) = .ok (.adBitbltbuf 0x0001010000000000) ∧
    decode (.slot [0, 0, 0, 0, 3, 0, 5, 0, 0x51, 0, 0, 0, 0, 0, 0, 0]) = .ok (.adTrxpos 0x0005000300000000) ∧
    decode (.slot [8, 0, 0, 0, 4, 0, 0, 0, 0x52, 0, 0, 0, 0, 0, 0, 0]) = .ok (.adTrxreg 0x0000000400000008) ∧
    decode (.slot [2, 0, 0, 0, 0, 0, 0, 0, 0x53, 0, 0, 0, 0, 0, 0, 0]) = .ok (.adTrxdir 2) ∧
    decode (.slot [2, 0, 0, 0, 0, 0, 0, 0, 0x52, 1, 0, 0, 0, 0, 0, 0]) = .ok (.adOther 0x152 2) := by decide

/-- R68: the codes 0x0 to 0x7. -/
theorem test_decode_port_low :
    decode (.port (portNums 0x0 [32])) = .ok (.opParseTag 32) ∧
    decode (.port (portNums 0x1 [8, 1, 2])) = .ok (.opTotalLen { nloop := 8, eop := 1, flg := 2 }) ∧
    decode (.port (portNums 0x2 [0xD0, 4, 0x52, 416])) = .ok (.opFindReg 0xD0 4 0x52 416) ∧
    decode (.port (portNums 0x3 [7])) = .ok (.opLatchBitbltbuf 7) ∧
    decode (.port (portNums 0x4 [7])) = .ok (.opLatchTrxpos 7) ∧
    decode (.port (portNums 0x5 [7])) = .ok (.opLatchTrxreg 7) ∧
    decode (.port { code := 0x6, nums := [0x3FFF, 1, 2, 3, 4, 5], data := [9], pal := [] }) =
      .ok (.opWritePsmct32 0x3FFF 1 2 3 4 5 [9]) ∧
    decode (.port (portNums 0x7 [1, 2, 3, 4, 5, 6])) = .ok (.opReadPsmct32 1 2 3 4 5 6) ∧
    decode (.port (portNums 0x7 [16384, 64, 2049, 2048, 4097, 4096])) = .ok (.opReadPsmct32 0 0 1 0 1 0) := by decide

/-- R68: the codes 0x8 to 0xF. -/
theorem test_decode_port_high :
    decode (.port (portNums 0x8 [1, 2, 3, 4, 5, 6])) = .ok (.opReadPsmt8 1 2 3 4 5 6) ∧
    decode (.port (portNums 0x9 [1, 2, 3, 4, 5, 6])) = .ok (.opReadPsmt4 1 2 3 4 5 6) ∧
    decode (.port (portNums 0x8 [16384, 2, 2048, 0, 4096, 1])) = .ok (.opReadPsmt8 16384 2 2048 0 4096 1) ∧
    decode (.port (portNums 0xA [128, 8, 2])) = .ok (.opReadPalette 128 8 2) ∧
    decode (.port (portNums 0xB [20])) = .ok (.opReadFlatPalette 20) ∧
    decode (.port { code := 0xC, nums := [], data := [], pal := [noColor] }) = .ok (.opUnswizzleClut [noColor]) ∧
    decode (.port { code := 0xD, nums := [], data := [1], pal := [noColor] }) = .ok (.opApplyPalette [noColor] [1]) ∧
    decode (.port { code := 0xE, nums := [], data := [0xA5], pal := [] }) = .ok (.opExpand4 [0xA5]) ∧
    decode (.port { code := 0xF, nums := [], data := [1, 2], pal := [] }) = .ok (.opDecode [1, 2]) := by decide

/-- The opcode table's own match values. -/
theorem test_table_words :
    decodeTableWord 16 3 = some (.recordDirect 0 { eop := 0, gap := 0, pre := 0, prim := 0, nreg := 0, regs := 0 }) ∧
    decodeTableWord 64 0x0800000000000000 =
      some (.giftagImage 0 { eop := 0, gap := 0, pre := 0, prim := 0, nreg := 0, regs := 0 }) ∧
    decodeTableWord 128 0x00000000000000520000000000000000 = some (.adTrxreg 0) ∧
    decodeTableWord 8 0xA = some (.opReadPalette 0 0 0) ∧ decodeTableWord 200 0 = none := by decide

/-- A placed word is what the next step fetches and runs. -/
theorem test_placed_words_run :
    (nextOf (step (State.reset.withFetchWord 128 0x00000000000000520000000400000008))).map State.trxreg =
      some { rrw := 8, rrh := 4 } ∧
    (nextOf (step (State.reset.withFetchWord 64 0x0800000000000000))).map State.phase = some .transferring ∧
    (nextOf (step (State.reset.withFetchWord 16 5))).map State.phase = some .done ∧
    (nextOf (step (State.reset.withFetchWord 8 0x1))).map State.out = some (.length 16) := by decide +kernel

/-! ### One step of each instruction -/

/-- P5's layout with `W = H = 1`: the palette bytes 55 FF 00 FF are FC12's, the pixel is attached and not colored. -/
theorem test_recordFlat :
    (decoded ([1, 0, 1, 0] ++ zeros 16 ++ [0x55, 0xFF, 0x00, 0xFF] ++ zeros 1020 ++ [0xFE])).map (fun
      | .image img => (img.kind, img.buffer, img.palette.map fun p => (p.length, p.head?))
      | .error _ => (.directColor, [], none)) =
      some (.indexed8, [0xFE], some (256, some { r := 0x00, g := 0xFF, b := 0x55, a := 0xFF })) := by decide +kernel

/-- SQ6: the flat palette does not fit. -/
theorem test_recordFlat_short : decoded ([2, 0, 2, 0] ++ zeros 12 ++ [0xFB, 0xFF, 0xFF, 0xFF] ++ zeros 1000) =
    some (.error .outOfBounds) := by decide +kernel

/-- P3's shape with one pixel: the bytes at `T + 80` as they stand. -/
theorem test_recordDirect :
    decoded ([1, 0, 1, 0] ++ zeros 12 ++ [20, 0, 0, 0] ++ [3, 0, 0, 0, 0, 0, 0, 0x10] ++ zeros 72 ++ [0x11, 0x22, 0x33, 0x44]) =
      some (.image { width := 1, height := 1, kind := .directColor, buffer := [0x11, 0x22, 0x33, 0x44], palette := none }) := by
  decide +kernel

/-- SQ16: 127 bytes where `T + 80 + 16 = 128` are needed. -/
theorem test_recordDirect_short :
    decoded ([2, 0, 2, 0] ++ zeros 12 ++ [32, 0, 0, 0] ++ zeros 12 ++ [3, 0, 0, 0, 0, 0, 0, 0x10] ++ zeros 87) =
      some (.error .outOfBounds) := by decide +kernel

/-- P1's CLUT load: `N = 16`, the palette as stored, `cur = 0xC0`. -/
theorem test_recordIndexed : nextOf (exec (.recordIndexed 0 (plainRest 0)) p1Clut) = some p1Batch := by decide +kernel

/-- SQ14's reason: with TRXREG's id byte changed to 0x152 the slot is not found and the image is blank. -/
theorem test_recordIndexed_blank :
    (nextOf (exec (.recordIndexed 0 (plainRest 0)) { p1Clut with inp := p1.set 0x59 1, width := 1, height := 1 })).map State.result =
      some (some (.image { width := 1, height := 1, kind := .directColor, buffer := [0, 0, 0, 0], palette := none })) := by
  decide +kernel

/-- P4: first-tag NLOOP 5. -/
theorem test_recordBlank :
    decoded ([2, 0, 2, 0] ++ zeros 12 ++ [32, 0, 0, 0] ++ zeros 12 ++ [5, 0, 0, 0, 0, 0, 0, 0x10] ++ zeros 8) =
      some (.image { width := 2, height := 2, kind := .directColor, buffer := zeros 16, palette := none }) := by decide +kernel

/-- P6: `T = len`. -/
theorem test_tag_offset_at_end :
    decoded ([2, 0, 2, 0] ++ zeros 12 ++ [32, 0, 0, 0] ++ zeros 12) = some (.error .outOfBounds) := by decide +kernel

/-- TP22: P1's texture batch, as a step of the scan. -/
theorem test_giftagPacked : nextOf (step p1Batch) = some p1Image := by decide +kernel

/-- TP23: with `END = c + 48` only two slots are searched; the cursor still moves by the whole packet. -/
theorem test_giftagPacked_bound :
    nextOf (exec (.giftagPacked 4 (plainRest 0)) { p1Batch with scanEnd := 0xC0 + 48 }) =
      some { p1Image with scanEnd := 0xC0 + 48, trxreg := { rrw := 0, rrh := 0 } } := by decide +kernel

/-- I7: REGLIST and the disabled FLG run as a batch. -/
theorem test_giftagReglist : nextOf (exec (.giftagReglist 4 (plainRest 0)) p1Batch) = some p1Image := by decide +kernel

theorem test_giftagDisabled : nextOf (exec (.giftagDisabled 4 (plainRest 0)) p1Batch) = some p1Image := by decide +kernel

/-- P1's trace step 4: the payload goes through the surface, words 0 and 1 first (AT1, AT2), pixel (2, 0) at word 4 (AT3). -/
theorem test_giftagImage :
    (nextOf (step p1Image)).map (fun t => (t.cur, t.phase, t.surfaceUsed)) = some (0x1A0, .transferring, true) ∧
    (nextOf (step p1Image)).map (fun t => memRead4 t.surface 4 ++ memRead4 t.surface 16) =
      some [4, 5, 6, 7, 8, 9, 10, 11] := by decide +kernel

/-- SQ19: with another format the payload is appended to LB. -/
theorem test_giftagImage_linear :
    (nextOf (step { p1Image with bitbltbuf := { dbp := 0, dbw := 1, dpsm := 0x14 } })).map (fun t =>
      (t.surfaceUsed, t.surface, t.lb)) = some (false, [], pattern 128) := by decide +kernel

/-- TP15 and TP16. -/
theorem test_adBitbltbuf :
    (nextOf (exec (.adBitbltbuf 0x0001010000000000) State.reset)).map State.bitbltbuf = some { dbp := 0x100, dbw := 1, dpsm := 0 } ∧
    (nextOf (exec (.adBitbltbuf 0xFFFFFFFFFFFFFFFF) State.reset)).map State.bitbltbuf =
      some { dbp := 0x3FFF, dbw := 0x3F, dpsm := 0x3F } := by decide

/-- TP17 and TP18. -/
theorem test_adTrxpos :
    (nextOf (exec (.adTrxpos 0x0005000300000000) State.reset)).map State.trxpos = some { dsax := 3, dsay := 5 } ∧
    (nextOf (exec (.adTrxpos 0x0FFF0FFF00000000) State.reset)).map State.trxpos = some { dsax := 0x7FF, dsay := 0x7FF } := by
  decide

/-- TP20 and TP21. -/
theorem test_adTrxreg :
    (nextOf (exec (.adTrxreg 0x0000000400000008) State.reset)).map State.trxreg = some { rrw := 8, rrh := 4 } ∧
    (nextOf (exec (.adTrxreg 0xFFFFFFFFFFFFFFFF) State.reset)).map State.trxreg = some { rrw := 0xFFF, rrh := 0xFFF } := by
  decide

/-- R76: TRXDIR and an unknown id do nothing, given on the port as slots. -/
theorem test_adTrxdir : nextOf (step { p1Idle with port := some (.slot 2 0x53) }) = some p1Idle := by decide +kernel

theorem test_adOther : nextOf (step { p1Idle with port := some (.slot 2 0x60) }) = some p1Idle := by decide +kernel

/-- R4, R118: a running transaction goes on as if the port were empty, and the request waits. -/
theorem test_request_waits :
    nextOf (step { p1Batch with port := some (.slot 0xFF 0x50) }) = some { p1Image with port := some (.slot 0xFF 0x50) } ∧
    nextOf (step { p1Batch with port := some (.op (portNums 0 [1000])) }) =
      some { p1Image with port := some (.op (portNums 0 [1000])) } := by decide +kernel

/-- TP2; TP4a: 15 bytes do not hold a tag. -/
theorem test_opParseTag :
    answer (.opParseTag 0x110) p1 = some (.tag { nloop := 8, eop := 1, flg := 2 } .image) ∧
    (nextOf (exec (.opParseTag 1) { State.reset with inp := zeros 16 })).map (fun t => (t.phase, t.result)) =
      some (.failed, some (.error .outOfBounds)) := by decide +kernel

/-- TP5 and TP7. -/
theorem test_opTotalLen : answer (.opTotalLen { nloop := 0, eop := 1, flg := 3 }) [] = some (.length 16) ∧
    answer (.opTotalLen { nloop := 0x7FFF, eop := 0, flg := 0 }) [] = some (.length 524288) := by decide

/-- TP8 and TP9. -/
theorem test_opFindReg : answer (.opFindReg 0xD0 4 0x52 416) p1 = some (.offset 0xF0) ∧
    answer (.opFindReg 0xD0 4 0x60 416) p1 = some (.offset 0) := by decide +kernel

/-- TP11, TP12 and TP13. -/
theorem test_opFindReg_bounds : answer (.opFindReg 0xD0 0 0x50 416) p1 = some (.offset 0) ∧
    answer (.opFindReg 0xD0 4 0x52 0xF0) p1 = some (.offset 0) ∧
    answer (.opFindReg 0xD0 4 0x52 0x100) p1 = some (.offset 0xF0) := by decide +kernel

/-- TP15, TP19 and TP20, on the port. -/
theorem test_opLatches :
    (nextOf (step { State.reset with phase := .failed, port := some (.op (portNums 3 [0x0001010000000000])) })).map State.bitbltbuf =
      some { dbp := 0x100, dbw := 1, dpsm := 0 } ∧
    (nextOf (step { State.reset with phase := .failed, port := some (.op (portNums 4 [0xFFFFFFFFFFFFFFFF])) })).map State.trxpos =
      some { dsax := 0x7FF, dsay := 0x7FF } ∧
    (nextOf (step { State.reset with phase := .failed, port := some (.op (portNums 5 [0x0000000400000008])) })).map State.trxreg =
      some { rrw := 8, rrh := 4 } := by decide

/-- AT27: word `0x3FFF * 2048` lies past the surface. -/
theorem test_opWritePsmct32_beyond :
    nextOf (exec (.opWritePsmct32 0x3FFF 1 0 0 1 1 [1, 2, 3, 4]) State.reset) = some { State.reset with out := .written } := by
  decide +kernel

/-- The state AT23 leaves: `pattern(128)` in an 8 × 4 rectangle. -/
def at23 : State :=
  { State.reset with surface := writePsmct32 bpUnitWords 0 1 0 0 8 4 (pattern 128) [], out := .written }

/-- AT23. -/
theorem test_opWritePsmct32 : nextOf (exec (.opWritePsmct32 0 1 0 0 8 4 (pattern 128)) State.reset) = some at23 := by
  decide +kernel

/-- AT23: READ_PSMCT32 reads it back. -/
theorem test_opReadPsmct32 :
    (nextOf (exec (.opReadPsmct32 0 1 0 0 8 4) at23)).map State.out = some (.bytes (pattern 128)) := by decide +kernel

/-- AT28: a fragment of a word is not written. -/
theorem test_write_fragment :
    readPsmct32 bpUnitWords 0 1 0 0 2 2 (writePsmct32 bpUnitWords 0 1 0 0 2 2 (pattern 10) []) = pattern 8 ++ zeros 8 := by
  decide +kernel

/-- AT26. -/
theorem test_opReadPsmt8 : (nextOf (exec (.opReadPsmt8 0 2 0 0 4 1) at23)).map State.out = some (.bytes [0, 4, 8, 0xC]) := by
  decide +kernel

/-- AT24 and AT25; three pixels leave the nibble phase at 1. -/
theorem test_opReadPsmt4 :
    (nextOf (exec (.opReadPsmt4 0 2 0 0 3 1) at23)).map (fun t => (t.out, t.odd)) = some (.bytes [0x40, 0x08], true) ∧
    (nextOf (exec (.opReadPsmt4 0 2 0 0 16 1) at23)).map State.out =
      some (.bytes [0x40, 0xC8, 0x40, 0xC8, 0x51, 0xD9, 0x51, 0xD9]) := by decide +kernel

/-- P1's palette at 0x80; FC11. -/
theorem test_opReadPalette : answer (.opReadPalette 0x80 8 2) p1 = some (.palette p1Pal) ∧
    (nextOf (exec (.opReadPalette 1 1 1) { State.reset with inp := zeros 4 })).map State.result =
      some (some (.error .outOfBounds)) := by decide +kernel

/-- One byte too few for 256 entries. -/
theorem test_opReadFlatPalette :
    (nextOf (exec (.opReadFlatPalette 1) { State.reset with inp := zeros 1024 })).map State.result =
      some (some (.error .outOfBounds)) := by decide +kernel

/-- FC4, and FC3's entries 8, 0x10 and 0x18 of `P[i] = (i, 255-i, 7i mod 256, 0x80)`. -/
theorem test_opUnswizzleClut : answer (.opUnswizzleClut p1Pal) [] = some (.palette p1Pal) ∧
    (let l := unswizzleClut ((List.range 256).map fun i =>
        { r := .ofNat 8 i, g := .ofNat 8 (255 - i), b := .ofNat 8 (7 * i), a := 0x80 })
     l[8]? = some { r := 0x10, g := 0xEF, b := 0x70, a := 0x80 } ∧ l[16]? = some { r := 0x08, g := 0xF7, b := 0x38, a := 0x80 } ∧
      l[24]? = some { r := 0x18, g := 0xE7, b := 0xA8, a := 0x80 }) := by decide +kernel

/-- FC5: index 0x1F wraps to 15. -/
theorem test_opApplyPalette :
    answer (.opApplyPalette p1Pal [0x01, 0x1F]) [] = some (.bytes [0x10, 0xEF, 0x01, 0x80, 0xF0, 0x0F, 0x0F, 0x80]) := by
  decide +kernel

/-- FC9. -/
theorem test_opExpand4 : answer (.opExpand4 [0xA5, 0x12, 0xF0, 0x00]) [] = some (.bytes [5, 0x0A, 2, 1, 0, 0x0F, 0, 0]) := by
  decide

/-- SQ2 and SQ5: the length check comes first, then the sizes, then the class. -/
theorem test_opDecode_order : decoded (zeros 19) = some (.error .outOfBounds) ∧
    decoded ([0, 0, 2, 0] ++ zeros 12 ++ [0xFF, 0xFF, 0xFF, 0xFF]) = some (.error .invalidHeader) := by decide +kernel

/-- P1, the first row of the image: indices 0 4 8 C 0 4 8 C 1 5 9 D 1 5 9 D. -/
theorem test_opDecode_p1 :
    (decoded p1).map (fun
      | .image img => (img.buffer.length, img.buffer.take 64)
      | .error _ => (0, [])) =
      some (1024, ([0, 4, 8, 12, 0, 4, 8, 12, 1, 5, 9, 13, 1, 5, 9, 13] : List Nat).flatMap fun i =>
        [.ofNat 8 (16 * i), .ofNat 8 (255 - 16 * i), .ofNat 8 i, 0x80]) := by decide +kernel

/-- AT16, AT31 and AT41. -/
theorem test_addresses : addr32 bpUnitWords 3 4 100 50 = 17944 ∧ addr8 bpUnitWords 0 2 0 2 = 33 ∧
    addr4 bpUnitWords 0 2 0 2 = 65 ∧ addr4 bpUnitWords 0 2 0 16 = 512 := by decide

/-! ### Witnesses: the hypotheses of each statement, met together, and each clause at the edge of its range -/

/-- DecodeInvertsEncode. -/
theorem witness_DecodeInvertsEncode : WellFormed (.recordBlank 5 0 (plainRest 0)) = true := by decide

/-- EncodeInvertsDecodeInRecord. -/
theorem witness_EncodeInvertsDecodeInRecord :
    (∀ p, Encoded.slot (zeros 16) ≠ .port p) ∧ decode (.slot (zeros 16)) = .ok (.adOther 0 0) :=
  ⟨(fun p h => by cases h), by decide⟩

/-- FlgSelectsPacketKind: a low half for each FLG. -/
theorem witness_FlgSelectsPacketKind :
    (0x1000000000000004#64).toNat / 2 ^ 58 % 4 = 0 ∧ (0x1400000000000004#64).toNat / 2 ^ 58 % 4 = 1 ∧
    (0x1800000000000004#64).toNat / 2 ^ 58 % 4 = 2 ∧ (0x1C00000000000004#64).toNat / 2 ^ 58 % 4 = 3 := by decide

/-- StepRunsDecodedInstruction, the two clauses of the port, and RunningTransactionIgnoresPort. -/
theorem witness_StepRunsDecodedInstruction_port :
    p1Idle.phase = .done ∧
    ({ p1Idle with port := some (.op (portNums 0 [32])) }.port = some (.op (portNums 0 [32])) ∧
      decode (.port (portNums 0 [32])) = .ok (.opParseTag 32)) ∧
    ({ p1Idle with port := some (.slot 2 0x53) }.port = some (.slot 2 0x53) ∧
      decode (.slot (slotBytes 2 0x53)) = .ok (.adTrxdir 2)) ∧
    (p1Batch.phase ≠ .done ∧ p1Batch.phase ≠ .failed) := by decide

/-- StepRunsDecodedInstruction, a tag that ends at END and a first tag. -/
theorem witness_StepRunsDecodedInstruction_tag :
    (p1Image.phase = .scanning ∧ p1Image.cur + 16 ≤ 0x120 ∧ 0x120 ≤ p1Image.inp.length ∧
      decode (.tag (bytesAt p1Image.inp p1Image.cur 16)) = .ok (.giftagImage 8 (plainRest 1))) ∧
    (p1Clut.phase = .clutLoad ∧ tagStart p1Clut.tagOff + 16 ≤ p1Clut.inp.length ∧
      decode (.firstTag (bytesAt p1Clut.inp (tagStart p1Clut.tagOff) 16)) = .ok (.recordIndexed 0 (plainRest 0))) := by
  decide +kernel

/-- StepRunsDecodedInstruction, a flat header, and a direct record's first tag that ends the record. -/
theorem witness_StepRunsDecodedInstruction_header :
    (let s : State := { State.reset with inp := zeros 20, phase := .flat }
     s.phase = .flat ∧ decode (.header (bytesAt s.inp 0 20)) = .ok (.recordFlat
       { width := 0, height := 0, unused4 := 0, recLen := 0, unused8 := 0, unused12 := 0, tagOff := 0 })) ∧
    (let s : State := { State.reset with inp := zeros 4 ++ [3] ++ zeros 15, tagOff := 4, phase := .direct }
     s.phase = .direct ∧ tagStart s.tagOff + 16 ≤ s.inp.length ∧
      decode (.firstTag (bytesAt s.inp (tagStart s.tagOff) 16)) =
        .ok (.recordDirect 0 { eop := 0, gap := 0, pre := 0, prim := 0, nreg := 0, regs := 0 })) := by decide

/-- InputReadIsCheckedLittleEndianSum: the last range that fits and the first that does not. -/
theorem witness_InputRead : 2 + 2 ≤ (zeros 4).length ∧ (zeros 4).length < 3 + 2 ∧
    valueAt [0x55, 0xFF, 0x00, 0xFF] 0 4 = 0xFF00FF55 := by decide

/-- RecordIsNeverWritten and CursorOnlyMovesForward: after the end with a request that is no DECODE, and in the scan. -/
theorem witness_noDecode :
    ((∀ r, { p1Idle with port := some (.slot 2 0x53) }.port = some r → r.isDecode = false) ∧
      ∃ t, step { p1Idle with port := some (.slot 2 0x53) } = .next t ∧ t.phase ≠ .failed) ∧
    (¬ (p1Batch.phase = .done ∨ p1Batch.phase = .failed) ∧ p1Batch.phase = .scanning ∧
      p1Batch.cur + 16 ≤ p1Batch.scanEnd) :=
  ⟨⟨(fun r h => by cases h; rfl), _, rfl, by decide +kernel⟩, by decide +kernel⟩

/-- ParseTagAnswersDescriptor at the last offset that fits and the next; a tag of either kind. -/
theorem witness_ParseTag : 400 + 16 ≤ p1Start.inp.length ∧ p1Start.inp.length < 401 + 16 ∧
    flgAt p1 0x110 = 2 ∧ flgAt p1 0xC0 = 0 := by decide +kernel

/-- FindRegAnswersFirstMatch: TP13, the slot that just fits, and TP12, none. -/
theorem witness_FindReg : 0x100 ≤ p1Start.inp.length ∧ IsFirstSlot p1 0xD0 4 0x100 0x52 0xF0 ∧ NoSlot p1 0xD0 4 0xF0 0x52 := by
  unfold IsFirstSlot NoSlot SlotMatches
  exact ⟨by decide +kernel, ⟨2, by decide +kernel⟩, by decide +kernel⟩

/-- FindRegPastRecordFails. -/
theorem witness_FindRegPast : 0 < 1 ∧ 0 + 16 ≤ 16 ∧ { State.reset with inp := zeros 15 }.inp.length < 0 + 16 := by decide

/-- RegisterBatchLatchesFirstSlots: P1's batch has all three slots; cut to two slots TRXREG is absent. -/
theorem witness_RegisterBatch : p1Batch.scanEnd ≤ p1Batch.inp.length ∧
    IsFirstSlot p1 (p1Batch.cur + 16) 4 p1Batch.scanEnd 0x50 0xD0 ∧
    IsFirstSlot p1 (p1Batch.cur + 16) 4 p1Batch.scanEnd 0x51 0xE0 ∧
    IsFirstSlot p1 (p1Batch.cur + 16) 4 p1Batch.scanEnd 0x52 0xF0 ∧ NoSlot p1 (p1Batch.cur + 16) 4 (0xC0 + 48) 0x52 ∧
    NoSlot p1 (p1Batch.cur + 16) 4 0xD0 0x50 ∧ NoSlot p1 (p1Batch.cur + 16) 4 0xE0 0x51 := by
  unfold IsFirstSlot NoSlot SlotMatches
  exact ⟨by decide +kernel, ⟨0, by decide +kernel⟩, ⟨1, by decide +kernel⟩, ⟨2, by decide +kernel⟩, by decide +kernel,
    by decide +kernel, by decide +kernel⟩

/-- DiscardedFieldsChangeNothing: slot values that differ in every bit no latch takes. -/
theorem witness_Discarded :
    (0#64 &&& 0x3F3F3FFF00000000 = 0xC0C0C000FFFFFFFF#64 &&& 0x3F3F3FFF00000000) ∧
    (0#64 &&& 0x07FF07FF00000000 = 0xF800F800FFFFFFFF#64 &&& 0x07FF07FF00000000) ∧
    (0#64 &&& 0x00000FFF00000FFF = 0xFFFFF000FFFFF000#64 &&& 0x00000FFF00000FFF) := by decide

/-- AddressBijectiveWithinPage, BlocksAreRunsOfSixtyFourWords: the last pixel of the page (AT11, AT33, AT43) and two pixels
of one block. -/
theorem witness_AddressPage : addr32 bpUnitWords 0 1 63 31 = 2047 ∧ addr8 bpUnitWords 0 2 127 63 = 8191 ∧
    addr4 bpUnitWords 0 2 127 127 = 16383 ∧ addr32 bpUnitWords 0 1 0 0 / 64 = addr32 bpUnitWords 0 1 7 7 / 64 := by decide

/-- AddressInjectiveWithinBufferWidth: the last column of a buffer, against itself. -/
theorem witness_AddressInjective : 639 < 64 * 10 ∧ addr32 bpUnitWords 0 10 639 447 = 286719 ∧ 127 < 128 * (2 / 2) := by decide

/-- WriteScattersPixels: AT29a's last write wins. Pixel 32 shares word 0 with pixel 0 and no later pixel follows it; byte 4 of
the surface lies outside every written word. -/
theorem witness_WriteScatters :
    Memory.wf State.reset.surface ∧ PixelWritten 0 0 0 0 1 33 132 32 ∧
    (∀ j, 32 < j → PixelWritten 0 0 0 0 1 33 132 j → pixelByte 0 0 0 0 1 j ≠ pixelByte 0 0 0 0 1 32) ∧
    pixelByte 0 0 0 0 1 32 = pixelByte 0 0 0 0 1 0 ∧
    (∀ k, PixelWritten 0 0 0 0 1 33 132 k → 4 < pixelByte 0 0 0 0 1 k ∨ pixelByte 0 0 0 0 1 k + 4 ≤ 4) := by
  unfold PixelWritten
  refine ⟨by decide, by decide +kernel, fun j h1 h2 => absurd h2.1 (by omega), by decide +kernel, fun k hk => ?_⟩
  have : ∀ k < 33, 4 < pixelByte 0 0 0 0 1 k ∨ pixelByte 0 0 0 0 1 k + 4 ≤ 4 := by decide +kernel
  exact this k (by omega)

/-- WriteBeyondSurfaceIsDropped: the first base that lies past the surface. -/
theorem witness_WriteBeyond : 512 ≤ (512#14).toNat ∧ 512 * bpUnitWords * 4 = surfaceBytes := by decide

/-- ReadPsmct32InvertsWrite: AT23's rectangle, whole and inside the surface. -/
theorem witness_ReadInvertsWrite : Memory.wf State.reset.surface ∧ (pattern 128).length = 4 * ((8#12).toNat * (4#12).toNat) ∧
    (0#11).toNat + (8#12).toNat ≤ 64 * (1#6).toNat ∧
    ∀ k, k < (8#12).toNat * (4#12).toNat → pixelByte (0#14).toNat (1#6).toNat (0#11).toNat (0#11).toNat (8#12).toNat k + 4 ≤ surfaceBytes := by
  decide +kernel

/-- ReadPsmct32GathersWords, ReadPsmt8GathersBytes: the last byte inside the surface and the first beyond it. -/
theorem witness_ReadEdge : pixelByte 511 1 63 31 1 0 + 3 = surfaceBytes - 1 ∧ pixelByte 512 1 0 0 1 0 = surfaceBytes ∧
    addr8 bpUnitWords 511 2 127 63 = surfaceBytes - 1 ∧ addr8 bpUnitWords 512 2 0 0 = surfaceBytes := by decide

/-- ReadPsmt4PacksNibbles: an odd count of pixels and an even one, whose last pixels are 2 and 15. -/
theorem witness_ReadPsmt4 : 3 * 1 % 2 = 1 ∧ 2 < 3 * 1 ∧ 16 * 1 % 2 = 0 ∧ 15 < 16 * 1 := by decide

/-- ReadPaletteAnswersStoredEntries, ReadFlatPaletteAnswersArgbWords: the last range that fits and the first that does not;
no entries at the record's end, and, for ReadEmptyPalettePastRecordFails, past it. -/
theorem witness_ReadPalette : (416 + 4 * (0 * 2) ≤ p1.length ∧ 0 * 2 = 0 ∧ p1.length < 417 ∧ 0 < 8 * 2) ∧ 352 + 4 * (8 * 2) ≤ p1.length ∧ p1.length < 353 + 4 * (8 * 2) ∧
    (let s : State := { State.reset with inp := zeros 1044 }
     20 + 1024 ≤ s.inp.length ∧ s.inp.length < 21 + 1024) := by decide +kernel

/-- UnswizzleSwapsBitsThreeAndFour, UnswizzleIsInvolution, ApplyPaletteTakesIndexModuloCount: palettes of both sizes. -/
theorem witness_palettes : p1Pal.length = 16 ∧ (List.replicate 256 noColor).length = 256 ∧ 0 < p1Pal.length ∧
    [noColor].length ≠ 256 := by decide +kernel

/-- HeaderStepChecksAndLatches: a short header, a zero size, and P1's. -/
theorem witness_HeaderStep :
    (p1Start.phase = .header ∧ valueAt p1 16 4 = 32 ∧ (32 : Int) + 16 ≤ p1.length ∧ 20 ≤ p1Start.inp.length ∧ valueAt p1 0 2 ≠ 0 ∧ valueAt p1 2 2 ≠ 0) ∧
    (zeros 19).length < 20 ∧ (20 ≤ (zeros 20).length ∧ valueAt (zeros 20) 0 2 = 0) ∧
    (20 ≤ (p1.take 47).length ∧ valueAt (p1.take 47) 0 2 ≠ 0 ∧ valueAt (p1.take 47) 2 2 ≠ 0 ∧
      valueAt (p1.take 47) 16 4 = 32 ∧ ((p1.take 47).length : Int) < 32 + 16) := by decide +kernel

/-- FirstTagSelectsClass: the flat class at `T = -5` and `T = 0`, a first tag that ends with the record or one byte past it, and
the three values of NLOOP. -/
theorem witness_FirstTagSelectsClass :
    (let r := [2, 0, 2, 0] ++ zeros 12 ++ [0xFB, 0xFF, 0xFF, 0xFF]
     20 ≤ r.length ∧ valueAt r 0 2 ≠ 0 ∧ valueAt r 2 2 ≠ 0 ∧ 2 ^ 31 ≤ valueAt r 16 4 ∧ (valueAt r 16 4 : Int) - 2 ^ 32 = -5) ∧
    (let r : List Byte := [2, 0, 2, 0] ++ zeros 12 ++ [20, 0, 0, 0] ++ [5] ++ zeros 15
     valueAt r 0 2 ≠ 0 ∧ valueAt r 2 2 ≠ 0 ∧ valueAt r 16 4 = 20 ∧ (20 : Int) + 16 ≤ r.length ∧ nloopAt r 20 = 5) ∧
    (let r : List Byte := [2, 0, 2, 0] ++ zeros 12 ++ [20, 0, 0, 0] ++ [5] ++ zeros 14
     valueAt r 0 2 ≠ 0 ∧ valueAt r 2 2 ≠ 0 ∧ valueAt r 16 4 = 20 ∧ (r.length : Int) < 20 + 16) ∧
    (let r : List Byte := [2, 0, 2, 0] ++ zeros 12 ++ [20, 0, 0, 0] ++ [3] ++ zeros 15
     valueAt r 16 4 = 20 ∧ nloopAt r 20 = 3) ∧
    (valueAt p1 16 4 = 32 ∧ (32 : Int) + 16 ≤ p1.length ∧ nloopAt p1 32 = 4) := by decide +kernel

/-- FlatRecordGivesIndexedImage, DirectRecordCopiesPixels: the shortest record that holds the pixels, and one byte less. -/
theorem witness_FlatDirect :
    (let s : State := { State.reset with inp := zeros 1048, width := 2, height := 2 }
     1044 + s.width.toNat * s.height.toNat ≤ s.inp.length ∧ 1047 < 1044 + s.width.toNat * s.height.toNat) ∧
    (let s : State := { State.reset with inp := zeros 128, width := 2, height := 2, tagOff := 32 }
     0 < s.tagOff.toInt ∧ s.tagOff.toNat + 80 + 4 * (s.width.toNat * s.height.toNat) ≤ s.inp.length ∧
      127 < s.tagOff.toNat + 80 + 4 * (s.width.toNat * s.height.toNat)) := by decide +kernel

/-- ValidFlatRecordDecodes (`T = 0` and the least negative `T` as stored), DirectAndBlankRecordsDecode: the shortest records. -/
theorem witness_decode_classes :
    (let r : List Byte := [1, 0, 1, 0] ++ zeros 1041
     0 < valueAt r 0 2 ∧ 0 < valueAt r 2 2 ∧ valueAt r 16 4 = 0 ∧ 1044 + valueAt r 0 2 * valueAt r 2 2 ≤ r.length) ∧
    2 ^ 31 ≤ valueAt (zeros 19 ++ [0x80]) 16 4 ∧
    (let r : List Byte := [1, 0, 1, 0] ++ zeros 12 ++ [20, 0, 0, 0, 3] ++ zeros 83
     0 < valueAt r 0 2 ∧ 0 < valueAt r 2 2 ∧ valueAt r 16 4 = 20 ∧ 20 + 16 ≤ r.length ∧ nloopAt r 20 = 3 ∧
      20 + 80 + 4 * (valueAt r 0 2 * valueAt r 2 2) ≤ r.length) ∧
    (let r : List Byte := [1, 0, 1, 0] ++ zeros 12 ++ [20, 0, 0, 0, 5] ++ zeros 15
     0 < valueAt r 0 2 ∧ 0 < valueAt r 2 2 ∧ valueAt r 16 4 = 20 ∧ 20 + 16 ≤ r.length ∧ nloopAt r 20 = 5) := by
  decide +kernel

/-- IndexedRecordLoadsPalette: P1's TRXREG slot; the same record with another id there; the palette's range at its edge. -/
theorem witness_IndexedRecord : 0 < p1Clut.tagOff.toInt ∧
    IsFirstSlot p1 (p1Clut.tagOff.toNat + 16) 4 p1.length 0x52 0x50 ∧
    NoSlot (p1.set 0x59 1) (p1Clut.tagOff.toNat + 16) 4 p1.length 0x52 ∧
    valueAt p1 0x50 8 % 2 ^ 12 * (valueAt p1 0x50 8 / 2 ^ 32 % 2 ^ 12) = 16 ∧
    p1Clut.tagOff.toNat + 96 + 4 * 16 ≤ (p1.take 0xC0).length ∧ (p1.take 0xBF).length < p1Clut.tagOff.toNat + 96 + 4 * 16 := by
  unfold IsFirstSlot NoSlot SlotMatches
  exact ⟨by decide +kernel, ⟨2, by decide +kernel⟩, by decide +kernel, by decide +kernel, by decide +kernel, by decide +kernel⟩

/-- SequencerMovesWithoutInstruction: 15 bytes are left before END. -/
theorem witness_SequencerMoves : p1Batch.phase = .scanning ∧ 0xC0 + 15 < p1Batch.cur + 16 ∧
    { p1Batch with phase := .transferring }.phase = .transferring ∧ p1Idle.phase = .done ∧ p1Idle.port = none := by decide

/-- A record of two image packets without payload at 0 and 16, the second of NLOOP 1. -/
def twoImages : List Byte := zeros 7 ++ [8] ++ zeros 8 ++ [1] ++ zeros 6 ++ [8] ++ zeros 24

/-- ImagePacketTransfersPayload: P1's packet, whose payload ends the record; the same one byte short; a joined packet that
just lies below END; the same one payload byte short. -/
theorem witness_ImagePacket :
    (p1Image.scanEnd ≤ p1Image.inp.length ∧ p1Image.cur + 16 + 16 * 8 = p1Image.inp.length ∧
      p1Image.scanEnd < p1Image.cur + 16 + 16 * 8 + 16) ∧
    (p1.take 415).length < p1Image.cur + 16 + 16 * 8 ∧
    (0 + 16 + 16 * 0 + 16 ≤ 32 ∧ 32 ≤ twoImages.length ∧ flgAt twoImages 16 = 2 ∧ nloopAt twoImages 16 = 1 ∧
      16 + 16 + 16 * 1 ≤ twoImages.length ∧ (twoImages.take 47).length < 16 + 16 + 16 * 1) := by decide +kernel

/-- ReadbackColorsEveryPixel: 16 entries with the surface used and without, and 256 entries; pixel (15, 15) is in each. -/
theorem witness_Readback :
    (let s : State := { p1Batch with phase := .readback, surfaceUsed := true }
     s.phase = .readback ∧ s.pal.length = 16 ∧ s.surfaceUsed = true ∧ 15 < s.width.toNat ∧ 15 < s.height.toNat) ∧
    (let s : State := { p1Batch with phase := .readback, lb := pattern 128 }
     s.phase = .readback ∧ s.pal.length = 16 ∧ s.surfaceUsed = false ∧ nibbleOf s.lb (15 * 16 + 15) = 7) ∧
    (let s : State := { p1Batch with phase := .readback, pal := List.replicate 256 noColor }
     s.phase = .readback ∧ s.pal.length = 256) := by decide +kernel

/-- The states of a scan meet the invariant. -/
theorem p1Image_inv : p1Image.Inv where
  surface := by decide
  scanEnd := by decide +kernel
  result := trivial
  sizes := fun _ => by decide
  palette := fun _ => Or.inl (by decide +kernel)
  cursorBefore := by decide
  cursorAfter := fun _ => by decide

/-- StepKeepsInvariant, CursorOnlyMovesForward: a step of P1's scan. -/
theorem witness_StepKeepsInvariant : p1Image.Inv ∧ ∃ t, step p1Image = .next t ∧ t.phase = .transferring :=
  ⟨p1Image_inv, _, step_sequencer (.inl rfl), by decide +kernel⟩

/-- P1 cut by one byte (SQ20's case). -/
def p1Short : State := { p1Image with inp := p1.take 415, scanEnd := 415 }

/-- ScanFailsOnlyOnImagePayload, ErrorDiscardsTransaction: the image packet's own payload leaves the record. -/
theorem witness_ScanFails : p1Short.Inv ∧ p1Short.phase = .scanning ∧
    ∃ t, step p1Short = .next t ∧ t.phase = .failed :=
  ⟨{ surface := by decide, scanEnd := by decide +kernel, result := trivial, sizes := fun _ => by decide, palette := fun _ => Or.inl (by decide +kernel),
     cursorBefore := by decide, cursorAfter := fun _ => by decide }, rfl, _, step_sequencer (.inl rfl),
    by decide +kernel⟩

/-- Two image packets at 97 and 113 of a record one byte shorter than the second one's payload, the second just below END. -/
def joinShort : State :=
  { p1Batch with inp := zeros 97 ++ twoImages.take 47, tagOff := 1, cur := 97, scanEnd := 129 }

/-- ScanFailsOnlyOnImagePayload: the joined payload leaves the record, the packet's own does not. -/
theorem witness_ScanFails_joined : joinShort.Inv ∧ joinShort.phase = .scanning ∧
    (∃ t, step joinShort = .next t ∧ t.phase = .failed) ∧ 97 + 16 + 16 * nloopAt joinShort.inp 97 = 113 ∧
    113 ≤ joinShort.inp.length ∧ 113 + 16 ≤ joinShort.scanEnd ∧ flgAt joinShort.inp 113 = 2 :=
  ⟨{ surface := by decide, scanEnd := by decide +kernel, result := trivial, sizes := fun _ => by decide,
     palette := fun _ => Or.inl (by decide +kernel), cursorBefore := by decide, cursorAfter := fun _ => by decide },
    rfl, ⟨_, step_sequencer (.inl rfl), by decide +kernel⟩, by decide +kernel⟩

/-- ErrorDiscardsTransaction, its other clauses: an instruction that raises outside phase Failed, and the four operations on a
record of 15 bytes. -/
theorem witness_ErrorDiscards :
    (∀ record, Instr.opParseTag 401 ≠ .opDecode record) ∧ p1Idle.phase ≠ .failed ∧
    (∃ t, exec (.opParseTag 401) p1Idle = .next t ∧ t.phase = .failed) ∧
    (let s : State := { State.reset with inp := zeros 15 }
     s.inp.length < 0 + 16 ∧ 0 < 1 ∧ 0 + 16 ≤ 16 ∧ s.inp.length < 0 + 4 * (4 * 1) ∧ s.inp.length < 0 + 1024) :=
  ⟨(fun record h => by cases h), by decide, ⟨p1Idle.raise (.outOfBounds 409 8), by
    rw [exec, execOpParseTag]
    have : parseTag p1Idle.inp 401 = .error (.outOfBounds 409 8) := by
      rw [parseTag, fetchTag, inQuad_of_le (by decide +kernel), inQuad_of_lt (by decide +kernel)]
    rw [this], rfl⟩, by decide⟩

/-- InstructionsKeepSurfaceCanonical: a memory with one byte listed, and a store. -/
theorem witness_InstructionsKeepSurface : Memory.wf [(5, 1#8)] ∧
    ∃ t, exec (.opWritePsmct32 0 1 0 0 1 1 [1, 2, 3, 4]) { State.reset with surface := [(5, 1#8)] } = .next t ∧
      t.surface = [(0, 1#8), (1, 2#8), (2, 3#8), (3, 4#8), (5, 1#8)] :=
  ⟨by decide, _, rfl, by decide +kernel⟩

end Sys2Proof.Tests
end

