-- ==== Sys2Proof/Proofs/Reset.lean ====
section
/-! The reset values of 10_state.md R30. -/

namespace Sys2Proof.Machine

/-- An empty listing reads 0 everywhere: inside the surface no byte is listed, outside it every read is 0 (R37). -/
@[simp] theorem memRead_nil (a : Nat) : memRead [] a = 0#8 := by
  unfold memRead
  split
  · exact Memory.get_eq_zero_of_lt (List.forall_mem_nil _)
  · rfl

/-- No surface byte is set at reset. -/
theorem memRead_reset_surface (a : Nat) : memRead State.reset.surface a = 0#8 := memRead_nil a

/-- Settles O49: each register, latch field and flag is the constant `State.reset` writes; the surface, given there as an
empty listing, reads 0 at every address. -/
theorem resetLeavesRuleValues : Obligations.ResetLeavesRuleValues := by
  unfold Obligations.ResetLeavesRuleValues
  refine ⟨State.reset, rfl, ?cur, ?scanEnd, ?width, ?height, ?recLen, ?tagOff, ?phase, ?dbp, ?dbw, ?dpsm, ?dsax, ?dsay,
    ?rrw, ?rrh, ?surface, ?pal, ?surfaceUsed, ?lb, ?odd, ?result⟩
  case surface => exact memRead_reset_surface
  all_goals rfl

end Sys2Proof.Machine
end

