-- ==== Sys2Proof/Proofs/RecordFrame.lean ====
section
/-! The record's frame (20_memory.md R35): what leaves `In` alone, from the sequencer's operations up to a step. -/

namespace Sys2Proof.Machine

/-- The transaction has ended in one of two phases (R18). -/
theorem Phase.isFinal_iff {p : Phase} : p.isFinal = true ↔ p = .done ∨ p = .failed := by
  cases p <;> simp [Phase.isFinal]

/-! ### The sequencer's operations -/

/-- An error keeps the record (R115), so only the good outcome has to. -/
theorem orRaise_inp {s : State} {r : Except Raise State} (h : ∀ t, r = .ok t → t.inp = s.inp) :
    (orRaise s r).inp = s.inp := by
  rcases orRaise_cases s r with ⟨t, hr, ht⟩ | ⟨e, _, he⟩
  · rw [ht]; exact h t hr
  · rw [he]; exact State.raise_inp e s

@[simp] theorem transfer_inp (payload : List Byte) (s : State) : (transfer payload s).inp = s.inp := by
  rcases transfer_cases payload s with ⟨_, ht⟩ | ⟨_, ht⟩ <;> rw [ht]

@[simp] theorem blankStep_inp (s : State) : (blankStep s).inp = s.inp := rfl

@[simp] theorem readback_inp (s : State) : (readback s).inp = s.inp := rfl

theorem orRaise_regBatch_inp (nloop : BitVec 15) (s : State) : (orRaise s (regBatch nloop s)).inp = s.inp := by
  refine orRaise_inp fun t h => ?_
  obtain ⟨_, _, _, rfl⟩ := regBatch_ok h
  rfl

theorem orRaise_imageStep_inp (nloop : BitVec 15) (s : State) : (orRaise s (imageStep nloop s)).inp = s.inp := by
  refine orRaise_inp fun t h => ?_
  obtain ⟨d, _, _, rfl⟩ := imageStep_ok h
  exact transfer_inp d s

theorem orRaise_flatStep_inp (s : State) : (orRaise s (flatStep s)).inp = s.inp := by
  refine orRaise_inp fun t h => ?_
  obtain ⟨_, _, _, rfl⟩ := flatStep_ok h
  rfl

theorem orRaise_directStep_inp (s : State) : (orRaise s (directStep s)).inp = s.inp := by
  refine orRaise_inp fun t h => ?_
  obtain ⟨_, rfl⟩ := directStep_ok h
  rfl

theorem orRaise_clutStep_inp (s : State) : (orRaise s (clutStep s)).inp = s.inp := by
  refine orRaise_inp fun t h => ?_
  rcases clutStep_ok h with rfl | ⟨_, _, _, rfl⟩ <;> rfl

theorem headerStep_inp {s t : State} (h : headerStep s = .ok t) : t.inp = s.inp := by
  obtain ⟨_, _, _, rfl⟩ := headerStep_ok h
  rfl

/-- The state a class selection goes on from, whether it enters a phase or finds a blank record. -/
def Selected.state : Selected → State
  | .enter s => s
  | .blank _ _ s => s

theorem selectClass_inp {s : State} {x : Selected} (h : selectClass s = .ok x) : x.state.inp = s.inp := by
  rcases selectClass_ok h with ⟨_, rfl⟩ | ⟨_, _, ⟨_, rfl⟩ | ⟨_, rfl⟩ | ⟨_, _, rfl⟩⟩ <;> rfl

theorem openRecord_inp {s : State} {x : Selected} (h : openRecord s = .ok x) : x.state.inp = s.inp := by
  unfold openRecord at h
  split at h
  case h_1 => cases h
  case h_2 s' hs => exact (selectClass_inp h).trans (headerStep_inp hs)

/-! ### A step of the sequencer -/

theorem classStep_inp (nloop : BitVec 15) (s : State) : (classStep nloop s).inp = s.inp := by
  unfold classStep
  split_ifs
  · exact orRaise_directStep_inp s
  · exact orRaise_clutStep_inp s
  · exact blankStep_inp s

theorem packetStep_inp (lo : Quad) (s : State) : (packetStep lo s).inp = s.inp := by
  unfold packetStep
  split_ifs
  · exact orRaise_imageStep_inp _ s
  · exact orRaise_regBatch_inp _ s

theorem seqStep_inp (s : State) : (seqStep s).inp = s.inp := by
  unfold seqStep
  cases s.phase with
  | header =>
    cases ho : openRecord s with
    | error e => exact State.raise_inp e s
    | ok x =>
      cases x with
      | enter s' => exact openRecord_inp ho
      | blank lo hi s' => exact openRecord_inp ho
  | flat => exact orRaise_flatStep_inp s
  | direct => exact classStep_inp _ s
  | clutLoad => exact classStep_inp _ s
  | scanning =>
    dsimp only
    split_ifs
    · rfl
    · cases fetchTag s.inp s.cur with
      | error e => exact State.raise_inp e s
      | ok q => exact packetStep_inp q.1 s
  | transferring => rfl
  | readback => exact readback_inp s
  | done => rfl
  | failed => rfl

/-! ### The operations of the port that read the record -/

theorem execOpParseTag_eq (a : Nat) (s : State) :
    execOpParseTag a s = .next (orRaise s ((parseTag s.inp a).map fun t => s.answer (.tag t t.kind))) := by
  unfold execOpParseTag
  cases parseTag s.inp a <;> rfl

theorem execOpFindReg_eq (scanStart loopCount : Nat) (registerId : Quad) (bound : Nat) (s : State) :
    execOpFindReg scanStart loopCount registerId bound s =
      .next (orRaise s ((findReg s.inp registerId bound loopCount scanStart).map fun o => s.answer (.offset o))) := by
  unfold execOpFindReg
  cases findReg s.inp registerId bound loopCount scanStart <;> rfl

theorem execOpReadPalette_eq (p w h : Nat) (s : State) :
    execOpReadPalette p w h s = .next (orRaise s ((readPalette s.inp p w h).map fun pal => s.answer (.palette pal))) := by
  unfold execOpReadPalette
  cases readPalette s.inp p w h <;> rfl

theorem execOpReadFlatPalette_eq (p : Nat) (s : State) :
    execOpReadFlatPalette p s = .next (orRaise s ((readFlatPalette s.inp p).map fun pal => s.answer (.palette pal))) := by
  unfold execOpReadFlatPalette
  cases readFlatPalette s.inp p <;> rfl

theorem orRaise_answer_inp {α : Type} (s : State) (r : Except Raise α) (o : α → PortOut) :
    (orRaise s (r.map fun v => s.answer (o v))).inp = s.inp := by
  cases r with
  | error e => exact State.raise_inp e s
  | ok v => exact State.answer_inp (o v) s

/-! ### An instruction -/

/-- Every instruction but DECODE leaves the record alone: the packets and classes are the sequencer's operations, and
what a slot or an operation of the port writes is a latch, the surface, the answer or the error. -/
theorem exec_inp {i : Instr} {s t : State} (hi : ∀ record, i ≠ .opDecode record) (h : exec i s = .next t) :
    t.inp = s.inp := by
  cases i with
  | recordFlat hd => cases h; exact orRaise_flatStep_inp s
  | recordDirect flg rest => cases h; exact orRaise_directStep_inp s
  | recordIndexed flg rest => cases h; exact orRaise_clutStep_inp s
  | recordBlank nloop flg rest => cases h; exact blankStep_inp s
  | giftagPacked nloop rest => cases h; exact orRaise_regBatch_inp nloop s
  | giftagReglist nloop rest => cases h; exact orRaise_regBatch_inp nloop s
  | giftagImage nloop rest => cases h; exact orRaise_imageStep_inp nloop s
  | giftagDisabled nloop rest => cases h; exact orRaise_regBatch_inp nloop s
  | opParseTag a =>
    rw [exec, execOpParseTag_eq] at h
    cases h
    exact orRaise_answer_inp s _ _
  | opFindReg scanStart loopCount registerId bound =>
    rw [exec, execOpFindReg_eq] at h
    cases h
    exact orRaise_answer_inp s _ _
  | opReadPalette p w n =>
    rw [exec, execOpReadPalette_eq] at h
    cases h
    exact orRaise_answer_inp s _ _
  | opReadFlatPalette p =>
    rw [exec, execOpReadFlatPalette_eq] at h
    cases h
    exact orRaise_answer_inp s _ _
  | opDecode record => exact absurd rfl (hi record)
  | _ => cases h; rfl

/-! ### A request of the port -/

/-- Only code 15 of the port is DECODE (30_encoding.md R68). -/
theorem decodePort_eq_opDecode {p : PortOp} {record : List Byte} (h : decodePort p = .opDecode record) :
    p.code = 15#4 := by
  have hlt := p.code.isLt
  unfold decodePort at h
  split at h
  case h_16 =>
    have hcode : p.code.toNat = 15 := by grind
    exact BitVec.eq_of_toNat_eq hcode
  all_goals cases h

/-- No register slot is DECODE (R57, R58). -/
theorem decodeSlot_ne_opDecode (v id : Quad) (record : List Byte) : decodeSlot v id ≠ .opDecode record := by
  unfold decodeSlot
  split_ifs <;> exact Instr.noConfusion

theorem decodeRequest_ne_opDecode {r : Request} (hr : r.isDecode = false) (record : List Byte) :
    decodeRequest r ≠ .opDecode record := by
  cases r with
  | op p =>
    intro h
    rw [Request.isDecode, decodePort_eq_opDecode h] at hr
    cases hr
  | slot v id => exact decodeSlot_ne_opDecode v id record

/-! ### A step of the machine -/

/-- Settles O8: with a request taken off the port the step is an instruction that is no DECODE, in every other state it is a
step of the sequencer. -/
theorem recordIsNeverWritten : Obligations.RecordIsNeverWritten := by
  intro s t hnd h
  cases hf : s.phase.isFinal with
  | false =>
    rw [step_sequencer (.inl hf)] at h
    cases h
    exact seqStep_inp s
  | true =>
    cases hport : s.port with
    | none =>
      rw [step_sequencer (.inr hport)] at h
      cases h
      exact seqStep_inp s
    | some r =>
      have hend : s.phase = .done ∨ s.phase = .failed := Phase.isFinal_iff.1 hf
      rw [step_request hf hport] at h
      calc t.inp = s.consume.inp := exec_inp (decodeRequest_ne_opDecode (hnd hend r hport)) h
        _ = s.inp := State.consume_inp s

end Sys2Proof.Machine
end

