-- ==== Sys2Proof/Proofs/PacketKind.lean ====
section
/-! The kind of a packet (30_encoding.md R55): FLG read as a number, and what each of its values decodes to. -/

namespace Sys2Proof.Machine

/-! ### The selecting fields of a tag, as numbers (R54) -/

theorem tagNloop_eq_mod (lo : Quad) : (tagNloop lo).toNat = lo.toNat % 2 ^ 15 := by
  simpa using tagNloop_ofNat lo.toNat

theorem tagFlg_eq_iff (lo : Quad) (k : BitVec 2) : tagFlg lo = k ↔ lo.toNat / 2 ^ 58 % 4 = k.toNat := by
  rw [← BitVec.toNat_inj, ← tagFlg_ofNat lo.toNat, BitVec.ofNat_toNat, BitVec.setWidth_eq]

/-! ### The kind -/

theorem kind_tagDescriptor_of_image {lo : Quad} (h : tagFlg lo = flgImage) : (tagDescriptor lo).kind = .image :=
  if_pos h

theorem kind_tagDescriptor_of_ne_image {lo : Quad} (h : tagFlg lo ≠ flgImage) :
    (tagDescriptor lo).kind = .registerBatch :=
  if_neg h

/-! ### The four rows of R55 -/

theorem decodeTag_of_flg_zero {lo : Quad} (hi : Quad) (h : tagFlg lo = 0#2) :
    decodeTag lo hi = .giftagPacked (tagNloop lo) (tagRest lo hi) := by
  rw [decodeTag, if_pos h]

theorem decodeTag_of_flg_one {lo : Quad} (hi : Quad) (h : tagFlg lo = 1#2) :
    decodeTag lo hi = .giftagReglist (tagNloop lo) (tagRest lo hi) := by
  rw [decodeTag, h, if_neg (by decide), if_pos rfl]

theorem decodeTag_of_flg_image {lo : Quad} (hi : Quad) (h : tagFlg lo = flgImage) :
    decodeTag lo hi = .giftagImage (tagNloop lo) (tagRest lo hi) := by
  rw [decodeTag, h, if_neg (by decide), if_neg (by decide), if_pos rfl]

theorem decodeTag_of_flg_three {lo : Quad} (hi : Quad) (h : tagFlg lo = 3#2) :
    decodeTag lo hi = .giftagDisabled (tagNloop lo) (tagRest lo hi) := by
  rw [decodeTag, h, if_neg (by decide), if_neg (by decide), if_neg (by decide)]

/-- Settles O4: one row of R55 for each value of FLG; the kind asks only whether FLG is 2. -/
theorem flgSelectsPacketKind : Obligations.FlgSelectsPacketKind := by
  intro lo hi
  refine ⟨tagNloop lo, tagRest lo hi, tagNloop_eq_mod lo, fun h => ?packed, fun h => ?reglist, fun h => ?image,
    fun h => ?disabled⟩
  case packed =>
    have hflg : tagFlg lo = 0#2 := (tagFlg_eq_iff lo 0#2).2 h
    exact ⟨decodeTag_of_flg_zero hi hflg, kind_tagDescriptor_of_ne_image (by rw [hflg]; decide)⟩
  case reglist =>
    have hflg : tagFlg lo = 1#2 := (tagFlg_eq_iff lo 1#2).2 h
    exact ⟨decodeTag_of_flg_one hi hflg, kind_tagDescriptor_of_ne_image (by rw [hflg]; decide)⟩
  case image =>
    have hflg : tagFlg lo = flgImage := (tagFlg_eq_iff lo flgImage).2 h
    exact ⟨decodeTag_of_flg_image hi hflg, kind_tagDescriptor_of_image hflg⟩
  case disabled =>
    have hflg : tagFlg lo = 3#2 := (tagFlg_eq_iff lo 3#2).2 h
    exact ⟨decodeTag_of_flg_three hi hflg, kind_tagDescriptor_of_ne_image (by rw [hflg]; decide)⟩

end Sys2Proof.Machine
end

