-- ==== Sys2Proof/Proofs/RecordClass.lean ====
section
/-! From phase Header to the record class (30_encoding.md R53, 43_sequencer.md R98 to R101): the header's fields in the
arithmetic of R32, then the class by `T` and the first tag. -/

namespace Sys2Proof.Machine

/-! ### The latched header -/

theorem fieldAt_of_le (w : Nat) {inp : List Byte} {a n : Nat} (h : a + n ≤ inp.length) :
    fieldAt w inp a n = .ofNat w (valueAt inp a n) :=
  congrArg (BitVec.ofNat w) (leNat_bytesAt h)

@[simp] theorem State.headerLatched_inp (s : State) : s.headerLatched.inp = s.inp := rfl

/-- A two-byte field loses nothing in its latch. -/
theorem toNat_ofNat_valueAt_two {inp : List Byte} {a : Nat} (h : a + 2 ≤ inp.length) :
    (BitVec.ofNat 16 (valueAt inp a 2)).toNat = valueAt inp a 2 :=
  Nat.mod_eq_of_lt (valueAt_lt h)

theorem State.headerLatched_tagOff_toInt {s : State} (h : 20 ≤ s.inp.length) :
    s.headerLatched.tagOff.toInt =
      if valueAt s.inp 16 4 < 2 ^ 31 then (valueAt s.inp 16 4 : Int) else (valueAt s.inp 16 4 : Int) - 2 ^ 32 := by
  have hlt : valueAt s.inp 16 4 < 2 ^ 32 := valueAt_lt h
  have hv : s.headerLatched.tagOff.toNat = valueAt s.inp 16 4 := Nat.mod_eq_of_lt hlt
  rw [BitVec.toInt_eq_toNat_cond, hv]
  split_ifs <;> omega

/-- A header that is whole and declares no zero size passes R99's checks. -/
theorem headerStep_of_valid {s : State} (hlen : 20 ≤ s.inp.length) (hw : valueAt s.inp 0 2 ≠ 0)
    (hh : valueAt s.inp 2 2 ≠ 0) : headerStep s = .ok s.headerLatched := by
  have hwidth : (headerOf s.inp).width = .ofNat 16 (valueAt s.inp 0 2) := fieldAt_of_le 16 (by omega)
  have hheight : (headerOf s.inp).height = .ofNat 16 (valueAt s.inp 2 2) := fieldAt_of_le 16 (by omega)
  have hrecLen : (headerOf s.inp).recLen = .ofNat 16 (valueAt s.inp 6 2) := fieldAt_of_le 16 (by omega)
  have htagOff : (headerOf s.inp).tagOff = .ofNat 32 (valueAt s.inp 16 4) := fieldAt_of_le 32 (by omega)
  have ne_zero : ∀ a, a + 2 ≤ s.inp.length → valueAt s.inp a 2 ≠ 0 → BitVec.ofNat 16 (valueAt s.inp a 2) ≠ 0#16 :=
    fun a ha hne h0 => hne (by rw [← toNat_ofNat_valueAt_two ha, h0]; rfl)
  have hsizes : ¬ ((headerOf s.inp).width = 0#16 ∨ (headerOf s.inp).height = 0#16) := by
    rw [hwidth, hheight]
    exact not_or.2 ⟨ne_zero 0 (by omega) hw, ne_zero 2 (by omega) hh⟩
  rw [headerStep, if_neg (show ¬ s.inp.length < headerBytes from Nat.not_lt.2 hlen)]
  simp only [if_neg hsizes]
  rw [hwidth, hheight, hrecLen, htagOff, State.headerLatched]

/-! ### The class selection -/

theorem selectClass_of_nonpos {s : State} (h : s.tagOff.toInt ≤ 0) :
    selectClass s = .ok (.enter { s with phase := .flat }) := by
  rw [selectClass, if_pos h]

/-- A first tag that does not lie in the record, wherever it starts (R100, R113). -/
theorem selectClass_of_lt {s : State} (hpos : 0 < s.tagOff.toInt) (hlt : s.inp.length < tagStart s.tagOff + 16) :
    ∃ e, selectClass s = .error e ∧ e.kind = .outOfBounds := by
  rw [selectClass, if_neg (Int.not_le.2 hpos)]
  split_ifs
  · exact ⟨_, rfl, rfl⟩
  · obtain ⟨a, ha⟩ := fetchTag_of_lt hlt
    exact ⟨.outOfBounds a 8, by rw [ha], rfl⟩

theorem tagNloop_quadsAt_eq_iff (inp : List Byte) (a : Nat) (n : BitVec 15) :
    tagNloop (quadsAt inp a).1 = n ↔ nloopAt inp a = n.toNat := by
  rw [← BitVec.toNat_inj, tagNloop_toNat]

/-- A first tag in the record selects by its NLOOP alone (R53), once `END` is set (R101). -/
theorem selectClass_of_le {s : State} (hpos : 0 < s.tagOff.toInt) (hle : tagStart s.tagOff + 16 ≤ s.inp.length) :
    selectClass s = .ok (
      if nloopAt s.inp (tagStart s.tagOff) = 3 then
        .enter { s with scanEnd := scanEndOf recordLengthUnit s.inp.length s.recLen, phase := .direct }
      else if nloopAt s.inp (tagStart s.tagOff) = 4 then
        .enter { s with scanEnd := scanEndOf recordLengthUnit s.inp.length s.recLen, phase := .clutLoad }
      else
        .blank (quadsAt s.inp (tagStart s.tagOff)).1 (quadsAt s.inp (tagStart s.tagOff)).2
          { s with scanEnd := scanEndOf recordLengthUnit s.inp.length s.recLen }) := by
  have hdirect := tagNloop_quadsAt_eq_iff s.inp (tagStart s.tagOff) nloopDirect
  have hindexed := tagNloop_quadsAt_eq_iff s.inp (tagStart s.tagOff) nloopIndexed
  rw [selectClass, if_neg (Int.not_le.2 hpos), if_neg (by omega), fetchTag_of_le hle]
  dsimp only
  by_cases h3 : nloopAt s.inp (tagStart s.tagOff) = 3
  · rw [if_pos (hdirect.2 h3), if_pos h3]
  · rw [if_neg (mt hdirect.1 h3), if_neg h3]
    by_cases h4 : nloopAt s.inp (tagStart s.tagOff) = 4
    · rw [if_pos (hindexed.2 h4), if_pos h4]
    · rw [if_neg (mt hindexed.1 h4), if_neg h4]

theorem openRecord_of_valid {s : State} (hlen : 20 ≤ s.inp.length) (hw : valueAt s.inp 0 2 ≠ 0)
    (hh : valueAt s.inp 2 2 ≠ 0) : openRecord s = selectClass s.headerLatched := by
  rw [openRecord, headerStep_of_valid hlen hw hh]

theorem scanEndOf_headerLatched {s : State} (h : 20 ≤ s.inp.length) :
    scanEndOf recordLengthUnit s.inp.length s.headerLatched.recLen = min s.inp.length (valueAt s.inp 6 2 * 16) := by
  have hrl : s.headerLatched.recLen.toNat = valueAt s.inp 6 2 := toNat_ofNat_valueAt_two (by omega)
  rw [scanEndOf, hrl, recordLengthUnit]

/-! ### The step of phase Header -/

theorem step_header_of_error {s : State} {e : Raise} (hp : s.phase = .header) (h : openRecord s = .error e) :
    step s = .next (s.raise e) := by
  rw [step_sequencer (.inl (by rw [hp]; rfl)), seqStep, hp]
  simp only [h]

theorem step_header_of_enter {s t : State} (hp : s.phase = .header) (h : openRecord s = .ok (.enter t)) :
    step s = .next t := by
  rw [step_sequencer (.inl (by rw [hp]; rfl)), seqStep, hp]
  simp only [h]

theorem step_header_of_blank {s t : State} {lo hi : Quad} (hp : s.phase = .header)
    (h : openRecord s = .ok (.blank lo hi t)) : step s = .next (blankStep t) := by
  rw [step_sequencer (.inl (by rw [hp]; rfl)), seqStep, hp]
  simp only [h]

/-- Settles O34: the header passes and is latched, so the step is the class selection on the latched state. It depends on
the sign of `T`, on the bounds of the first tag, then on NLOOP. -/
theorem firstTagSelectsClass : Obligations.FirstTagSelectsClass := by
  intro s tagOff hp hlen hw hh hT
  have hopen : openRecord s = selectClass s.headerLatched := openRecord_of_valid hlen hw hh
  have hsigned : s.headerLatched.tagOff.toInt = tagOff := (State.headerLatched_tagOff_toInt hlen).trans hT.symm
  have hstart : tagStart s.headerLatched.tagOff = tagOff.toNat := congrArg Int.toNat hsigned
  refine ⟨fun hT0 => ?flat, fun hpos hlt => ?outside, fun hpos hle => ?inside⟩
  case flat =>
    exact step_header_of_enter hp (hopen.trans (selectClass_of_nonpos (hsigned.trans_le hT0)))
  case outside =>
    obtain ⟨e, herr, hkind⟩ := selectClass_of_lt (s := s.headerLatched) (hsigned ▸ hpos)
      (by rw [hstart, State.headerLatched_inp]; omega)
    exact ⟨s.raise e, step_header_of_error hp (hopen.trans herr), rfl, by rw [State.raise_result, hkind]⟩
  case inside =>
    have hsel := hopen.trans (selectClass_of_le (s := s.headerLatched) (hsigned ▸ hpos)
      (by rw [hstart, State.headerLatched_inp]; omega))
    rw [hstart, State.headerLatched_inp, scanEndOf_headerLatched hlen] at hsel
    refine ⟨fun h3 => ?direct, fun h4 => ?indexed, fun h3 h4 => ?blank⟩
    case direct =>
      rw [if_pos h3] at hsel
      exact step_header_of_enter hp hsel
    case indexed =>
      rw [if_neg (by omega), if_pos h4] at hsel
      exact step_header_of_enter hp hsel
    case blank =>
      rw [if_neg h3, if_neg h4] at hsel
      have hwidth : s.headerLatched.width.toNat = valueAt s.inp 0 2 := toNat_ofNat_valueAt_two (by omega)
      have hheight : s.headerLatched.height.toNat = valueAt s.inp 2 2 := toNat_ofNat_valueAt_two (by omega)
      rw [step_header_of_blank hp hsel, blankStep, hwidth, hheight]
      rfl

end Sys2Proof.Machine
end

