-- ==== Sys2Proof/Proofs/TagParser.lean ====
section
/-! The command-tag parser's operations on the port (40_tag_parser.md R70 to R75): what PARSE_TAG, TOTAL_LEN, FIND_REG and
the LATCH operations answer, and the latches' fields in arithmetic. -/

namespace Sys2Proof.Machine

/-! ### Latch fields (R73 to R75) -/

theorem extractLsb'_eq_ofNat (v : Quad) (start len : Nat) :
    v.extractLsb' start len = .ofNat len (v.toNat / 2 ^ start) := by
  rw [BitVec.extractLsb', Nat.shiftRight_eq_div_pow]

theorem latchBitbltbuf_eq (v : Quad) :
    latchBitbltbuf v =
      { dbp := .ofNat 14 (v.toNat / 2 ^ 32), dbw := .ofNat 6 (v.toNat / 2 ^ 48), dpsm := .ofNat 6 (v.toNat / 2 ^ 56) } := by
  simp only [latchBitbltbuf, extractLsb'_eq_ofNat]

theorem latchTrxpos_eq (v : Quad) :
    latchTrxpos v = { dsax := .ofNat 11 (v.toNat / 2 ^ 32), dsay := .ofNat 11 (v.toNat / 2 ^ 48) } := by
  simp only [latchTrxpos, extractLsb'_eq_ofNat]

theorem latchTrxreg_eq (v : Quad) :
    latchTrxreg v = { rrw := .ofNat 12 v.toNat, rrh := .ofNat 12 (v.toNat / 2 ^ 32) } := by
  simp only [latchTrxreg, extractLsb'_eq_ofNat, pow_zero, Nat.div_one]

/-- Settles O13: each operation writes its latch and the answer; the latch's bit fields are quotients by powers of 2. -/
theorem latchOpsTakeTheirFields : Obligations.LatchOpsTakeTheirFields := by
  intro v s
  rw [← latchBitbltbuf_eq, ← latchTrxpos_eq, ← latchTrxreg_eq]
  exact ⟨rfl, rfl, rfl⟩

/-! ### PARSE_TAG (R70) -/

theorem tagFlg_quadsAt_eq_image_iff (inp : List Byte) (a : Nat) :
    tagFlg (quadsAt inp a).1 = flgImage ↔ flgAt inp a = 2 := by
  rw [← BitVec.toNat_inj, tagFlg_toNat]
  rfl

theorem kind_tagDescriptor_quadsAt (inp : List Byte) (a : Nat) :
    (tagDescriptor (quadsAt inp a).1).kind = if flgAt inp a = 2 then .image else .registerBatch := by
  have himage := tagFlg_quadsAt_eq_image_iff inp a
  split_ifs with h
  · exact kind_tagDescriptor_of_image (himage.2 h)
  · exact kind_tagDescriptor_of_ne_image (mt himage.1 h)

theorem exec_opParseTag_of_le {a : Nat} {s : State} (h : a + 16 ≤ s.inp.length) :
    exec (.opParseTag a) s =
      .next (s.answer (.tag (tagDescriptor (quadsAt s.inp a).1) (tagDescriptor (quadsAt s.inp a).1).kind)) := by
  rw [exec, execOpParseTag_eq, parseTag_of_le h]
  rfl

theorem exec_opParseTag_of_lt {a : Nat} {s : State} (h : s.inp.length < a + 16) :
    ∃ x, exec (.opParseTag a) s = .next (s.raise (.outOfBounds x 8)) := by
  obtain ⟨x, hx⟩ := parseTag_of_lt h
  exact ⟨x, by rw [exec, execOpParseTag_eq, hx]; rfl⟩

/-- Settles O9: inside the record the answer is the descriptor of the tag's low half; outside it the half that leaves the
record raises. -/
theorem parseTagAnswersDescriptor : Obligations.ParseTagAnswersDescriptor := by
  intro a s
  refine ⟨fun hle => ?inside, fun hlt => ?outside⟩
  case inside =>
    refine ⟨tagDescriptor (quadsAt s.inp a).1, tagNloop_toNat s.inp a, tagEop_toNat s.inp a, tagFlg_toNat s.inp a, ?_⟩
    rw [exec_opParseTag_of_le hle, kind_tagDescriptor_quadsAt]
    rfl
  case outside =>
    obtain ⟨x, hx⟩ := exec_opParseTag_of_lt hlt
    exact ⟨_, hx, State.raise_phase _ s, State.raise_result _ s⟩

/-! ### TOTAL_LEN (R71) -/

/-- Settles O10: NLOOP has 15 bits, so the largest length is 16 + 16 * 32767. -/
theorem totalLenIsSixteenPerLoop : Obligations.TotalLenIsSixteenPerLoop := by
  intro d s
  have hn : d.nloop.toNat < 32768 := d.nloop.isLt
  refine ⟨totalLen d.nloop, rfl, rfl, rfl, rfl, ?low, ?high⟩
  case low => exact Nat.le_add_right 16 _
  case high => rw [totalLen]; omega

/-! ### FIND_REG (R72) -/

theorem exec_opFindReg_of_ok {start count bound o : Nat} {id : Quad} {s : State}
    (h : findReg s.inp id bound count start = .ok o) :
    exec (.opFindReg start count id bound) s = .next (s.answer (.offset o)) := by
  rw [exec, execOpFindReg_eq, h]
  rfl

/-- Settles O11: with the bound in the record the search never raises, and it stops at the first match. -/
theorem findRegAnswersFirstMatch : Obligations.FindRegAnswersFirstMatch := by
  intro start count id bound s hb
  obtain ⟨o, hfind, hfirst⟩ := findReg_spec (id := id) hb count start
  exact ⟨o, exec_opFindReg_of_ok hfind, hfirst⟩

end Sys2Proof.Machine
end

