-- ==== Sys2Proof/Proofs/RegisterBatch.lean ====
section
/-! Register batches (40_tag_parser.md R76): the first slot of an id is unique, so the lookup of a register is determined
by the record, and each latch by its lookup. -/

namespace Sys2Proof.Machine

/-! ### The first slot of an id -/

theorem IsFirstSlot.unique {inp : List Byte} {start count bound o o' : Nat} {id : Quad}
    (h : IsFirstSlot inp start count bound id o) (h' : IsFirstSlot inp start count bound id o') : o = o' := by
  obtain ⟨k, _, rfl, _, hmatch, hfirst⟩ := h
  obtain ⟨k', _, rfl, _, hmatch', hfirst'⟩ := h'
  rcases Nat.lt_trichotomy k k' with hlt | rfl | hgt
  · exact absurd hmatch (hfirst' k hlt)
  · rfl
  · exact absurd hmatch' (hfirst k' hgt)

theorem IsFirstSlot.not_noSlot {inp : List Byte} {start count bound o : Nat} {id : Quad}
    (h : IsFirstSlot inp start count bound id o) : ¬ NoSlot inp start count bound id := by
  obtain ⟨k, hk, rfl, hbound, hmatch, _⟩ := h
  exact fun hno => hno k hk hbound hmatch

/-! ### What the lookup of a register finds -/

section Lookup

variable {inp : List Byte} {start count bound : Nat} {id : Quad}

theorem lookupReg_of_isFirstSlot {o : Nat} (hb : bound ≤ inp.length) (hs : 0 < start)
    (h : IsFirstSlot inp start count bound id o) :
    lookupReg inp start count id bound = .ok (some (BitVec.ofNat 64 (valueAt inp o 8))) := by
  rcases lookupReg_spec (id := id) hb count hs with ⟨o', h', hlookup⟩ | ⟨hno, _⟩
  · rw [hlookup, h.unique h']
  · exact absurd hno h.not_noSlot

theorem lookupReg_of_noSlot (hb : bound ≤ inp.length) (hs : 0 < start) (h : NoSlot inp start count bound id) :
    lookupReg inp start count id bound = .ok none := by
  rcases lookupReg_spec (id := id) hb count hs with ⟨o, hfirst, _⟩ | ⟨_, hlookup⟩
  · exact absurd h hfirst.not_noSlot
  · exact hlookup

/-- The value of a slot below a bound in the record fits its quad. -/
theorem IsFirstSlot.toNat_value {o : Nat} (hb : bound ≤ inp.length) (h : IsFirstSlot inp start count bound id o) :
    (BitVec.ofNat 64 (valueAt inp o 8)).toNat = valueAt inp o 8 := by
  obtain ⟨_, _, _, hbound, _⟩ := h
  exact Nat.mod_eq_of_lt (valueAt_eight_lt (by omega))

/-- A latch after the lookup of its register, whichever of the three it is: loaded from the first slot, or kept. -/
theorem latch_of_lookupReg {α : Type} (latch : Quad → α) (old : α) {v : Option Quad} (hb : bound ≤ inp.length)
    (hs : 0 < start) (hv : lookupReg inp start count id bound = .ok v) :
    (∀ o, IsFirstSlot inp start count bound id o →
        ∃ q : Quad, q.toNat = valueAt inp o 8 ∧ (v.map latch).getD old = latch q) ∧
      (NoSlot inp start count bound id → (v.map latch).getD old = old) := by
  refine ⟨fun o ho => ?found, fun hno => ?absent⟩
  case found =>
    obtain rfl := Except.ok.inj (hv.symm.trans (lookupReg_of_isFirstSlot hb hs ho))
    exact ⟨_, ho.toNat_value hb, rfl⟩
  case absent =>
    obtain rfl := Except.ok.inj (hv.symm.trans (lookupReg_of_noSlot hb hs hno))
    rfl

end Lookup

/-! ### The batch -/

/-- The three FLG values of a batch are one operation (R55). -/
theorem exec_registerBatch {n : BitVec 15} {r : TagRest} {i : Instr}
    (hi : i = .giftagPacked n r ∨ i = .giftagReglist n r ∨ i = .giftagDisabled n r) (s : State) :
    exec i s = .next (orRaise s (regBatch n s)) := by
  rcases hi with rfl | rfl | rfl <;> rfl

/-- Settles O15: a batch below an `END` in the record does not raise, and each of its latches follows from the lookup of
its own register. -/
theorem registerBatchLatchesFirstSlots : Obligations.RegisterBatchLatchesFirstSlots := by
  intro n r s i hi hend
  obtain ⟨vb, vp, vr, hvb, hvp, hvr, hbatch⟩ := regBatch_spec n hend
  have hs : 0 < s.cur + 16 := Nat.succ_pos _
  obtain ⟨hbLoad, hbKeep⟩ := latch_of_lookupReg latchBitbltbuf s.bitbltbuf hend hs hvb
  obtain ⟨hpLoad, hpKeep⟩ := latch_of_lookupReg latchTrxpos s.trxpos hend hs hvp
  obtain ⟨hqLoad, hqKeep⟩ := latch_of_lookupReg latchTrxreg s.trxreg hend hs hvr
  refine ⟨_, _, _, ?frame, fun o ho => ?bitbltbuf, hbKeep, fun o ho => ?trxpos, hpKeep, fun o ho => ?trxreg, hqKeep⟩
  case frame =>
    rw [exec_registerBatch hi, hbatch, totalLen, ← Nat.add_assoc]
    rfl
  case bitbltbuf =>
    obtain ⟨v, hv, hlatch⟩ := hbLoad o ho
    rw [hlatch, latchBitbltbuf_eq, hv]
  case trxpos =>
    obtain ⟨v, hv, hlatch⟩ := hpLoad o ho
    rw [hlatch, latchTrxpos_eq, hv]
  case trxreg =>
    obtain ⟨v, hv, hlatch⟩ := hqLoad o ho
    rw [hlatch, latchTrxreg_eq, hv]

end Sys2Proof.Machine
end

