-- ==== Sys2Proof/Proofs/SurfaceWrite.lean ====
section
/-! WRITE_PSMCT32 (41_address_translator.md R88): which pixels the transfer's loop writes from a given pixel on, which
bytes it leaves alone, and whose bytes stand in a word at the end. -/

namespace Sys2Proof.Machine

/-! ### The bytes of one word (20_memory.md R38) -/

theorem memRead4_getD (m : Memory) (a : Nat) {b : Nat} (hb : b < 4) : (memRead4 m a).getD b 0#8 = memRead m (a + b) := by
  match b, hb with
  | 0, _ => rfl
  | 1, _ => rfl
  | 2, _ => rfl
  | 3, _ => rfl

theorem memRead_memWrite4_inside {m : Memory} (hm : Memory.wf m) {a b : Nat} (b0 b1 b2 b3 : Byte)
    (ha : a + 4 ≤ surfaceBytes) (hb : b < 4) :
    memRead (memWrite4 m a b0 b1 b2 b3) (a + b) = [b0, b1, b2, b3].getD b 0#8 := by
  rw [← memRead4_getD _ a hb, memRead4_memWrite4 hm b0 b1 b2 b3 ha]

theorem memWrite4_of_lt (m : Memory) {a : Nat} (b0 b1 b2 b3 : Byte) (h : surfaceBytes < a + 4) :
    memWrite4 m a b0 b1 b2 b3 = m := if_pos h

/-! ### The pixels the loop writes -/

/-- `PixelWritten` for the loop that stands at pixel `k` with `len` source bytes left: it goes on to write pixel `j`. -/
def ScatterWrites (dbp dbw x0 y0 w count k len j : Nat) : Prop :=
  k ≤ j ∧ j < count ∧ 4 * (j - k) + 4 ≤ len ∧ pixelByte dbp dbw x0 y0 w j + 4 ≤ surfaceBytes

section Scatter

variable {dbp dbw x0 y0 w count k len j : Nat}

theorem scatterWrites_zero_iff {h : Nat} :
    ScatterWrites dbp dbw x0 y0 w (w * h) 0 len j ↔ PixelWritten dbp dbw x0 y0 w h len j := by
  simp only [ScatterWrites, PixelWritten, Nat.zero_le, true_and, Nat.sub_zero]

theorem scatterWrites_self_iff (hk : k < count) :
    ScatterWrites dbp dbw x0 y0 w count k (len + 4) k ↔ pixelByte dbp dbw x0 y0 w k + 4 ≤ surfaceBytes := by
  unfold ScatterWrites
  omega

/-- Past its first pixel the loop writes what its next round writes. -/
theorem scatterWrites_succ_iff :
    ScatterWrites dbp dbw x0 y0 w count (k + 1) len j ↔ k < j ∧ ScatterWrites dbp dbw x0 y0 w count k (len + 4) j := by
  unfold ScatterWrites
  omega

theorem not_scatterWrites_of_le (h : count ≤ k) : ¬ ScatterWrites dbp dbw x0 y0 w count k len j := by
  unfold ScatterWrites
  omega

theorem not_scatterWrites_of_short (h : len < 4) : ¬ ScatterWrites dbp dbw x0 y0 w count k len j := by
  unfold ScatterWrites
  omega

/-- The loop's last pattern: no whole word is left. -/
theorem length_lt_four {src : List Byte} (h : ∀ b0 b1 b2 b3 rest, src = b0 :: b1 :: b2 :: b3 :: rest → False) :
    src.length < 4 := by
  match src with
  | [] | [_] | [_, _] | [_, _, _] => simp
  | b0 :: b1 :: b2 :: b3 :: rest => exact (h b0 b1 b2 b3 rest rfl).elim

/-- Pixel words are aligned, so two different ones share no byte. -/
theorem byte_outside_of_pixelByte_ne {b : Nat} (hne : pixelByte dbp dbw x0 y0 w j ≠ pixelByte dbp dbw x0 y0 w k)
    (hb : b < 4) :
    pixelByte dbp dbw x0 y0 w k + b < pixelByte dbp dbw x0 y0 w j ∨
      pixelByte dbp dbw x0 y0 w j + 4 ≤ pixelByte dbp dbw x0 y0 w k + b := by
  unfold pixelByte at *
  omega

/-! ### What the loop leaves in the surface -/

/-- A byte outside the word of every pixel the loop writes keeps its value. -/
theorem memRead_scatter_outside {a : Nat} {src : List Byte} {m : Memory}
    (hout : ∀ j, ScatterWrites dbp dbw x0 y0 w count k src.length j →
      a < pixelByte dbp dbw x0 y0 w j ∨ pixelByte dbp dbw x0 y0 w j + 4 ≤ a) :
    memRead (scatter bpUnitWords dbp dbw x0 y0 w count k src m) a = memRead m a := by
  fun_induction scatter bpUnitWords dbp dbw x0 y0 w count k src m with
  | case1 k b0 b1 b2 b3 rest m hk ih =>
    have hfirst : memRead (memWrite4 m (pixelByte dbp dbw x0 y0 w k) b0 b1 b2 b3) a = memRead m a := by
      rcases Nat.lt_or_ge surfaceBytes (pixelByte dbp dbw x0 y0 w k + 4) with hlt | hle
      · rw [memWrite4_of_lt m b0 b1 b2 b3 hlt]
      · exact memRead_memWrite4_outside m b0 b1 b2 b3 (hout k ((scatterWrites_self_iff hk).2 hle))
    exact (ih fun j hj => hout j (scatterWrites_succ_iff.1 hj).2).trans hfirst
  | case2 => rfl
  | case3 => rfl

/-- The word of a pixel the loop writes, and no later pixel writes again, holds the pixel's source bytes. -/
theorem memRead_scatter_last {b : Nat} {src : List Byte} {m : Memory} (hm : Memory.wf m) (hb : b < 4)
    (hj : ScatterWrites dbp dbw x0 y0 w count k src.length j)
    (hlast : ∀ i, j < i → ScatterWrites dbp dbw x0 y0 w count k src.length i →
      pixelByte dbp dbw x0 y0 w i ≠ pixelByte dbp dbw x0 y0 w j) :
    memRead (scatter bpUnitWords dbp dbw x0 y0 w count k src m) (pixelByte dbp dbw x0 y0 w j + b) =
      src.getD (4 * (j - k) + b) 0#8 := by
  fun_induction scatter bpUnitWords dbp dbw x0 y0 w count k src m with
  | case1 k b0 b1 b2 b3 rest m hk ih =>
    obtain rfl | hkj : k = j ∨ k < j := hj.1.eq_or_lt
    · have hkeep := memRead_scatter_outside (src := rest)
        (m := memWrite4 m (pixelByte dbp dbw x0 y0 w k) b0 b1 b2 b3) (a := pixelByte dbp dbw x0 y0 w k + b)
        fun i hi =>
          have ⟨hki, hwrites⟩ := scatterWrites_succ_iff.1 hi
          byte_outside_of_pixelByte_ne (hlast i hki hwrites) hb
      calc _ = [b0, b1, b2, b3].getD b 0#8 :=
            hkeep.trans (memRead_memWrite4_inside hm b0 b1 b2 b3 ((scatterWrites_self_iff hk).1 hj) hb)
        _ = (b0 :: b1 :: b2 :: b3 :: rest).getD (4 * (k - k) + b) 0#8 := by
            rw [Nat.sub_self, Nat.mul_zero, Nat.zero_add]
            exact (List.getD_append [b0, b1, b2, b3] rest 0#8 b hb).symm
    · have hrest := ih (memWrite4_wf hm _ b0 b1 b2 b3) (scatterWrites_succ_iff.2 ⟨hkj, hj⟩)
        fun i hji hi => hlast i hji (scatterWrites_succ_iff.1 hi).2
      have hindex : 4 * (j - k) + b = 4 * (j - (k + 1)) + b + 4 := by omega
      rw [hrest, hindex]
      rfl
  | case2 k b0 b1 b2 b3 rest m hk => exact absurd hj (not_scatterWrites_of_le (Nat.not_lt.1 hk))
  | case3 k src m hshort => exact absurd hj (not_scatterWrites_of_short (length_lt_four hshort))

end Scatter

/-- Settles O20: the transfer is the loop from pixel 0, with the whole source left. -/
theorem writeScattersPixels : Obligations.WriteScattersPixels := by
  intro dbp dbw dsax dsay rrw rrh src s
  refine ⟨_, rfl, fun a hout => ?outside, fun hm k hk hlast b hb => ?word⟩
  case outside => exact memRead_scatter_outside fun j hj => hout j (scatterWrites_zero_iff.1 hj)
  case word =>
    exact memRead_scatter_last hm hb (scatterWrites_zero_iff.2 hk)
      fun i hki hi => hlast i hki (scatterWrites_zero_iff.1 hi)

end Sys2Proof.Machine
end

