-- ==== Sys2Proof/Proofs/SurfaceRead.lean ====
section
/-! READ_PSMT8 and READ_PSMT4 (41_address_translator.md R90, R91): one surface byte or nibble per pixel of the rectangle.
Packed nibbles are read through `nibbleOf`, which EXPAND4 (42_format_converter.md R97) spells out. -/

namespace Sys2Proof.Machine

/-! ### The pixels of a rectangle -/

theorem rectPixels_getElem? (x0 y0 : Nat) {w h k : Nat} (hk : k < w * h) :
    (rectPixels x0 y0 w h)[k]? = some (x0 + k % w, y0 + k / w) := by
  rw [rectPixels, List.getElem?_map, List.getElem?_range hk]
  rfl

/-- What a read gathers per pixel. -/
theorem map_rectPixels_getD {α : Type} (f : Nat × Nat → α) (d : α) (x0 y0 : Nat) {w h k : Nat} (hk : k < w * h) :
    ((rectPixels x0 y0 w h).map f).getD k d = f (x0 + k % w, y0 + k / w) := by
  rw [List.getD_eq_getElem?_getD, List.getElem?_map, rectPixels_getElem? x0 y0 hk]
  rfl

/-! ### Bytes (R90) -/

/-- Settles O24: the answer maps the rectangle's pixels to surface bytes. -/
theorem readPsmt8GathersBytes : Obligations.ReadPsmt8GathersBytes := by
  intro dbp dbw x0 y0 w h s
  exact ⟨_, rfl, readPsmt8_length bpUnitWords dbp dbw x0 y0 w h s.surface,
    fun k hk => map_rectPixels_getD _ 0#8 x0 y0 hk⟩

/-! ### Nibbles of a byte string -/

@[simp] theorem nibbleOf_nil (k : Nat) : nibbleOf [] k = 0 := by
  simp [nibbleOf]

@[simp] theorem nibbleOf_cons_zero (b : Byte) (bs : List Byte) : nibbleOf (b :: bs) 0 = b.toNat % 16 := by
  simp [nibbleOf]

@[simp] theorem nibbleOf_cons_one (b : Byte) (bs : List Byte) : nibbleOf (b :: bs) 1 = b.toNat / 16 := by
  have hb := b.isLt
  exact Nat.mod_eq_of_lt (show b.toNat / 16 < 16 by omega)

@[simp] theorem nibbleOf_cons_add_two (b : Byte) (bs : List Byte) (k : Nat) :
    nibbleOf (b :: bs) (k + 2) = nibbleOf bs k := by
  rw [nibbleOf, nibbleOf, Nat.add_div_right k Nat.two_pos, Nat.add_mod_right, List.getD_cons_succ]

/-! ### Packing and expanding -/

theorem nibbles_append_toNat (hi lo : BitVec 4) : (hi ++ lo).toNat = 16 * hi.toNat + lo.toNat := by
  rw [BitVec.toNat_append, Nat.mul_comm, ← Nat.shiftLeft_add_eq_or_of_lt lo.isLt, Nat.shiftLeft_eq]

theorem nibbles_append_toNat_mod (hi lo : BitVec 4) : (hi ++ lo).toNat % 16 = lo.toNat := by
  rw [nibbles_append_toNat, Nat.mul_add_mod, Nat.mod_eq_of_lt lo.isLt]

theorem nibbles_append_toNat_div (hi lo : BitVec 4) : (hi ++ lo).toNat / 16 = hi.toNat := by
  rw [nibbles_append_toNat, Nat.mul_add_div (by decide), Nat.div_eq_of_lt lo.isLt, Nat.add_zero]

theorem and_low_toNat (b : Byte) : (b &&& 0x0F#8).toNat = b.toNat % 16 := by
  rw [BitVec.toNat_and]
  exact Nat.and_two_pow_sub_one_eq_mod b.toNat 4

theorem shift_and_low_toNat (b : Byte) : ((b >>> 4) &&& 0x0F#8).toNat = b.toNat / 16 := by
  have hb := b.isLt
  rw [and_low_toNat, BitVec.toNat_ushiftRight, Nat.shiftRight_eq_div_pow]
  omega

/-- Nibble `k` of the packed string is the `k`-th nibble packed, and 0 past the last. -/
theorem nibbleOf_packNibbles (ns : List (BitVec 4)) (k : Nat) : nibbleOf (packNibbles ns) k = (ns.getD k 0#4).toNat := by
  fun_induction packNibbles ns generalizing k with
  | case1 lo hi rest ih =>
    match k with
    | 0 => exact (nibbleOf_cons_zero _ _).trans (nibbles_append_toNat_mod hi lo)
    | 1 => exact (nibbleOf_cons_one _ _).trans (nibbles_append_toNat_div hi lo)
    | k + 2 => exact (nibbleOf_cons_add_two _ _ k).trans (ih k)
  | case2 lo =>
    match k with
    | 0 => exact (nibbleOf_cons_zero _ _).trans (nibbles_append_toNat_mod 0#4 lo)
    | 1 => exact (nibbleOf_cons_one _ _).trans (nibbles_append_toNat_div 0#4 lo)
    | k + 2 => exact (nibbleOf_cons_add_two _ [] k).trans (nibbleOf_nil k)
  | case3 => exact nibbleOf_nil k

/-- EXPAND4 gives index `k` the value of nibble `k`, 0 past the end. -/
theorem expand4_getD_toNat (bs : List Byte) (k : Nat) : ((expand4 bs).getD k 0#8).toNat = nibbleOf bs k := by
  induction bs generalizing k with
  | nil => exact (nibbleOf_nil k).symm
  | cons b bs ih =>
    match k with
    | 0 => exact (and_low_toNat b).trans (nibbleOf_cons_zero b bs).symm
    | 1 => exact (shift_and_low_toNat b).trans (nibbleOf_cons_one b bs).symm
    | k + 2 => exact (ih k).trans (nibbleOf_cons_add_two b bs k).symm

/-! ### Nibbles of the surface (R84, R91) -/

theorem memReadNibble_toNat (m : Memory) (na : Nat) :
    (memReadNibble m na).toNat = (memRead m (na / 2)).toNat / 16 ^ (na % 2) % 16 := by
  unfold memReadNibble
  rcases Nat.mod_two_eq_zero_or_one na with hlow | hhigh
  · rw [hlow, if_neg (by decide), BitVec.extractLsb'_toNat]
    simp only [Nat.shiftRight_zero, pow_zero, Nat.div_one, Nat.reducePow]
  · rw [hhigh, if_pos rfl, BitVec.extractLsb'_toNat, Nat.shiftRight_eq_div_pow]
    rfl

/-- Nibble `k` of a READ_PSMT4 is the one at the address of pixel `k`. -/
theorem nibbleOf_readPsmt4 (unit dbp dbw x0 y0 : Nat) (m : Memory) {w h k : Nat} (hk : k < w * h) :
    nibbleOf (readPsmt4 unit dbp dbw x0 y0 w h m) k =
      (memReadNibble m (addr4 unit dbp dbw (x0 + k % w) (y0 + k / w))).toNat := by
  rw [readPsmt4, nibbleOf_packNibbles, map_rectPixels_getD _ _ x0 y0 hk]

/-- Past the last pixel a READ_PSMT4 answers 0, the padding of an odd total included. -/
theorem nibbleOf_readPsmt4_of_le (unit dbp dbw x0 y0 : Nat) (m : Memory) {w h k : Nat} (hk : w * h ≤ k) :
    nibbleOf (readPsmt4 unit dbp dbw x0 y0 w h m) k = 0 := by
  rw [readPsmt4, nibbleOf_packNibbles, List.getD_eq_default _ _ (by rwa [List.length_map, rectPixels_length])]
  rfl

/-- Settles O25: the packed string holds each pixel's nibble, and EXPAND4 takes them apart again. -/
theorem readPsmt4PacksNibbles : Obligations.ReadPsmt4PacksNibbles := by
  intro dbp dbw x0 y0 w h s
  have hlen := readPsmt4_length bpUnitWords dbp dbw x0 y0 w h s.surface
  refine ⟨readPsmt4 bpUnitWords dbp dbw x0 y0 w h s.surface, nibblePhase (w * h), _, rfl, rfl, hlen,
    fun k hk => ?nibble, fun _ => ?padding, _, rfl, ?count, fun k _ => ?index⟩
  case nibble => rw [nibbleOf_readPsmt4 _ _ _ _ _ _ hk, memReadNibble_toNat]
  case padding => exact nibbleOf_readPsmt4_of_le _ _ _ _ _ _ le_rfl
  case count => rw [expand4_length, hlen]; omega
  case index => exact expand4_getD_toNat _ k

end Sys2Proof.Machine
end

