-- ==== Sys2Proof/Proofs/FormatConverter.lean ====
section
/-! The format converter's operations on the port (42_format_converter.md R92 to R97): the entries the palette reads take
from the record, the reordering of a CLUT, and the bytes APPLY_PALETTE and EXPAND4 answer. -/

namespace Sys2Proof.Machine

/-! ### Bytes of the record -/

theorem bytesAt_getD (inp : List Byte) (a : Nat) {n k : Nat} (hk : k < n) :
    (bytesAt inp a n).getD k 0#8 = inp.getD (a + k) 0#8 := by
  rw [bytesAt, List.getD_eq_getElem?_getD, List.getElem?_take_of_lt hk, List.getElem?_drop,
    List.getD_eq_getElem?_getD]

/-- Byte `k` of a little-endian value is byte `k` of the string, 0 past its end. -/
theorem ofNat_leNat_div (bs : List Byte) (k : Nat) : BitVec.ofNat 8 (leNat bs / 2 ^ (8 * k)) = bs.getD k 0#8 := by
  induction bs generalizing k with
  | nil => simp only [leNat, Nat.zero_div, List.getD_nil]
  | cons b bs ih =>
    have hb := b.isLt
    cases k with
    | zero =>
      apply BitVec.eq_of_toNat_eq
      simp only [leNat, Nat.mul_zero, pow_zero, Nat.div_one, BitVec.toNat_ofNat, List.getD_cons_zero]
      omega
    | succ k =>
      have hrest : leNat (b :: bs) / 2 ^ 8 = leNat bs := by rw [leNat]; omega
      rw [Nat.mul_succ, Nat.add_comm, pow_add, ← Nat.div_div_eq_div_mul, hrest, ih, List.getD_cons_succ]

/-- Byte `k` of a value of the record, in the arithmetic of 20_memory.md R32. -/
theorem ofNat_valueAt_div {inp : List Byte} {a n k : Nat} (h : a + n ≤ inp.length) (hk : k < n) :
    BitVec.ofNat 8 (valueAt inp a n / 2 ^ (8 * k)) = inp.getD (a + k) 0#8 := by
  rw [← leNat_bytesAt h, ofNat_leNat_div, bytesAt_getD inp a hk]

/-! ### Palette entries -/

/-- Entry `j` is made of the four bytes from `4 * j`. -/
theorem entriesOf_getElem? (entry : Byte → Byte → Byte → Byte → Color) {bs : List Byte} {j : Nat}
    (hj : 4 * j + 4 ≤ bs.length) :
    (entriesOf entry bs)[j]? =
      some (entry (bs.getD (4 * j) 0#8) (bs.getD (4 * j + 1) 0#8) (bs.getD (4 * j + 2) 0#8) (bs.getD (4 * j + 3) 0#8)) := by
  fun_induction entriesOf entry bs generalizing j with
  | case1 b0 b1 b2 b3 rest ih =>
    cases j with
    | zero => rfl
    | succ j => exact ih (by simp only [List.length_cons] at hj; omega)
  | case2 bs hshort => exact absurd (length_lt_four hshort) (by omega)

/-- Entry `j` of a range of `n` entries in the record. -/
theorem entriesOf_bytesAt_getElem? (entry : Byte → Byte → Byte → Byte → Color) {inp : List Byte} {p n j : Nat}
    (h : p + 4 * n ≤ inp.length) (hj : j < n) :
    (entriesOf entry (bytesAt inp p (4 * n)))[j]? =
      some (entry (inp.getD (p + 4 * j) 0#8) (inp.getD (p + 4 * j + 1) 0#8) (inp.getD (p + 4 * j + 2) 0#8)
        (inp.getD (p + 4 * j + 3) 0#8)) := by
  have hfit : 4 * j + 4 ≤ (bytesAt inp p (4 * n)).length := by rw [bytesAt_length h]; omega
  rw [entriesOf_getElem? entry hfit, bytesAt_getD inp p (by omega), bytesAt_getD inp p (by omega),
    bytesAt_getD inp p (by omega), bytesAt_getD inp p (by omega)]
  rfl

theorem entriesOf_bytesAt_length (entry : Byte → Byte → Byte → Byte → Color) {inp : List Byte} {p n : Nat}
    (h : p + 4 * n ≤ inp.length) : (entriesOf entry (bytesAt inp p (4 * n))).length = n := by
  rw [entriesOf_length, bytesAt_length h, Nat.mul_div_cancel_left n (by decide)]

/-- The bytes of an ARGB word lie B, G, R, A (30_encoding.md R66). -/
theorem colorArgbLe_eq_ofNat {inp : List Byte} {a : Nat} (h : a + 4 ≤ inp.length) :
    colorArgbLe (inp.getD a 0#8) (inp.getD (a + 1) 0#8) (inp.getD (a + 2) 0#8) (inp.getD (a + 3) 0#8) =
      { r := .ofNat 8 (valueAt inp a 4 / 2 ^ 16), g := .ofNat 8 (valueAt inp a 4 / 2 ^ 8),
        b := .ofNat 8 (valueAt inp a 4), a := .ofNat 8 (valueAt inp a 4 / 2 ^ 24) } := by
  have hb := ofNat_valueAt_div h (k := 0) (by decide)
  rw [Nat.mul_zero, pow_zero, Nat.div_one, Nat.add_zero] at hb
  rw [colorArgbLe, hb, ← ofNat_valueAt_div h (k := 1) (by decide), ← ofNat_valueAt_div h (k := 2) (by decide),
    ← ofNat_valueAt_div h (k := 3) (by decide)]

/-! ### READ_PALETTE and READ_FLAT_PALETTE (R92, R93) -/

theorem exec_opReadPalette_of_le {p w h : Nat} {s : State} (hle : p + 4 * (w * h) ≤ s.inp.length) :
    exec (.opReadPalette p w h) s =
      .next (s.answer (.palette (entriesOf colorRgba (bytesAt s.inp p (4 * (w * h)))))) := by
  rw [exec, execOpReadPalette_eq, readPalette, inBytes_of_le hle]
  rfl

theorem exec_opReadPalette_of_lt {p w h : Nat} {s : State} (hlt : s.inp.length < p + 4 * (w * h)) :
    exec (.opReadPalette p w h) s = .next (s.raise (.outOfBounds p (4 * (w * h)))) := by
  rw [exec, execOpReadPalette_eq, readPalette, inBytes_of_lt hlt]
  rfl

theorem exec_opReadFlatPalette_of_le {p : Nat} {s : State} (hle : p + flatPaletteBytes ≤ s.inp.length) :
    exec (.opReadFlatPalette p) s =
      .next (s.answer (.palette (entriesOf colorArgbLe (bytesAt s.inp p flatPaletteBytes)))) := by
  rw [exec, execOpReadFlatPalette_eq, readFlatPalette, inBytes_of_le hle]
  rfl

theorem exec_opReadFlatPalette_of_lt {p : Nat} {s : State} (hlt : s.inp.length < p + flatPaletteBytes) :
    exec (.opReadFlatPalette p) s = .next (s.raise (.outOfBounds p flatPaletteBytes)) := by
  rw [exec, execOpReadFlatPalette_eq, readFlatPalette, inBytes_of_lt hlt]
  rfl

/-- Settles O26: the range is read whole and cut into entries, or it leaves the record and raises. -/
theorem readPaletteAnswersStoredEntries : Obligations.ReadPaletteAnswersStoredEntries := by
  intro p w h s
  refine ⟨fun hle => ?inside, fun _ hlt => ?outside⟩
  case inside =>
    exact ⟨_, exec_opReadPalette_of_le hle, entriesOf_bytesAt_length colorRgba hle,
      fun j hj => entriesOf_bytesAt_getElem? colorRgba hle hj⟩
  case outside => exact ⟨_, exec_opReadPalette_of_lt hlt, State.raise_phase _ s, State.raise_result _ s⟩

/-- Settles O27: the range holds 256 words, and an entry's channels are the bytes of its word. -/
theorem readFlatPaletteAnswersArgbWords : Obligations.ReadFlatPaletteAnswersArgbWords := by
  intro p s
  refine ⟨fun hle => ?inside, fun hlt => ?outside⟩
  case inside =>
    refine ⟨_, exec_opReadFlatPalette_of_le hle, entriesOf_bytesAt_length (n := 256) colorArgbLe hle, fun j hj => ?_⟩
    exact (entriesOf_bytesAt_getElem? (n := 256) colorArgbLe hle hj).trans
      (congrArg some (colorArgbLe_eq_ofNat (by omega)))
  case outside => exact ⟨_, exec_opReadFlatPalette_of_lt hlt, State.raise_phase _ s, State.raise_result _ s⟩

/-! ### UNSWIZZLE_CLUT (R94) -/

/-- The mask formula of R94 puts bit 3 before bit 4 and leaves the three bits on either side in place. -/
theorem swapBits34_eq_append (i : Byte) :
    swapBits34 i = i.extractLsb' 5 3 ++ i.extractLsb' 3 1 ++ i.extractLsb' 4 1 ++ i.extractLsb' 0 3 := by
  refine BitVec.eq_of_getLsbD_eq fun k hk => ?_
  simp only [swapBits34, BitVec.getLsbD_append, BitVec.getLsbD_or, BitVec.getLsbD_and]
  interval_cases k <;> simp

theorem toNat_append_eq_add {m n : Nat} (hi : BitVec m) (lo : BitVec n) :
    (hi ++ lo).toNat = 2 ^ n * hi.toNat + lo.toNat := by
  rw [BitVec.toNat_append, ← Nat.shiftLeft_add_eq_or_of_lt lo.isLt, Nat.shiftLeft_eq, Nat.mul_comm]

/-- The map of R94 in arithmetic. -/
theorem swapBits34_ofNat_toNat {j : Nat} (hj : j < 256) :
    (swapBits34 (BitVec.ofNat 8 j)).toNat = j % 8 + 8 * (j / 16 % 2) + 16 * (j / 8 % 2) + 32 * (j / 32) := by
  simp only [swapBits34_eq_append, toNat_append_eq_add, BitVec.extractLsb'_toNat, Nat.shiftRight_eq_div_pow,
    BitVec.toNat_ofNat]
  omega

/-- Entry `j` of a reordered palette; the map of R94 stays below 256, so no entry is made up. -/
theorem unswizzleClut_getElem? {pal : List Color} (hlen : pal.length = 256) {j : Nat} (hj : j < 256) :
    (unswizzleClut pal)[j]? = pal[(swapBits34 (BitVec.ofNat 8 j)).toNat]? := by
  have hbound : (swapBits34 (BitVec.ofNat 8 j)).toNat < pal.length := hlen ▸ (swapBits34 (BitVec.ofNat 8 j)).isLt
  rw [unswizzleClut, if_pos hlen, List.getElem?_map, List.getElem?_range hj, Option.map_some,
    List.getD_eq_getElem _ _ hbound, List.getElem?_eq_getElem hbound]

/-- Settles O28: entry `j` is the stored entry at the index whose bits 3 and 4 changed places. -/
theorem unswizzleSwapsBitsThreeAndFour : Obligations.UnswizzleSwapsBitsThreeAndFour := by
  intro pal s
  refine ⟨_, rfl, unswizzleClut_length pal, fun hlen j hj => ?swapped, fun hlen => if_neg hlen⟩
  rw [unswizzleClut_getElem? hlen hj, swapBits34_ofNat_toNat hj]

/-! ### APPLY_PALETTE (R96) -/

/-- With entries in the palette the index modulo their count is an index of one. -/
theorem getElem?_eq_some_paletteColor {pal : List Color} (hpos : 0 < pal.length) (k : Nat) (index : Byte) :
    pal[index.toNat % pal.length]? = some (paletteColor pal k index) := by
  have hbound := Nat.mod_lt index.toNat hpos
  rw [paletteColor, if_neg hpos.ne', List.getD_eq_getElem _ _ hbound, List.getElem?_eq_getElem hbound]

/-- The loop that stands at index `k` answers for its `j`-th byte the channels of the color of index `k + j`. -/
theorem applyPaletteFrom_getD (pal : List Color) (k : Nat) {idx : List Byte} {j b : Nat} (hj : j < idx.length)
    (hb : b < 4) :
    (applyPaletteFrom pal k idx).getD (4 * j + b) 0#8 =
      (colorBytes (paletteColor pal (k + j) (idx.getD j 0#8))).getD b 0#8 := by
  induction idx generalizing k j with
  | nil => exact absurd hj (Nat.not_lt_zero j)
  | cons index rest ih =>
    cases j with
    | zero =>
      rw [Nat.mul_zero, Nat.zero_add]
      exact List.getD_append (colorBytes (paletteColor pal k index)) _ 0#8 b hb
    | succ j =>
      have hpos : 4 * (j + 1) + b = 4 * j + b + 4 := by omega
      have hindex : k + (j + 1) = k + 1 + j := by omega
      rw [hpos, hindex]
      exact ih (k + 1) (Nat.lt_of_succ_lt_succ hj)

/-- Settles O30: four bytes per index, those of the entry at the index modulo the count. -/
theorem applyPaletteTakesIndexModuloCount : Obligations.ApplyPaletteTakesIndexModuloCount := by
  intro pal idx s hpos
  refine ⟨_, rfl, applyPalette_length pal idx, fun k hk => ?_⟩
  have hbytes {b : Nat} (hb : b < 4) := applyPaletteFrom_getD pal 0 hk hb
  exact ⟨_, getElem?_eq_some_paletteColor hpos (0 + k) _, hbytes (b := 0) (by decide), hbytes (b := 1) (by decide),
    hbytes (b := 2) (by decide), hbytes (b := 3) (by decide)⟩

/-! ### EXPAND4 (R97) -/

theorem nibbleOf_lt (bs : List Byte) (k : Nat) : nibbleOf bs k < 16 := Nat.mod_lt _ (by decide)

theorem nibbleOf_two_mul (bs : List Byte) (k : Nat) : nibbleOf bs (2 * k) = (bs.getD k 0#8).toNat % 16 := by
  simp [nibbleOf]

theorem nibbleOf_two_mul_add_one (bs : List Byte) (k : Nat) :
    nibbleOf bs (2 * k + 1) = (bs.getD k 0#8).toNat / 16 := by
  have hb := (bs.getD k 0#8).isLt
  have hdiv : (2 * k + 1) / 2 = k := by omega
  have hmod : (2 * k + 1) % 2 = 1 := by omega
  rw [nibbleOf, hdiv, hmod, pow_one]
  omega

theorem toNat_lt_of_mem_expand4 {bs : List Byte} {b : Byte} (hb : b ∈ expand4 bs) : b.toNat < 16 := by
  obtain ⟨k, hk, rfl⟩ := List.mem_iff_getElem.1 hb
  rw [← List.getD_eq_getElem (expand4 bs) 0#8 hk, expand4_getD_toNat]
  exact nibbleOf_lt bs k

/-- Settles O32: EXPAND4 answers the nibbles of the string in order, and byte `k` holds nibbles `2 * k` and `2 * k + 1`. -/
theorem expand4SplitsNibblesLowFirst : Obligations.Expand4SplitsNibblesLowFirst := by
  intro bs s
  refine ⟨_, rfl, expand4_length bs, fun k _ => ⟨?low, ?high⟩, fun b => toNat_lt_of_mem_expand4⟩
  case low => rw [expand4_getD_toNat, nibbleOf_two_mul]
  case high => rw [expand4_getD_toNat, nibbleOf_two_mul_add_one]

end Sys2Proof.Machine
end

