-- ==== Sys2Proof/Proofs/ClassSteps.lean ====
section
/-! The header step and the record classes flat, direct and indexed (43_sequencer.md R99, R102, R103, R105): for each, what
it answers when its reads lie in the record, and that it raises OutOfBounds when one does not. -/

namespace Sys2Proof.Machine

/-! ### OutOfBounds -/

/-- The operation raises OutOfBounds; which range left the record is diagnostic only (R112). -/
def RaisesOutOfBounds (r : Except Raise State) : Prop := ∃ e, r = .error e ∧ e.kind = .outOfBounds

theorem orRaise_of_raisesOutOfBounds {r : Except Raise State} (h : RaisesOutOfBounds r) (s : State) :
    (orRaise s r).phase = .failed ∧ (orRaise s r).result = some (.error .outOfBounds) := by
  obtain ⟨e, rfl, hkind⟩ := h
  exact ⟨rfl, congrArg (some ∘ Result.error) hkind⟩

/-! ### The header step (R99) -/

theorem headerStep_of_short {s : State} (h : s.inp.length < 20) : headerStep s = .error (.outOfBounds 0 headerBytes) :=
  if_pos h

/-- A zero size is seen once the header is whole. -/
theorem headerStep_of_zero_size {s : State} (hlen : 20 ≤ s.inp.length)
    (h : valueAt s.inp 0 2 = 0 ∨ valueAt s.inp 2 2 = 0) : headerStep s = .error .invalidHeader := by
  have hwidth : (headerOf s.inp).width = .ofNat 16 (valueAt s.inp 0 2) := fieldAt_of_le 16 (by omega)
  have hheight : (headerOf s.inp).height = .ofNat 16 (valueAt s.inp 2 2) := fieldAt_of_le 16 (by omega)
  have hzero : (headerOf s.inp).width = 0#16 ∨ (headerOf s.inp).height = 0#16 := by
    rw [hwidth, hheight]
    exact h.imp (fun h0 => by rw [h0]) (fun h0 => by rw [h0])
  rw [headerStep, if_neg (show ¬ s.inp.length < headerBytes from Nat.not_lt.2 hlen)]
  exact if_pos hzero

theorem step_header_of_headerStep_error {s : State} {e : Raise} (hp : s.phase = .header) (h : headerStep s = .error e) :
    step s = .next (s.raise e) :=
  step_header_of_error hp (by rw [openRecord, h])

/-- The state after the step of a header that passes, with a first tag in the record where one is needed: only `END`,
phase and result differ from the latched state. -/
theorem step_header_of_valid {s : State} {tagOff : Int} (hp : s.phase = .header) (hlen : 20 ≤ s.inp.length)
    (hw : valueAt s.inp 0 2 ≠ 0) (hh : valueAt s.inp 2 2 ≠ 0)
    (hT : tagOff = (if valueAt s.inp 16 4 < 2 ^ 31 then (valueAt s.inp 16 4 : Int) else (valueAt s.inp 16 4 : Int) - 2 ^ 32))
    (hfit : tagOff ≤ 0 ∨ tagOff + 16 ≤ s.inp.length) :
    ∃ scanEnd phase result, phase ≠ .failed ∧
      step s = .next { s.headerLatched with scanEnd := scanEnd, phase := phase, result := result } := by
  obtain ⟨hflat, _, hinside⟩ := firstTagSelectsClass s tagOff hp hlen hw hh hT
  by_cases hT0 : tagOff ≤ 0
  · exact ⟨_, _, _, by decide, hflat hT0⟩
  · obtain ⟨hdirect, hindexed, hblank⟩ := hinside (by omega) (by omega)
    by_cases h3 : nloopAt s.inp tagOff.toNat = 3
    · exact ⟨_, _, _, by decide, hdirect h3⟩
    · by_cases h4 : nloopAt s.inp tagOff.toNat = 4
      · exact ⟨_, _, _, by decide, hindexed h4⟩
      · exact ⟨_, _, _, by decide, hblank h3 h4⟩

/-- Settles O33: the two checks raise in their order, and a header that passes them is latched before the class is
selected (O34). -/
theorem headerStepChecksAndLatches : Obligations.HeaderStepChecksAndLatches := by
  intro s tagOff hp hT
  have hstep : step s = .next (seqStep s) := step_sequencer (.inl (by rw [hp]; rfl))
  have seqStep_eq {t : State} (ht : step s = .next t) : seqStep s = t := Host.Outcome.next.inj (hstep.symm.trans ht)
  refine ⟨seqStep s, hstep, fun hshort => ?short, fun hlen hzero => ?zeroSize,
    fun hlen hw hh => ⟨fun hfit => ?latched, fun hpos hlt => ?outside⟩⟩
  case short =>
    rw [seqStep_eq (step_header_of_headerStep_error hp (headerStep_of_short hshort))]
    exact ⟨rfl, rfl⟩
  case zeroSize =>
    rw [seqStep_eq (step_header_of_headerStep_error hp (headerStep_of_zero_size hlen hzero))]
    exact ⟨rfl, rfl⟩
  case latched =>
    obtain ⟨_, _, _, hphase, ht⟩ := step_header_of_valid hp hlen hw hh hT hfit
    rw [seqStep_eq ht]
    exact ⟨hphase, rfl, rfl, rfl, (State.headerLatched_tagOff_toInt hlen).trans hT.symm⟩
  case outside =>
    obtain ⟨_, houtside, _⟩ := firstTagSelectsClass s tagOff hp hlen hw hh hT
    obtain ⟨t, ht, hfailed⟩ := houtside hpos hlt
    rw [seqStep_eq ht]
    exact hfailed

/-! ### RECORD_FLAT (R102) -/

theorem readFlatPalette_of_le {inp : List Byte} {p : Nat} (h : p + flatPaletteBytes ≤ inp.length) :
    readFlatPalette inp p = .ok (entriesOf colorArgbLe (bytesAt inp p flatPaletteBytes)) := by
  rw [readFlatPalette, inBytes_of_le h]

theorem readFlatPalette_of_lt {inp : List Byte} {p : Nat} (h : inp.length < p + flatPaletteBytes) :
    readFlatPalette inp p = .error (.outOfBounds p flatPaletteBytes) := by
  rw [readFlatPalette, inBytes_of_lt h]

theorem exec_recordFlat (hd : Header) (s : State) : exec (.recordFlat hd) s = .next (orRaise s (flatStep s)) := rfl

theorem flatStep_of_le {s : State} {pal : List Color} (hpal : readFlatPalette s.inp flatPaletteOffset = .ok pal)
    (h : 1044 + s.width.toNat * s.height.toNat ≤ s.inp.length) :
    flatStep s = .ok (State.finish
      { width := s.width, height := s.height, kind := .indexed8,
        buffer := bytesAt s.inp 1044 (s.width.toNat * s.height.toNat), palette := some pal }
      { s with pal := pal }) := by
  have hpixels : inBytes s.inp (flatPaletteOffset + flatPaletteBytes) (s.width.toNat * s.height.toNat) =
      .ok (bytesAt s.inp 1044 (s.width.toNat * s.height.toNat)) := inBytes_of_le h
  rw [flatStep, hpal]
  simp only [hpixels]

/-- The palette or the pixels leave the record. -/
theorem flatStep_of_lt {s : State} (h : s.inp.length < 1044 + s.width.toNat * s.height.toNat) :
    RaisesOutOfBounds (flatStep s) := by
  rcases Nat.lt_or_ge s.inp.length (flatPaletteOffset + flatPaletteBytes) with hlt | hle
  · exact ⟨.outOfBounds _ _, by rw [flatStep, readFlatPalette_of_lt hlt], rfl⟩
  · have hpixels := inBytes_of_lt (a := flatPaletteOffset + flatPaletteBytes) h
    have hstep : flatStep s =
        .error (.outOfBounds (flatPaletteOffset + flatPaletteBytes) (s.width.toNat * s.height.toNat)) := by
      rw [flatStep, readFlatPalette_of_le hle]
      simp only [hpixels]
    exact ⟨_, hstep, rfl⟩

/-- Settles O35: the palette is the one READ_FLAT_PALETTE answers at 20, the pixels are a copy. -/
theorem flatRecordGivesIndexedImage : Obligations.FlatRecordGivesIndexedImage := by
  intro hd s
  refine ⟨fun hle => ?inside, fun hlt => ?outside⟩
  case inside =>
    have hpalFit : 20 + flatPaletteBytes ≤ s.inp.length := le_trans (Nat.le_add_right 1044 _) hle
    have hpal := readFlatPalette_of_le hpalFit
    obtain ⟨_, hcount⟩ := readFlatPalette_ok hpal
    refine ⟨_, ?image, exec_opReadFlatPalette_of_le hpalFit, hcount⟩
    rw [exec_recordFlat, flatStep_of_le hpal hle]
    rfl
  case outside => exact ⟨_, exec_recordFlat hd s, orRaise_of_raisesOutOfBounds (flatStep_of_lt hlt) s⟩

/-! ### RECORD_DIRECT (R103) -/

/-- A positive `T` is its own unsigned value (R100). -/
theorem tagStart_of_pos {tagOff : Word} (h : 0 < tagOff.toInt) : tagStart tagOff = tagOff.toNat := by
  have hlt := tagOff.isLt
  rw [BitVec.toInt_eq_toNat_cond] at h
  rw [tagStart, BitVec.toInt_eq_toNat_cond]
  split_ifs at h ⊢ <;> omega

theorem exec_recordDirect (flg : BitVec 2) (r : TagRest) (s : State) :
    exec (.recordDirect flg r) s = .next (orRaise s (directStep s)) := rfl

theorem directStep_of_le {s : State}
    (h : tagStart s.tagOff + 80 + 4 * (s.width.toNat * s.height.toNat) ≤ s.inp.length) :
    directStep s = .ok (s.finish
      { width := s.width, height := s.height, kind := .directColor,
        buffer := bytesAt s.inp (tagStart s.tagOff + 80) (4 * (s.width.toNat * s.height.toNat)), palette := none }) := by
  rw [directStep, directPixelOffset, inBytes_of_le h]

theorem directStep_of_lt {s : State}
    (h : s.inp.length < tagStart s.tagOff + 80 + 4 * (s.width.toNat * s.height.toNat)) :
    RaisesOutOfBounds (directStep s) :=
  ⟨.outOfBounds _ _, by rw [directStep, directPixelOffset, inBytes_of_lt h], rfl⟩

/-- Settles O36: one read, at the unsigned value of a positive `T`. -/
theorem directRecordCopiesPixels : Obligations.DirectRecordCopiesPixels := by
  intro flg r s hpos
  rw [← tagStart_of_pos hpos]
  refine ⟨fun hle => ?inside, fun hlt => ?outside⟩
  case inside =>
    rw [exec_recordDirect, directStep_of_le hle]
    rfl
  case outside => exact ⟨_, exec_recordDirect flg r s, orRaise_of_raisesOutOfBounds (directStep_of_lt hlt) s⟩

/-! ### RECORD_INDEXED (R105) -/

theorem readPalette_of_le {inp : List Byte} {p w h : Nat} (hle : p + 4 * (w * h) ≤ inp.length) :
    readPalette inp p w h = .ok (entriesOf colorRgba (bytesAt inp p (4 * (w * h)))) := by
  rw [readPalette, inBytes_of_le hle]

theorem readPalette_of_lt {inp : List Byte} {p w h : Nat} (hlt : inp.length < p + 4 * (w * h)) :
    readPalette inp p w h = .error (.outOfBounds p (4 * (w * h))) := by
  rw [readPalette, inBytes_of_lt hlt]

theorem exec_recordIndexed (flg : BitVec 2) (r : TagRest) (s : State) :
    exec (.recordIndexed flg r) s = .next (orRaise s (clutStep s)) := rfl

theorem clutStep_of_noSlot {s : State} (h : NoSlot s.inp (tagStart s.tagOff + 16) 4 s.inp.length idTrxreg) :
    clutStep s = .ok (blankStep s) := by
  rw [clutStep, lookupReg_of_noSlot le_rfl (Nat.succ_pos _) h]

theorem clutStep_of_isFirstSlot {s : State} {o : Nat}
    (h : IsFirstSlot s.inp (tagStart s.tagOff + 16) 4 s.inp.length idTrxreg o) :
    clutStep s = clutLoad (.ofNat 64 (valueAt s.inp o 8)) s := by
  rw [clutStep, lookupReg_of_isFirstSlot le_rfl (Nat.succ_pos _) h]

section ClutLoad

variable {v : Quad} {s : State} {w h : Nat}

theorem clutLoad_of_other_count (hw : (latchTrxreg v).rrw.toNat = w) (hh : (latchTrxreg v).rrh.toNat = h)
    (h16 : w * h ≠ 16) (h256 : w * h ≠ 256) : clutLoad v s = .ok (blankStep s) := by
  simp only [clutLoad, hw, hh]
  exact if_pos ⟨h16, h256⟩

/-- The second tag or the palette behind it leaves the record. -/
theorem clutLoad_of_lt (hw : (latchTrxreg v).rrw.toNat = w) (hh : (latchTrxreg v).rrh.toNat = h)
    (hcount : w * h = 16 ∨ w * h = 256) (hlt : s.inp.length < tagStart s.tagOff + 96 + 4 * (w * h)) :
    RaisesOutOfBounds (clutLoad v s) := by
  simp only [clutLoad, hw, hh]
  rw [if_neg (by omega)]
  rcases Nat.lt_or_ge s.inp.length (tagStart s.tagOff + secondTagOffset + 16) with htag | htag
  · obtain ⟨x, hx⟩ := parseTag_of_lt htag
    exact ⟨.outOfBounds x 8, by rw [hx], rfl⟩
  · exact ⟨.outOfBounds _ _, by rw [parseTag_of_le htag, clutPaletteOffset, readPalette_of_lt hlt], rfl⟩

theorem clutLoad_of_le (hw : (latchTrxreg v).rrw.toNat = w) (hh : (latchTrxreg v).rrh.toNat = h)
    (hcount : w * h = 16 ∨ w * h = 256) (hle : tagStart s.tagOff + 96 + 4 * (w * h) ≤ s.inp.length) :
    clutLoad v s = .ok { s with
      pal := unswizzleClut (entriesOf colorRgba (bytesAt s.inp (tagStart s.tagOff + 96) (4 * (w * h))))
      cur := tagStart s.tagOff + 96 + 16 * nloopAt s.inp (tagStart s.tagOff + 80)
      phase := .scanning } := by
  have htag : tagStart s.tagOff + secondTagOffset + 16 ≤ s.inp.length := by rw [secondTagOffset]; omega
  simp only [clutLoad, hw, hh]
  rw [if_neg (by omega), parseTag_of_le htag, clutPaletteOffset, readPalette_of_le hle]
  simp only [payloadLen, tagDescriptor, tagNloop_toNat, secondTagOffset]

end ClutLoad

/-- Settles O38: the lookup of TRXREG is determined by the record, and its latch declares the palette's two sizes. -/
theorem indexedRecordLoadsPalette : Obligations.IndexedRecordLoadsPalette := by
  intro flg r s hpos
  rw [← tagStart_of_pos hpos]
  refine ⟨fun hno => ?absent, fun o ho => ?found⟩
  case absent =>
    rw [exec_recordIndexed, clutStep_of_noSlot hno]
    rfl
  case found =>
    have hlatch := latchTrxreg_eq (.ofNat 64 (valueAt s.inp o 8))
    rw [ho.toNat_value le_rfl] at hlatch
    have hw : (latchTrxreg (.ofNat 64 (valueAt s.inp o 8))).rrw.toNat = valueAt s.inp o 8 % 2 ^ 12 := by
      rw [hlatch, BitVec.toNat_ofNat]
    have hh : (latchTrxreg (.ofNat 64 (valueAt s.inp o 8))).rrh.toNat = valueAt s.inp o 8 / 2 ^ 32 % 2 ^ 12 := by
      rw [hlatch, BitVec.toNat_ofNat]
    rw [ClutOutcome, ← tagStart_of_pos hpos, exec_recordIndexed, clutStep_of_isFirstSlot ho]
    refine ⟨fun h16 h256 => ?blank, fun hcount => ⟨fun hlt => ?outside, fun hle => ?loaded⟩⟩
    case blank =>
      rw [clutLoad_of_other_count hw hh h16 h256]
      rfl
    case outside => exact ⟨_, rfl, orRaise_of_raisesOutOfBounds (clutLoad_of_lt hw hh hcount hlt) s⟩
    case loaded =>
      refine ⟨_, _, exec_opReadPalette_of_le hle, rfl, ?_⟩
      rw [clutLoad_of_le hw hh hcount hle]
      rfl

end Sys2Proof.Machine
end

