-- ==== Sys2Proof/Proofs/ImagePacket.lean ====
section
/-! Image packets (43_sequencer.md R108, R109): the payload a packet brings, alone or joined with the packet right behind
it, and the transfer that follows, up to the scan's next step. -/

namespace Sys2Proof.Machine

/-! ### The payload (R108) -/

section Payload

variable {inp : List Byte} {scanEnd c c2 n2 : Nat} {n : BitVec 15}

theorem imagePayload_of_lt (hc2 : c2 = c + 16 + 16 * n.toNat) (h : inp.length < c2) :
    imagePayload inp scanEnd c n = .error (.outOfBounds (c + 16) (payloadLen n)) := by
  rw [imagePayload, inBytes_of_lt (by rw [payloadLen]; omega)]

/-- Past `END`, or before a packet that is no image, the payload stands alone; the peeked tag stays unconsumed. -/
theorem imagePayload_alone (hend : scanEnd ≤ inp.length) (hc2 : c2 = c + 16 + 16 * n.toNat) (h : c2 ≤ inp.length)
    (hnext : scanEnd < c2 + 16 ∨ flgAt inp c2 ≠ 2) :
    imagePayload inp scanEnd c n = .ok (bytesAt inp (c + 16) (16 * n.toNat), c2) := by
  subst hc2
  rw [imagePayload, payloadLen, inBytes_of_le h]
  dsimp only
  by_cases hpast : scanEnd < c + 16 + 16 * n.toNat + 16
  · rw [if_pos hpast]
  · have hother : (tagDescriptor (quadsAt inp (c + 16 + 16 * n.toNat)).1).flg ≠ flgImage :=
      mt (tagFlg_quadsAt_eq_image_iff inp _).1 (hnext.resolve_left hpast)
    rw [if_neg hpast, parseTag_of_le (by omega)]
    dsimp only
    rw [if_neg hother]

/-- An image packet right behind the payload, within `END`, is joined: its own payload is read as well. -/
theorem imagePayload_followed (hend : scanEnd ≤ inp.length) (hc2 : c2 = c + 16 + 16 * n.toNat) (hn2 : n2 = nloopAt inp c2)
    (hfit : c2 + 16 ≤ scanEnd) (himage : flgAt inp c2 = 2) :
    imagePayload inp scanEnd c n =
      (inBytes inp (c2 + 16) (16 * n2)).map fun d2 => (bytesAt inp (c + 16) (16 * n.toNat) ++ d2, c2 + 16 + 16 * n2) := by
  subst hc2
  have hflg : (tagDescriptor (quadsAt inp (c + 16 + 16 * n.toNat)).1).flg = flgImage :=
    (tagFlg_quadsAt_eq_image_iff inp _).2 himage
  have hlen : payloadLen (tagDescriptor (quadsAt inp (c + 16 + 16 * n.toNat)).1).nloop = 16 * n2 := by
    rw [hn2, ← tagNloop_toNat]
    rfl
  rw [imagePayload, payloadLen, inBytes_of_le (by omega)]
  dsimp only
  rw [if_neg (by omega), parseTag_of_le (by omega)]
  dsimp only
  rw [if_pos hflg, hlen]
  cases inBytes inp (c + 16 + 16 * n.toNat + 16) (16 * n2) <;> rfl

end Payload

/-! ### The transfer (R109) -/

theorem goesThroughSurface_iff (entries : Nat) (dpsm : BitVec 6) :
    goesThroughSurface entries dpsm = true ↔ entries = 256 ∨ dpsm.toNat = 0 := by
  have hdpsm : dpsm = psmPsmct32 ↔ dpsm.toNat = 0 := BitVec.toNat_inj.symm
  rw [goesThroughSurface, Bool.or_eq_true, beq_iff_eq, beq_iff_eq, hdpsm]

theorem transfer_scanning (payload : List Byte) (c2 : Nat) (s : State) :
    { transfer payload s with cur := c2, phase := .scanning } = s.afterTransfer payload c2 := by
  have hiff := goesThroughSurface_iff s.pal.length s.bitbltbuf.dpsm
  rw [State.afterTransfer]
  rcases transfer_cases payload s with ⟨hsurface, ht⟩ | ⟨hlinear, ht⟩
  · rw [ht, if_pos (hiff.1 hsurface)]
  · rw [ht, if_neg (mt hiff.2 (by rw [hlinear]; decide))]

theorem step_transferring {s : State} (hp : s.phase = .transferring) : step s = .next { s with phase := .scanning } := by
  rw [step_sequencer (.inl (by rw [hp]; rfl)), seqStep, hp]

/-! ### GIFTAG_IMAGE -/

theorem exec_giftagImage (n : BitVec 15) (r : TagRest) (s : State) :
    exec (.giftagImage n r) s = .next (orRaise s (imageStep n s)) := rfl

theorem imageStep_of_payload {n : BitVec 15} {s : State} {d : List Byte} {c2 : Nat}
    (h : imagePayload s.inp s.scanEnd s.cur n = .ok (d, c2)) :
    imageStep n s = .ok { transfer d s with cur := c2, phase := .transferring } := by
  rw [imageStep, h]

/-- A payload that was read is transferred; the machine rests in `Transferring` before it scans on (log 14). -/
theorem transfers_of_payload {n : BitVec 15} {s : State} {d : List Byte} {c2 : Nat} (r : TagRest)
    (h : imagePayload s.inp s.scanEnd s.cur n = .ok (d, c2)) :
    Transfers (.giftagImage n r) s (s.afterTransfer d c2) := by
  rw [← transfer_scanning]
  refine ⟨{ transfer d s with cur := c2, phase := .transferring }, ?_, rfl, .inr (step_transferring rfl)⟩
  rw [exec_giftagImage, imageStep_of_payload h]
  rfl

theorem fails_of_payload_error {n : BitVec 15} {s : State} {e : Raise} (r : TagRest)
    (h : imagePayload s.inp s.scanEnd s.cur n = .error e) :
    ∃ t, exec (.giftagImage n r) s = .next t ∧ t.phase = .failed ∧ t.result = some (.error .outOfBounds) := by
  have hstep : imageStep n s = .error e := by rw [imageStep, h]
  exact ⟨_, exec_giftagImage n r s, orRaise_of_raisesOutOfBounds ⟨e, hstep, imagePayload_error h⟩ s⟩

/-- Settles O40: the packet stands or fails with its payload, of which there are three cases: it leaves the record, stands
alone, or is joined with the next one, which may leave the record in its turn. -/
theorem imagePacketTransfersPayload : Obligations.ImagePacketTransfersPayload := by
  intro n r s c2 n2 hend hc2 hn2
  refine ⟨fun hlt => ?outside, fun hle hnext => ?alone, fun hfit himage hlt => ?joinedOutside,
    fun hfit himage hle => ?joined⟩
  case outside => exact fails_of_payload_error r (imagePayload_of_lt hc2 hlt)
  case alone => exact transfers_of_payload r (imagePayload_alone hend hc2 hle hnext)
  case joinedOutside =>
    have hpayload := imagePayload_followed hend hc2 hn2 hfit himage
    rw [inBytes_of_lt hlt] at hpayload
    exact fails_of_payload_error r hpayload
  case joined =>
    have hpayload := imagePayload_followed hend hc2 hn2 hfit himage
    rw [inBytes_of_le hle] at hpayload
    exact transfers_of_payload r hpayload

end Sys2Proof.Machine
end

