-- ==== Sys2Proof/Proofs/Readback.lean ====
section
/-! READBACK (43_sequencer.md R110): the index of a pixel does not depend on how far the rectangle was rounded up, so every
pixel gets the color of its own index. -/

namespace Sys2Proof.Machine

/-! ### Pixels in row order -/

section RowOrder

variable {w h wr hr x y : Nat} {idx : List Byte}

theorem rowOrder_lt (hx : x < w) (hy : y < h) : y * w + x < h * w :=
  calc y * w + x < (y + 1) * w := by rw [Nat.succ_mul]; exact Nat.add_lt_add_left hx _
    _ ≤ h * w := Nat.mul_le_mul_right w hy

theorem rowOrder_mod (hx : x < w) : (y * w + x) % w = x := by
  rw [Nat.mul_comm, Nat.mul_add_mod, Nat.mod_eq_of_lt hx]

theorem rowOrder_div (hx : x < w) : (y * w + x) / w = y := by
  rw [Nat.mul_comm, Nat.mul_add_div (Nat.zero_lt_of_lt hx), Nat.div_eq_of_lt hx, Nat.add_zero]

/-! ### Cropping and padding -/

theorem crop_succ (w h wr : Nat) (idx : List Byte) :
    crop w (h + 1) wr idx = crop w h wr idx ++ (idx.drop (h * wr)).take w := by
  simp only [crop, List.range_succ, List.flatMap_append, List.flatMap_singleton]

/-- The crop keeps the pixel at `(x, y)`: it is in the last row, or in the crop of the rows before. -/
theorem crop_getD (hw : w ≤ wr) (hidx : h * wr ≤ idx.length) (hx : x < w) (hy : y < h) :
    (crop w h wr idx).getD (y * w + x) 0#8 = idx.getD (y * wr + x) 0#8 := by
  induction h with
  | zero => exact absurd hy (Nat.not_lt_zero y)
  | succ h ih =>
    rw [Nat.succ_mul] at hidx
    have hlen : (crop w h wr idx).length = h * w := crop_length hw le_rfl (by rw [Nat.mul_comm]; omega)
    rw [crop_succ]
    rcases Nat.lt_succ_iff_lt_or_eq.1 hy with hbefore | rfl
    · rw [List.getD_append _ _ _ _ (by rw [hlen]; exact rowOrder_lt hx hbefore)]
      exact ih (by omega) hbefore
    · rw [List.getD_append_right _ _ _ _ (by omega), hlen, Nat.add_sub_cancel_left]
      simp only [List.getD_eq_getElem?_getD, List.getElem?_take_of_lt hx, List.getElem?_drop]

theorem crop_roundUp_getD {g : Nat} (hg : 0 < g) (hidx : roundUp w g * roundUp h g ≤ idx.length) (hx : x < w) (hy : y < h) :
    (crop w h (roundUp w g) idx).getD (y * w + x) 0#8 = idx.getD (y * roundUp w g + x) 0#8 := by
  have hrows : h * roundUp w g ≤ idx.length :=
    calc h * roundUp w g ≤ roundUp h g * roundUp w g := Nat.mul_le_mul_right _ (le_roundUp h hg)
      _ = roundUp w g * roundUp h g := Nat.mul_comm _ _
      _ ≤ idx.length := hidx
  exact crop_getD (le_roundUp w hg) hrows hx hy

theorem takePadded_getD {n k : Nat} (hk : k < n) : (takePadded n idx).getD k 0#8 = idx.getD k 0#8 := by
  rcases Nat.lt_or_ge k idx.length with hlt | hge
  · have hin : k < (idx.take n).length := by rw [List.length_take]; omega
    rw [takePadded, List.getD_append _ _ _ _ hin, List.getD_eq_getElem?_getD, List.getElem?_take_of_lt hk,
      List.getD_eq_getElem?_getD]
  · have hall : idx.take n = idx := List.take_of_length_le (by omega)
    rw [takePadded, hall, List.getD_append_right _ _ _ _ hge, List.getD_replicate (h := by omega),
      List.getD_eq_default _ _ hge]

/-! ### The surface read in a rounded rectangle -/

theorem readPsmt8_getD (unit dbp dbw : Nat) (m : Memory) (hx : x < wr) (hy : y < hr) :
    (readPsmt8 unit dbp dbw 0 0 wr hr m).getD (y * wr + x) 0#8 = memRead m (addr8 unit dbp dbw x y) := by
  have hk : y * wr + x < wr * hr := Nat.mul_comm hr wr ▸ rowOrder_lt hx hy
  rw [readPsmt8, map_rectPixels_getD _ _ 0 0 hk, rowOrder_mod hx, rowOrder_div hx, Nat.zero_add, Nat.zero_add]

theorem expand4_readPsmt4_getD_toNat (unit dbp dbw : Nat) (m : Memory) (hx : x < wr) (hy : y < hr) :
    ((expand4 (readPsmt4 unit dbp dbw 0 0 wr hr m)).getD (y * wr + x) 0#8).toNat =
      (memRead m (addr4 unit dbp dbw x y / 2)).toNat / 16 ^ (addr4 unit dbp dbw x y % 2) % 16 := by
  have hk : y * wr + x < wr * hr := Nat.mul_comm hr wr ▸ rowOrder_lt hx hy
  rw [expand4_getD_toNat, nibbleOf_readPsmt4 _ _ _ 0 0 _ hk, rowOrder_mod hx, rowOrder_div hx, Nat.zero_add, Nat.zero_add,
    memReadNibble_toNat]

end RowOrder

/-! ### Indices (R110) -/

/-- The index buffer holds each pixel's index, from whichever of the three sources. -/
theorem readbackIndices_getD_toNat {s : State} {x y : Nat} (hx : x < s.width.toNat) (hy : y < s.height.toNat) :
    ((readbackIndices s).getD (y * s.width.toNat + x) 0#8).toNat = s.pixelIndex x y := by
  have hx' {g : Nat} (hg : 0 < g) : x < roundUp s.width.toNat g := lt_of_lt_of_le hx (le_roundUp _ hg)
  have hy' {g : Nat} (hg : 0 < g) : y < roundUp s.height.toNat g := lt_of_lt_of_le hy (le_roundUp _ hg)
  have h8 : 0 < granularity8 := by decide
  have h4 : 0 < granularity4 := by decide
  unfold readbackIndices State.pixelIndex
  dsimp only
  by_cases h256 : s.pal.length = 256
  · rw [if_pos h256, if_pos h256, crop_roundUp_getD h8 (by rw [readPsmt8_length]) hx hy,
      readPsmt8_getD _ _ _ _ (hx' h8) (hy' h8)]
  rw [if_neg h256, if_neg h256]
  by_cases hsurface : s.surfaceUsed = true
  · have hroom : roundUp s.width.toNat granularity4 * roundUp s.height.toNat granularity4 ≤
        2 * ((roundUp s.width.toNat granularity4 * roundUp s.height.toNat granularity4 + 1) / 2) := by omega
    rw [if_pos hsurface, if_pos hsurface, crop_roundUp_getD h4 (by rwa [expand4_length, readPsmt4_length]) hx hy,
      expand4_readPsmt4_getD_toNat _ _ _ _ (hx' h4) (hy' h4)]
  · have hk : y * s.width.toNat + x < s.width.toNat * s.height.toNat := Nat.mul_comm s.height.toNat _ ▸ rowOrder_lt hx hy
    rw [if_neg hsurface, if_neg hsurface, takePadded_getD hk, expand4_getD_toNat]

/-! ### The step of phase Readback -/

theorem step_readback {s : State} (hp : s.phase = .readback) : step s = .next (readback s) := by
  rw [step_sequencer (.inl (by rw [hp]; rfl)), seqStep, hp]

/-- Settles O41: APPLY_PALETTE colors the index buffer, which holds each pixel's index. -/
theorem readbackColorsEveryPixel : Obligations.ReadbackColorsEveryPixel := by
  intro s hp hcount
  have hpos : 0 < s.pal.length := by omega
  have hlen := readbackIndices_length s
  refine ⟨applyPalette s.pal (readbackIndices s), readbackPhase s, step_readback hp, ?size, fun x y hx hy => ?pixel⟩
  case size => rw [applyPalette_length, hlen, Nat.mul_comm s.height.toNat]
  case pixel =>
    have hk : y * s.width.toNat + x < (readbackIndices s).length := hlen ▸ rowOrder_lt hx hy
    have hbytes {b : Nat} (hb : b < 4) := applyPaletteFrom_getD s.pal 0 hk hb
    rw [← readbackIndices_getD_toNat hx hy]
    exact ⟨_, getElem?_eq_some_paletteColor hpos _ _, hbytes (b := 0) (by decide), hbytes (b := 1) (by decide),
      hbytes (b := 2) (by decide), hbytes (b := 3) (by decide)⟩

end Sys2Proof.Machine
end

