-- ==== Sys2Proof/Proofs/HostInstruction.lean ====
section
/-! What the host's instructions can do once the transaction has ended (30_encoding.md R57, R68): a register slot or an
operation of the port either raises, or writes latches, surface, nibble phase and answer; DECODE runs a transaction. -/

namespace Sys2Proof.Machine

/-- The instructions of the transaction itself: record classes and packets, and DECODE, which runs a whole one. -/
def isOfTransaction : Instr → Bool
  | .recordFlat _ | .recordDirect _ _ | .recordIndexed _ _ | .recordBlank _ _ _ => true
  | .giftagPacked _ _ | .giftagReglist _ _ | .giftagImage _ _ | .giftagDisabled _ _ => true
  | .opDecode _ => true
  | _ => false

/-- `t` differs from `s` in what the host's instructions may write, and only there; a canonical surface stays canonical. -/
def HostWrites (s t : State) : Prop :=
  t = { s with
    bitbltbuf := t.bitbltbuf, trxpos := t.trxpos, trxreg := t.trxreg, surface := t.surface, odd := t.odd, out := t.out } ∧
  (Memory.wf s.surface → Memory.wf t.surface)

theorem HostWrites.answer (o : PortOut) (s : State) : HostWrites s (s.answer o) := ⟨rfl, id⟩

theorem HostWrites.cur_eq {s t : State} (h : HostWrites s t) : t.cur = s.cur := by rw [h.1]

theorem HostWrites.phase_eq {s t : State} (h : HostWrites s t) : t.phase = s.phase := by rw [h.1]

/-- An operation that reads the record raises, or answers what it read. -/
theorem orRaise_answer_cases {α : Type} (s : State) (r : Except Raise α) (o : α → PortOut) :
    (∃ e, orRaise s (r.map fun v => s.answer (o v)) = s.raise e) ∨
      HostWrites s (orRaise s (r.map fun v => s.answer (o v))) := by
  cases r with
  | error e => exact .inl ⟨e, rfl⟩
  | ok v => exact .inr (.answer (o v) s)

/-- An instruction that is none of the transaction raises or writes the host's fields. -/
theorem exec_host_cases {i : Instr} (hi : isOfTransaction i = false) (s : State) :
    ∃ t, exec i s = .next t ∧ ((∃ e, t = s.raise e) ∨ HostWrites s t) := by
  cases i with
  | recordFlat | recordDirect | recordIndexed | recordBlank => cases hi
  | giftagPacked | giftagReglist | giftagImage | giftagDisabled => cases hi
  | opDecode => cases hi
  | opParseTag a => exact ⟨_, execOpParseTag_eq a s, orRaise_answer_cases s _ _⟩
  | opFindReg start count id bound => exact ⟨_, execOpFindReg_eq start count id bound s, orRaise_answer_cases s _ _⟩
  | opReadPalette p w h => exact ⟨_, execOpReadPalette_eq p w h s, orRaise_answer_cases s _ _⟩
  | opReadFlatPalette p => exact ⟨_, execOpReadFlatPalette_eq p s, orRaise_answer_cases s _ _⟩
  | opWritePsmct32 => exact ⟨_, rfl, .inr ⟨rfl, writePsmct32_wf⟩⟩
  | _ => exact ⟨_, rfl, .inr ⟨rfl, id⟩⟩

/-- A request is DECODE or an instruction that is none of the transaction: the port cannot name a class or a packet. -/
theorem decodeRequest_cases (r : Request) :
    (∃ record, decodeRequest r = .opDecode record) ∨ isOfTransaction (decodeRequest r) = false := by
  cases r with
  | slot v id =>
    refine .inr ?_
    rw [decodeRequest, decodeSlot]
    split_ifs <;> rfl
  | op p =>
    rw [decodeRequest, decodePort]
    split
    case h_16 => exact .inl ⟨_, rfl⟩
    all_goals exact .inr rfl

end Sys2Proof.Machine
end

