-- ==== Sys2Proof/Proofs/Invariant.lean ====
section
/-! The invariant of a run (10_state.md sections 2 to 6): reset has it, every step of the sequencer keeps it, and so does
whatever the host requests after the end of a transaction. -/

namespace Sys2Proof.Machine

/-! ### Sound images (R28) -/

theorem sound_directColor {w h : Half} {buf : List Byte} {pal : Option (List Color)} (hw : 0 < w.toNat)
    (hh : 0 < h.toNat) (hlen : buf.length = 4 * (w.toNat * h.toNat))
    (hpal : ∀ p, pal = some p → p.length = 16 ∨ p.length = 256) :
    RasterImage.Sound { width := w, height := h, kind := .directColor, buffer := buf, palette := pal } := by
  refine ⟨hw, hh, ?_, ?_⟩
  · rw [hlen, RasterImage.stride]; ring
  · cases pal with
    | none => trivial
    | some p => exact hpal p rfl

theorem sound_indexed8 {w h : Half} {buf : List Byte} {pal : List Color} (hw : 0 < w.toNat) (hh : 0 < h.toNat)
    (hlen : buf.length = w.toNat * h.toNat) (hpal : pal.length = 256) :
    RasterImage.Sound { width := w, height := h, kind := .indexed8, buffer := buf, palette := some pal } :=
  ⟨hw, hh, hlen.trans (Nat.mul_comm _ _), hpal⟩

/-! ### The invariant by phase -/

theorem isFinal_of_resultFits_some {p : Phase} {x : Result} (h : resultFits p (some x)) : p.isFinal = true := by
  cases p with
  | done | failed => rfl
  | _ => exact h.elim

/-- The result register is empty until the transaction ends. -/
theorem State.Inv.result_none {s : State} (h : s.Inv) (hp : s.phase.isFinal = false) : s.result = none := by
  have hfits := h.result
  cases hresult : s.result with
  | none => rfl
  | some x =>
    rw [hresult] at hfits
    rw [isFinal_of_resultFits_some hfits] at hp
    cases hp

theorem raise_inv (e : Raise) (s : State) : (s.raise e).Inv where
  surface := Memory.wf_nil
  scanEnd := Nat.zero_le _
  result := trivial
  sizes := nofun
  palette := nofun
  cursorBefore := nofun
  cursorAfter := nofun

theorem finish_inv {s : State} {img : RasterImage} (hsurface : Memory.wf s.surface) (hend : s.scanEnd ≤ s.inp.length)
    (himg : img.Sound) : (s.finish img).Inv where
  surface := hsurface
  scanEnd := hend
  result := himg
  sizes := nofun
  palette := nofun
  cursorBefore := nofun
  cursorAfter := nofun

theorem load_inv (record : List Byte) : (State.load record).Inv where
  surface := Memory.wf_nil
  scanEnd := Nat.zero_le _
  result := trivial
  sizes := nofun
  palette := nofun
  cursorBefore := fun _ => rfl
  cursorAfter := nofun

/-- Settles O52: reset is the load of the empty record. -/
theorem resetMeetsInvariant : Obligations.ResetMeetsInvariant := load_inv []

theorem resultFits_none {p : Phase} (hp : p.isFinal = false) : resultFits p none := by
  cases p with
  | done | failed => cases hp
  | _ => trivial

/-! ### The header step and the class selection -/

/-- `t` is `s` with a header of non-zero sizes latched and `END` set within the record, or left alone (R99, R101). -/
def HeaderRead (s t : State) : Prop :=
  t = { s with
    width := t.width, height := t.height, recLen := t.recLen, tagOff := t.tagOff, scanEnd := t.scanEnd, phase := t.phase } ∧
  0 < t.width.toNat ∧ 0 < t.height.toNat ∧ (t.scanEnd = s.scanEnd ∨ t.scanEnd ≤ s.inp.length)

theorem scanEndOf_le (unit len : Nat) (recLen : Half) : scanEndOf unit len recLen ≤ len := Nat.min_le_left _ _

/-- What the step of phase Header finds: the header is read, and a class that has a phase is entered in it. -/
theorem openRecord_ok {s : State} {x : Selected} (h : openRecord s = .ok x) :
    HeaderRead s x.state ∧ ∀ t, x = .enter t → t.phase = .flat ∨ t.phase = .direct ∨ t.phase = .clutLoad := by
  unfold openRecord at h
  split at h
  case h_1 => cases h
  case h_2 s' hs' =>
    obtain ⟨_, hw, hh, rfl⟩ := headerStep_ok hs'
    have hend := scanEndOf_le recordLengthUnit s.inp.length (headerOf s.inp).recLen
    rcases selectClass_ok h with ⟨_, rfl⟩ | ⟨_, _, ⟨_, rfl⟩ | ⟨_, rfl⟩ | ⟨_, _, rfl⟩⟩
    case inl => exact ⟨⟨rfl, hw, hh, .inl rfl⟩, fun t ht => Selected.enter.inj ht ▸ .inl rfl⟩
    case inr.inl => exact ⟨⟨rfl, hw, hh, .inr hend⟩, fun t ht => Selected.enter.inj ht ▸ .inr (.inl rfl)⟩
    case inr.inr.inl => exact ⟨⟨rfl, hw, hh, .inr hend⟩, fun t ht => Selected.enter.inj ht ▸ .inr (.inr rfl)⟩
    case inr.inr.inr => exact ⟨⟨rfl, hw, hh, .inr hend⟩, fun _ ht => Selected.noConfusion ht⟩

theorem HeaderRead.surface_eq {s t : State} (h : HeaderRead s t) : t.surface = s.surface := by rw [h.1]

theorem HeaderRead.result_eq {s t : State} (h : HeaderRead s t) : t.result = s.result := by rw [h.1]

theorem HeaderRead.cur_eq {s t : State} (h : HeaderRead s t) : t.cur = s.cur := by rw [h.1]

theorem HeaderRead.scanEnd_le {s t : State} (h : HeaderRead s t) (hs : s.scanEnd ≤ s.inp.length) :
    t.scanEnd ≤ t.inp.length := by
  obtain ⟨hframe, _, _, hend⟩ := h
  have hinp : t.inp = s.inp := by rw [hframe]
  rw [hinp]
  omega

theorem HeaderRead.inv {s t : State} (h : HeaderRead s t) (hs : s.Inv) (hp : s.phase = .header)
    (ht : t.phase = .flat ∨ t.phase = .direct ∨ t.phase = .clutLoad) : t.Inv := by
  have ⟨_, hw, hh, _⟩ := h
  have hnone : t.result = none := h.result_eq.trans (hs.result_none (by rw [hp]; rfl))
  have hcur : t.cur = 0 := h.cur_eq.trans (hs.cursorBefore (by rw [hp]; rfl))
  have hfinal : t.phase.isFinal = false := by rcases ht with ht | ht | ht <;> rw [ht] <;> rfl
  have hload : t.phase.paletteLoaded = false := by rcases ht with ht | ht | ht <;> rw [ht] <;> rfl
  exact
    { surface := h.surface_eq ▸ hs.surface
      scanEnd := h.scanEnd_le hs.scanEnd
      result := hnone ▸ resultFits_none hfinal
      sizes := fun _ => ⟨hw, hh⟩
      palette := fun hl => by rw [hload] at hl; cases hl
      cursorBefore := fun _ => hcur
      cursorAfter := fun hl => by rw [hload] at hl; cases hl }

/-! ### The scan -/

/-- `t` differs from `s` in what a packet or a move of the scan may write, and only there. -/
def ScanWrites (s t : State) : Prop :=
  t = { s with
    bitbltbuf := t.bitbltbuf, trxpos := t.trxpos, trxreg := t.trxreg, surface := t.surface, surfaceUsed := t.surfaceUsed,
    lb := t.lb, cur := t.cur, phase := t.phase }

theorem regBatch_scanWrites {nloop : BitVec 15} {s t : State} (h : regBatch nloop s = .ok t) : ScanWrites s t := by
  obtain ⟨_, _, _, rfl⟩ := regBatch_ok h
  rfl

theorem imageStep_scanWrites {nloop : BitVec 15} {s t : State} (h : imageStep nloop s = .ok t) : ScanWrites s t := by
  obtain ⟨d, _, _, rfl⟩ := imageStep_ok h
  rcases transfer_cases d s with ⟨_, ht⟩ | ⟨_, ht⟩ <;> rw [ht] <;> rfl

theorem regBatch_surface {nloop : BitVec 15} {s t : State} (h : regBatch nloop s = .ok t) : t.surface = s.surface := by
  obtain ⟨_, _, _, rfl⟩ := regBatch_ok h
  rfl

theorem imageStep_surface_wf {nloop : BitVec 15} {s t : State} (hs : Memory.wf s.surface)
    (h : imageStep nloop s = .ok t) : Memory.wf t.surface := by
  obtain ⟨d, _, _, rfl⟩ := imageStep_ok h
  exact transfer_surface_wf d hs

theorem regBatch_phase {nloop : BitVec 15} {s t : State} (h : regBatch nloop s = .ok t) : t.phase = s.phase := by
  obtain ⟨_, _, _, rfl⟩ := regBatch_ok h
  rfl

theorem regBatch_cur {nloop : BitVec 15} {s t : State} (h : regBatch nloop s = .ok t) :
    t.cur = s.cur + totalLen nloop := by
  obtain ⟨_, _, _, rfl⟩ := regBatch_ok h
  rfl

theorem imageStep_phase {nloop : BitVec 15} {s t : State} (h : imageStep nloop s = .ok t) : t.phase = .transferring := by
  obtain ⟨_, _, _, rfl⟩ := imageStep_ok h
  rfl

/-- The packet's own length at least; a joined packet moves the cursor further. -/
theorem imageStep_cur {nloop : BitVec 15} {s t : State} (h : imageStep nloop s = .ok t) :
    s.cur + totalLen nloop ≤ t.cur := by
  obtain ⟨_, _, hpayload, rfl⟩ := imageStep_ok h
  have := (imagePayload_ok hpayload).2
  rwa [totalLen, ← Nat.add_assoc]

/-- Within the scan the invariant asks for a canonical surface and a cursor that does not go back. -/
theorem ScanWrites.inv {s t : State} (h : ScanWrites s t) (hs : s.Inv) (hfrom : s.phase.paletteLoaded = true)
    (hto : t.phase.paletteLoaded = true) (hsurface : Memory.wf t.surface) (hcur : s.cur ≤ t.cur) : t.Inv := by
  have running {p : Phase} (hp : p.paletteLoaded = true) :
      p.isFinal = false ∧ p.headerLatched = true ∧ p.beforeScan = false := by
    cases p with
    | scanning | transferring | readback => exact ⟨rfl, rfl, rfl⟩
    | _ => cases hp
  obtain ⟨hfinal, hlatched, _⟩ := running hfrom
  obtain ⟨htfinal, _, htscan⟩ := running hto
  have hnone : t.result = none := by rw [h]; exact hs.result_none hfinal
  exact
    { surface := hsurface
      scanEnd := by rw [h]; exact hs.scanEnd
      result := hnone ▸ resultFits_none htfinal
      sizes := fun _ => by rw [h]; exact hs.sizes hlatched
      palette := fun _ => by rw [h]; exact hs.palette hfrom
      cursorBefore := fun hb => by rw [htscan] at hb; cases hb
      cursorAfter := fun _ => by
        have htag : t.tagOff = s.tagOff := by rw [h]
        rw [htag]
        exact (hs.cursorAfter hfrom).trans hcur }

/-! ### The steps of the sequencer -/

theorem orRaise_inv {s : State} {r : Except Raise State} (h : ∀ t, r = .ok t → t.Inv) : (orRaise s r).Inv := by
  rcases orRaise_cases s r with ⟨t, hr, ht⟩ | ⟨e, _, he⟩
  · rw [ht]; exact h t hr
  · rw [he]; exact raise_inv e s

theorem blankStep_inv {s : State} (hsurface : Memory.wf s.surface) (hend : s.scanEnd ≤ s.inp.length)
    (hw : 0 < s.width.toNat) (hh : 0 < s.height.toNat) : (blankStep s).Inv :=
  finish_inv hsurface hend (sound_directColor hw hh (List.length_replicate ..) nofun)

theorem flatStep_inv {s : State} (hs : s.Inv) (hp : s.phase.headerLatched = true) : (orRaise s (flatStep s)).Inv := by
  refine orRaise_inv fun t ht => ?_
  obtain ⟨hw, hh⟩ := hs.sizes hp
  obtain ⟨pal, hpal, hle, rfl⟩ := flatStep_ok ht
  exact finish_inv hs.surface hs.scanEnd (sound_indexed8 hw hh (bytesAt_length hle) (readFlatPalette_ok hpal).2)

theorem directStep_inv {s : State} (hs : s.Inv) (hp : s.phase.headerLatched = true) : (orRaise s (directStep s)).Inv := by
  refine orRaise_inv fun t ht => ?_
  obtain ⟨hw, hh⟩ := hs.sizes hp
  obtain ⟨hle, rfl⟩ := directStep_ok ht
  exact finish_inv hs.surface hs.scanEnd (sound_directColor hw hh (bytesAt_length hle) nofun)

theorem clutStep_inv {s : State} (hs : s.Inv) (hp : s.phase.headerLatched = true) : (orRaise s (clutStep s)).Inv := by
  refine orRaise_inv fun t ht => ?_
  obtain ⟨hw, hh⟩ := hs.sizes hp
  rcases clutStep_ok ht with rfl | ⟨n2, stored, hcount, rfl⟩
  · exact blankStep_inv hs.surface hs.scanEnd hw hh
  · have hfinal : s.phase.isFinal = false := by
      cases hphase : s.phase with
      | done | failed => rw [hphase] at hp; cases hp
      | _ => rfl
    exact
      { surface := hs.surface
        scanEnd := hs.scanEnd
        result := by rw [hs.result_none hfinal]; trivial
        sizes := fun _ => ⟨hw, hh⟩
        palette := fun _ => by rwa [unswizzleClut_length]
        cursorBefore := nofun
        cursorAfter := fun _ => Nat.le_add_right _ _ }

theorem classStep_inv {s : State} (nloop : BitVec 15) (hs : s.Inv) (hp : s.phase.headerLatched = true) :
    (classStep nloop s).Inv := by
  obtain ⟨hw, hh⟩ := hs.sizes hp
  unfold classStep
  split_ifs
  · exact directStep_inv hs hp
  · exact clutStep_inv hs hp
  · exact blankStep_inv hs.surface hs.scanEnd hw hh

theorem packetStep_inv {s : State} (lo : Quad) (hs : s.Inv) (hp : s.phase = .scanning) : (packetStep lo s).Inv := by
  have hload : s.phase.paletteLoaded = true := by rw [hp]; rfl
  have hforward : s.cur ≤ s.cur + totalLen (tagNloop lo) := Nat.le_add_right _ _
  unfold packetStep
  split_ifs
  · refine orRaise_inv fun t ht => ?_
    exact (imageStep_scanWrites ht).inv hs hload (by rw [imageStep_phase ht]; rfl) (imageStep_surface_wf hs.surface ht)
      (hforward.trans (imageStep_cur ht))
  · refine orRaise_inv fun t ht => ?_
    exact (regBatch_scanWrites ht).inv hs hload (by rw [regBatch_phase ht]; exact hload)
      (regBatch_surface ht ▸ hs.surface) (hforward.trans (regBatch_cur ht).ge)

theorem readback_inv {s : State} (hs : s.Inv) (hp : s.phase = .readback) : (readback s).Inv := by
  obtain ⟨hw, hh⟩ := hs.sizes (by rw [hp]; rfl)
  have hcount := hs.palette (by rw [hp]; rfl)
  refine finish_inv hs.surface hs.scanEnd (sound_directColor hw hh ?size ?palette)
  case size => rw [applyPalette_length, readbackIndices_length, Nat.mul_comm s.height.toNat]
  case palette => rintro _ ⟨⟩; exact hcount

/-- Every step of the sequencer keeps the invariant, phase by phase. -/
theorem seqStep_inv {s : State} (hs : s.Inv) : (seqStep s).Inv := by
  unfold seqStep
  cases hp : s.phase with
  | header =>
    cases ho : openRecord s with
    | error e => exact raise_inv e s
    | ok x =>
      obtain ⟨hread, hphase⟩ := openRecord_ok ho
      cases x with
      | enter t => exact hread.inv hs hp (hphase t rfl)
      | blank lo hi t =>
        have ⟨_, hw, hh, _⟩ := hread
        exact blankStep_inv (hread.surface_eq ▸ hs.surface) (hread.scanEnd_le hs.scanEnd) hw hh
  | flat => exact flatStep_inv hs (by rw [hp]; rfl)
  | direct => exact classStep_inv _ hs (by rw [hp]; rfl)
  | clutLoad => exact classStep_inv _ hs (by rw [hp]; rfl)
  | scanning =>
    have hload : s.phase.paletteLoaded = true := by rw [hp]; rfl
    dsimp only
    split_ifs
    · exact ScanWrites.inv (t := { s with phase := .readback }) rfl hs hload rfl hs.surface le_rfl
    · cases fetchTag s.inp s.cur with
      | error e => exact raise_inv e s
      | ok q => exact packetStep_inv q.1 hs hp
  | transferring =>
    exact ScanWrites.inv (t := { s with phase := .scanning }) rfl hs (by rw [hp]; rfl) rfl hs.surface le_rfl
  | readback => exact readback_inv hs hp
  | done => exact hs
  | failed => exact hs

theorem seqRun_inv {s : State} (n : Nat) (hs : s.Inv) : (seqRun n s).Inv := by
  induction n generalizing s with
  | zero => exact hs
  | succ n ih =>
    rw [seqRun]
    split_ifs
    · exact hs
    · exact ih (seqStep_inv hs)

theorem decodeRecord_inv (record : List Byte) : (decodeRecord record).Inv := seqRun_inv _ (load_inv record)

/-! ### The steps of the machine -/

theorem consume_inv {s : State} (hs : s.Inv) : s.consume.Inv where
  surface := hs.surface
  scanEnd := hs.scanEnd
  result := hs.result
  sizes := hs.sizes
  palette := hs.palette
  cursorBefore := hs.cursorBefore
  cursorAfter := hs.cursorAfter

/-- Of what the host's instructions write, the invariant speaks of the surface only. -/
theorem HostWrites.inv {s t : State} (h : HostWrites s t) (hs : s.Inv) : t.Inv := by
  obtain ⟨hframe, hsurface⟩ := h
  exact
    { surface := hsurface hs.surface
      scanEnd := by rw [hframe]; exact hs.scanEnd
      result := by rw [hframe]; exact hs.result
      sizes := by rw [hframe]; exact hs.sizes
      palette := by rw [hframe]; exact hs.palette
      cursorBefore := by rw [hframe]; exact hs.cursorBefore
      cursorAfter := by rw [hframe]; exact hs.cursorAfter }

theorem exec_request_inv {r : Request} {s t : State} (hs : s.Inv) (h : exec (decodeRequest r) s = .next t) : t.Inv := by
  rcases decodeRequest_cases r with ⟨record, hr⟩ | hr
  · rw [hr] at h
    cases h
    exact decodeRecord_inv record
  · obtain ⟨t', ht', hcases⟩ := exec_host_cases hr s
    obtain rfl := Host.Outcome.next.inj (ht'.symm.trans h)
    rcases hcases with ⟨e, rfl⟩ | hwrites
    · exact raise_inv e s
    · exact hwrites.inv hs

/-- A step of the machine is a request taken off the port, once the transaction has ended, or a step of the sequencer. -/
theorem step_cases {s t : State} (h : step s = .next t) :
    (∃ r, s.phase.isFinal = true ∧ s.port = some r ∧ exec (decodeRequest r) s.consume = .next t) ∨
      ((s.phase.isFinal = false ∨ s.port = none) ∧ t = seqStep s) := by
  cases hf : s.phase.isFinal with
  | false =>
    rw [step_sequencer (.inl hf)] at h
    cases h
    exact .inr ⟨.inl rfl, rfl⟩
  | true =>
    cases hport : s.port with
    | none =>
      rw [step_sequencer (.inr hport)] at h
      cases h
      exact .inr ⟨.inr rfl, rfl⟩
    | some r => exact .inl ⟨r, rfl, rfl, step_request hf hport ▸ h⟩

/-- Settles O51: a step is a request of the host or a step of the sequencer, and both keep the invariant. -/
theorem stepKeepsInvariant : Obligations.StepKeepsInvariant := by
  intro s t hs h
  rcases step_cases h with ⟨r, _, _, hexec⟩ | ⟨_, rfl⟩
  · exact exec_request_inv (consume_inv hs) hexec
  · exact seqStep_inv hs

/-! ### The surface under every instruction (R23) -/

theorem orRaise_surface_wf {s : State} {r : Except Raise State} (h : ∀ t, r = .ok t → Memory.wf t.surface) :
    Memory.wf (orRaise s r).surface := by
  rcases orRaise_cases s r with ⟨t, hr, ht⟩ | ⟨e, _, he⟩
  · rw [ht]; exact h t hr
  · rw [he]; exact Memory.wf_nil

theorem orRaise_regBatch_surface_wf (nloop : BitVec 15) {s : State} (hs : Memory.wf s.surface) :
    Memory.wf (orRaise s (regBatch nloop s)).surface :=
  orRaise_surface_wf fun _ ht => regBatch_surface ht ▸ hs

theorem orRaise_flatStep_surface_wf {s : State} (hs : Memory.wf s.surface) :
    Memory.wf (orRaise s (flatStep s)).surface := by
  refine orRaise_surface_wf fun t ht => ?_
  obtain ⟨_, _, _, rfl⟩ := flatStep_ok ht
  exact hs

theorem orRaise_directStep_surface_wf {s : State} (hs : Memory.wf s.surface) :
    Memory.wf (orRaise s (directStep s)).surface := by
  refine orRaise_surface_wf fun t ht => ?_
  obtain ⟨_, rfl⟩ := directStep_ok ht
  exact hs

theorem orRaise_clutStep_surface_wf {s : State} (hs : Memory.wf s.surface) :
    Memory.wf (orRaise s (clutStep s)).surface := by
  refine orRaise_surface_wf fun t ht => ?_
  rcases clutStep_ok ht with rfl | ⟨_, _, _, rfl⟩ <;> exact hs

/-- Settles O50: only an image packet and WRITE_PSMCT32 write the surface, both through WRITE_PSMCT32; DECODE starts from
the empty one. -/
theorem instructionsKeepSurfaceCanonical : Obligations.InstructionsKeepSurfaceCanonical := by
  intro i s t hs h
  cases hi : isOfTransaction i with
  | false =>
    obtain ⟨t', ht', hcases⟩ := exec_host_cases hi s
    obtain rfl := Host.Outcome.next.inj (ht'.symm.trans h)
    rcases hcases with ⟨e, rfl⟩ | hwrites
    · exact Memory.wf_nil
    · exact hwrites.2 hs
  | true =>
    cases i with
    | recordFlat => cases h; exact orRaise_flatStep_surface_wf hs
    | recordDirect => cases h; exact orRaise_directStep_surface_wf hs
    | recordIndexed => cases h; exact orRaise_clutStep_surface_wf hs
    | recordBlank => cases h; exact hs
    | giftagPacked n => cases h; exact orRaise_regBatch_surface_wf n hs
    | giftagReglist n => cases h; exact orRaise_regBatch_surface_wf n hs
    | giftagDisabled n => cases h; exact orRaise_regBatch_surface_wf n hs
    | giftagImage n => cases h; exact orRaise_surface_wf fun t ht => imageStep_surface_wf hs ht
    | opDecode record => cases h; exact (decodeRecord_inv record).surface
    | _ => cases hi

end Sys2Proof.Machine
end

