-- ==== Sys2Proof/Proofs/Encoding.lean ====
section
/-! Decoder and encoder are inverse (30_encoding.md sections 1, 3, 4 and 8): byte strings and their little-endian values,
the fields of a tag, then each place of an encoding. -/

namespace Sys2Proof

open Machine

/-! ### Little-endian values (20_memory.md R33) -/

theorem leBytes_length (n v : Nat) : (leBytes n v).length = n := by
  induction n generalizing v with
  | zero => rfl
  | succ n ih => rw [leBytes, List.length_cons, ih]

theorem leNat_leBytes (n v : Nat) : leNat (leBytes n v) = v % 256 ^ n := by
  induction n generalizing v with
  | zero => rw [leBytes, leNat, pow_zero, Nat.mod_one]
  | succ n ih =>
    have hfirst : (BitVec.ofNat 8 v).toNat = v % 256 := BitVec.toNat_ofNat v 8
    rw [leBytes, leNat, ih, hfirst, pow_succ', Nat.mod_mul]

theorem leNat_leBytes_of_lt {n v : Nat} (h : v < 256 ^ n) : leNat (leBytes n v) = v := by
  rw [leNat_leBytes, Nat.mod_eq_of_lt h]

theorem leBytes_leNat (bs : List Byte) : leBytes bs.length (leNat bs) = bs := by
  induction bs with
  | nil => rfl
  | cons b bs ih =>
    have hb := b.isLt
    have hrest : leNat (b :: bs) / 256 = leNat bs := by rw [leNat]; omega
    have hfirst : BitVec.ofNat 8 (leNat (b :: bs)) = b := by
      apply BitVec.eq_of_toNat_eq
      rw [BitVec.toNat_ofNat, leNat]
      omega
    rw [List.length_cons, leBytes, hfirst, hrest, ih]

theorem ofNat_leNat_leBytes {w n : Nat} (v : BitVec w) (hw : 2 ^ w ≤ 256 ^ n) :
    BitVec.ofNat w (leNat (leBytes n v.toNat)) = v := by
  rw [leNat_leBytes_of_lt (v.isLt.trans_le hw), BitVec.ofNat_toNat, BitVec.setWidth_eq]

/-- The bytes of a field, spelled out again. -/
theorem leBytes_fieldAt {w : Nat} {bs : List Byte} {start n : Nat} (hw : 256 ^ n = 2 ^ w) (h : start + n ≤ bs.length) :
    leBytes n (fieldAt w bs start n).toNat = (bs.drop start).take n := by
  have hlen : ((bs.drop start).take n).length = n := by rw [List.length_take, List.length_drop]; omega
  have hlt : leNat ((bs.drop start).take n) < 2 ^ w := by
    have := leNat_lt ((bs.drop start).take n)
    rwa [hlen, pow_mul, show 2 ^ 8 = 256 from rfl, hw] at this
  rw [fieldAt, BitVec.toNat_ofNat, Nat.mod_eq_of_lt hlt]
  have hspell := leBytes_leNat ((bs.drop start).take n)
  rwa [hlen] at hspell

/-! ### The fields of a tag (R54) -/

theorem tagLo_toNat (nloop : BitVec 15) (flg : BitVec 2) (r : TagRest) :
    (tagLo nloop flg r).toNat =
      nloop.toNat + 2 ^ 15 * r.eop.toNat + 2 ^ 16 * r.gap.toNat + 2 ^ 46 * r.pre.toNat + 2 ^ 47 * r.prim.toNat +
        2 ^ 58 * flg.toNat + 2 ^ 60 * r.nreg.toNat := by
  simp only [tagLo, toNat_append_eq_add]
  ring

theorem extractLsb'_toNat_eq {w : Nat} (v : BitVec w) (start len : Nat) :
    (v.extractLsb' start len).toNat = v.toNat / 2 ^ start % 2 ^ len := by
  rw [BitVec.extractLsb'_toNat, Nat.shiftRight_eq_div_pow]

/-- Every field of a tag's low half is read back from its place. -/
theorem fields_tagLo (nloop : BitVec 15) (flg : BitVec 2) (r : TagRest) :
    tagNloop (tagLo nloop flg r) = nloop ∧ tagFlg (tagLo nloop flg r) = flg ∧
      tagRest (tagLo nloop flg r) r.regs = r := by
  have hlo := tagLo_toNat nloop flg r
  have hnloop := nloop.isLt
  have hflg := flg.isLt
  obtain ⟨eop, gap, pre, prim, nreg, regs⟩ := r
  have heop := eop.isLt
  have hgap := gap.isLt
  have hpre := pre.isLt
  have hprim := prim.isLt
  have hnreg := nreg.isLt
  dsimp only at hlo
  refine ⟨?_, ?_, ?_⟩
  · apply BitVec.eq_of_toNat_eq
    rw [tagNloop, extractLsb'_toNat_eq]; omega
  · apply BitVec.eq_of_toNat_eq
    rw [tagFlg, extractLsb'_toNat_eq]; omega
  · rw [tagRest, TagRest.mk.injEq]
    refine ⟨?_, ?_, ?_, ?_, ?_, rfl⟩ <;> apply BitVec.eq_of_toNat_eq
    · rw [tagEop, extractLsb'_toNat_eq]; omega
    all_goals rw [extractLsb'_toNat_eq]; omega

/-- The fields cover the low half: put together they are it again. -/
theorem tagLo_fields (lo hi : Quad) : tagLo (tagNloop lo) (tagFlg lo) (tagRest lo hi) = lo := by
  have hlo := lo.isLt
  apply BitVec.eq_of_toNat_eq
  rw [tagLo_toNat]
  simp only [tagNloop, tagFlg, tagRest, tagEop, extractLsb'_toNat_eq]
  omega

/-! ### Two halves of eight bytes: tags and slots (R54, R57) -/

theorem tagBytes_eq_slotBytes (nloop : BitVec 15) (flg : BitVec 2) (r : TagRest) :
    tagBytes nloop flg r = slotBytes (tagLo nloop flg r) r.regs := rfl

/-- The two halves of 16 bytes are read back. -/
theorem fieldAt_slotBytes (lo hi : Quad) :
    fieldAt 64 (slotBytes lo hi) 0 8 = lo ∧ fieldAt 64 (slotBytes lo hi) 8 8 = hi := by
  have hlo := leBytes_length 8 lo.toNat
  have hhi := leBytes_length 8 hi.toNat
  refine ⟨?_, ?_⟩
  · rw [fieldAt, slotBytes, List.drop_zero, List.take_left' hlo, ofNat_leNat_leBytes lo (by decide)]
  · rw [fieldAt, slotBytes, List.drop_left' hlo, List.take_of_length_le hhi.le, ofNat_leNat_leBytes hi (by decide)]

theorem take_drop_append (bs : List Byte) (a m n : Nat) :
    (bs.drop a).take m ++ (bs.drop (a + m)).take n = (bs.drop a).take (m + n) := by
  rw [List.take_add, List.drop_drop]

theorem slotBytes_fieldAt {bs : List Byte} (h : bs.length = 16) :
    slotBytes (fieldAt 64 bs 0 8) (fieldAt 64 bs 8 8) = bs := by
  rw [slotBytes, leBytes_fieldAt (by decide) (by omega), leBytes_fieldAt (by decide) (by omega)]
  exact (take_drop_append bs 0 8 8).trans (List.take_of_length_le h.le)

theorem decode_tag_slotBytes (lo hi : Quad) : decode (.tag (slotBytes lo hi)) = .ok (decodeTag lo hi) := by
  obtain ⟨hlo, hhi⟩ := fieldAt_slotBytes lo hi
  rw [decode, hlo, hhi]
  rfl

theorem decode_firstTag_slotBytes (lo hi : Quad) :
    decode (.firstTag (slotBytes lo hi)) = .ok (decodeFirstTag lo hi) := by
  obtain ⟨hlo, hhi⟩ := fieldAt_slotBytes lo hi
  rw [decode, hlo, hhi]
  rfl

theorem decode_slot_slotBytes (v id : Quad) : decode (.slot (slotBytes v id)) = .ok (decodeSlot v id) := by
  obtain ⟨hv, hid⟩ := fieldAt_slotBytes v id
  rw [decode, hv, hid]
  rfl

/-! ### The header (R49) -/

theorem headerOf_headerBytesOf (hd : Header) : headerOf (headerBytesOf hd) = hd := by
  calc headerOf (headerBytesOf hd)
      = { width := .ofNat 16 (leNat (leBytes 2 hd.width.toNat)), height := .ofNat 16 (leNat (leBytes 2 hd.height.toNat)),
          unused4 := .ofNat 16 (leNat (leBytes 2 hd.unused4.toNat)),
          recLen := .ofNat 16 (leNat (leBytes 2 hd.recLen.toNat)),
          unused8 := .ofNat 32 (leNat (leBytes 4 hd.unused8.toNat)),
          unused12 := .ofNat 32 (leNat (leBytes 4 hd.unused12.toNat)),
          tagOff := .ofNat 32 (leNat (leBytes 4 hd.tagOff.toNat)) } := rfl
    _ = hd := by
      have half (v : Half) := ofNat_leNat_leBytes (n := 2) v (by decide)
      have word (v : Word) := ofNat_leNat_leBytes (n := 4) v (by decide)
      simp only [half, word]

theorem headerBytesOf_headerOf {bs : List Byte} (h : bs.length = 20) : headerBytesOf (headerOf bs) = bs := by
  have half {a : Nat} (ha : a + 2 ≤ 20) := leBytes_fieldAt (w := 16) (n := 2) (bs := bs) (start := a) (by decide) (h ▸ ha)
  have word {a : Nat} (ha : a + 4 ≤ 20) := leBytes_fieldAt (w := 32) (n := 4) (bs := bs) (start := a) (by decide) (h ▸ ha)
  simp only [headerBytesOf, headerOf]
  rw [half (by decide), half (by decide), half (by decide), half (by decide), word (by decide), word (by decide),
    word (by decide)]
  rw [take_drop_append bs 0 2 2, take_drop_append bs 0 4 2, take_drop_append bs 0 6 2, take_drop_append bs 0 8 4,
    take_drop_append bs 0 12 4, take_drop_append bs 0 16 4]
  exact List.take_of_length_le h.le

theorem decode_header_of_isFlat {hd : Header} (h : hd.isFlat) :
    decode (.header (headerBytesOf hd)) = .ok (.recordFlat hd) := by
  rw [decode, if_neg (show ¬ (headerBytesOf hd).length ≠ 20 from fun hlen => hlen rfl),
    headerOf_headerBytesOf, if_pos h]

/-! ### Decoding an encoding -/

theorem decodeFirstTag_tagLo (nloop : BitVec 15) (flg : BitVec 2) (r : TagRest) :
    decodeFirstTag (tagLo nloop flg r) r.regs =
      if nloop = nloopDirect then .recordDirect flg r
      else if nloop = nloopIndexed then .recordIndexed flg r else .recordBlank nloop flg r := by
  obtain ⟨hnloop, hflg, hrest⟩ := fields_tagLo nloop flg r
  rw [decodeFirstTag, hnloop, hflg, hrest]

theorem decodeTag_tagLo (nloop : BitVec 15) (flg : BitVec 2) (r : TagRest) :
    decodeTag (tagLo nloop flg r) r.regs =
      if flg = 0#2 then .giftagPacked nloop r
      else if flg = 1#2 then .giftagReglist nloop r
      else if flg = flgImage then .giftagImage nloop r else .giftagDisabled nloop r := by
  obtain ⟨hnloop, hflg, hrest⟩ := fields_tagLo nloop flg r
  rw [decodeTag, hnloop, hflg, hrest]

/-- Settles O1: each place reads back the fields its encoder wrote; the selecting field of the instruction then picks its
own row, which well-formedness grants where the row is "any other value". -/
theorem decodeInvertsEncode : Obligations.DecodeInvertsEncode := by
  intro i hwf
  have number {w : Nat} (v : BitVec w) : BitVec.ofNat w v.toNat = v := by rw [BitVec.ofNat_toNat, BitVec.setWidth_eq]
  cases i with
  | recordFlat hd => exact decode_header_of_isFlat (of_decide_eq_true hwf)
  | recordDirect flg r => rw [encode, tagBytes_eq_slotBytes, decode_firstTag_slotBytes, decodeFirstTag_tagLo]; rfl
  | recordIndexed flg r => rw [encode, tagBytes_eq_slotBytes, decode_firstTag_slotBytes, decodeFirstTag_tagLo]; rfl
  | recordBlank n flg r =>
    obtain ⟨hdirect, hindexed⟩ : BlankLoopCount n := of_decide_eq_true hwf
    rw [encode, tagBytes_eq_slotBytes, decode_firstTag_slotBytes, decodeFirstTag_tagLo, if_neg hdirect, if_neg hindexed]
  | giftagPacked n r => rw [encode, tagBytes_eq_slotBytes, decode_tag_slotBytes, decodeTag_tagLo]; rfl
  | giftagReglist n r => rw [encode, tagBytes_eq_slotBytes, decode_tag_slotBytes, decodeTag_tagLo]; rfl
  | giftagImage n r => rw [encode, tagBytes_eq_slotBytes, decode_tag_slotBytes, decodeTag_tagLo]; rfl
  | giftagDisabled n r => rw [encode, tagBytes_eq_slotBytes, decode_tag_slotBytes, decodeTag_tagLo]; rfl
  | adBitbltbuf v => exact decode_slot_slotBytes v idBitbltbuf
  | adTrxpos v => exact decode_slot_slotBytes v idTrxpos
  | adTrxreg v => exact decode_slot_slotBytes v idTrxreg
  | adTrxdir v => exact decode_slot_slotBytes v idTrxdir
  | adOther id v =>
    obtain ⟨hbitbltbuf, htrxpos, htrxreg, htrxdir⟩ : OtherRegisterId id := of_decide_eq_true hwf
    rw [encode, decode_slot_slotBytes, decodeSlot, if_neg hbitbltbuf, if_neg htrxpos, if_neg htrxreg, if_neg htrxdir]
  | opTotalLen t =>
    calc decode (encode (.opTotalLen t))
        = .ok (.opTotalLen
            { nloop := .ofNat 15 t.nloop.toNat, eop := .ofNat 1 t.eop.toNat, flg := .ofNat 2 t.flg.toNat }) := rfl
      _ = .ok (.opTotalLen t) := by simp only [number]
  | opFindReg start count id bound => exact congrArg (fun v => Except.ok (Instr.opFindReg start count v bound)) (number id)
  | opLatchBitbltbuf v => exact congrArg (fun v => Except.ok (Instr.opLatchBitbltbuf v)) (number v)
  | opLatchTrxpos v => exact congrArg (fun v => Except.ok (Instr.opLatchTrxpos v)) (number v)
  | opLatchTrxreg v => exact congrArg (fun v => Except.ok (Instr.opLatchTrxreg v)) (number v)
  | opWritePsmct32 dbp dbw dsax dsay rrw rrh src =>
    calc decode (encode (.opWritePsmct32 dbp dbw dsax dsay rrw rrh src))
        = .ok (.opWritePsmct32 (.ofNat 14 dbp.toNat) (.ofNat 6 dbw.toNat) (.ofNat 11 dsax.toNat) (.ofNat 11 dsay.toNat)
            (.ofNat 12 rrw.toNat) (.ofNat 12 rrh.toNat) src) := rfl
      _ = .ok (.opWritePsmct32 dbp dbw dsax dsay rrw rrh src) := by simp only [number]
  | opReadPsmct32 dbp dbw x0 y0 w h =>
    calc decode (encode (.opReadPsmct32 dbp dbw x0 y0 w h))
        = .ok (.opReadPsmct32 (.ofNat 14 dbp.toNat) (.ofNat 6 dbw.toNat) (.ofNat 11 x0.toNat) (.ofNat 11 y0.toNat)
            (.ofNat 12 w.toNat) (.ofNat 12 h.toNat)) := rfl
      _ = .ok (.opReadPsmct32 dbp dbw x0 y0 w h) := by simp only [number]
  | _ => rfl

/-! ### Encoding what was decoded -/

theorem encode_decodeTag (lo hi : Quad) : encode (decodeTag lo hi) = .tag (slotBytes lo hi) := by
  have hflg : ∀ f : BitVec 2, f = 0#2 ∨ f = 1#2 ∨ f = flgImage ∨ f = 3#2 := by decide
  have hlo := tagLo_fields lo hi
  rcases hflg (tagFlg lo) with h | h | h | h <;> rw [h] at hlo
  · rw [decodeTag_of_flg_zero hi h, encode, tagBytes_eq_slotBytes, hlo]; rfl
  · rw [decodeTag_of_flg_one hi h, encode, tagBytes_eq_slotBytes, hlo]; rfl
  · rw [decodeTag_of_flg_image hi h, encode, tagBytes_eq_slotBytes, hlo]; rfl
  · rw [decodeTag_of_flg_three hi h, encode, tagBytes_eq_slotBytes, hlo]; rfl

theorem encode_decodeFirstTag (lo hi : Quad) : encode (decodeFirstTag lo hi) = .firstTag (slotBytes lo hi) := by
  have hlo := tagLo_fields lo hi
  unfold decodeFirstTag
  split_ifs with hdirect hindexed
  · rw [hdirect] at hlo
    rw [encode, tagBytes_eq_slotBytes, hlo]; rfl
  · rw [hindexed] at hlo
    rw [encode, tagBytes_eq_slotBytes, hlo]; rfl
  · rw [encode, tagBytes_eq_slotBytes, hlo]; rfl

theorem encode_decodeSlot (v id : Quad) : encode (decodeSlot v id) = .slot (slotBytes v id) := by
  unfold decodeSlot
  split_ifs with hbitbltbuf htrxpos htrxreg htrxdir
  · rw [hbitbltbuf]; rfl
  · rw [htrxpos]; rfl
  · rw [htrxreg]; rfl
  · rw [htrxdir]; rfl
  · rfl

/-- What a place of the record decodes, it decodes from bytes of its own length (R49, R54, R57). -/
theorem decode_record_ok {e : Encoded} {i : Instr} (hport : ∀ p, e ≠ .port p) (h : decode e = .ok i) :
    (∃ bs, e = .header bs ∧ bs.length = 20 ∧ i = .recordFlat (headerOf bs)) ∨
      ∃ lo hi, (e = .firstTag (slotBytes lo hi) ∧ i = decodeFirstTag lo hi) ∨
        (e = .tag (slotBytes lo hi) ∧ i = decodeTag lo hi) ∨ (e = .slot (slotBytes lo hi) ∧ i = decodeSlot lo hi) := by
  cases e with
  | header bs =>
    rw [decode] at h
    split_ifs at h with hlen
    cases h
    exact .inl ⟨bs, rfl, not_not.1 hlen, rfl⟩
  | firstTag bs =>
    rw [decode] at h
    split_ifs at h with hlen
    cases h
    exact .inr ⟨_, _, .inl ⟨by rw [slotBytes_fieldAt (not_not.1 hlen)], rfl⟩⟩
  | tag bs =>
    rw [decode] at h
    split_ifs at h with hlen
    cases h
    exact .inr ⟨_, _, .inr (.inl ⟨by rw [slotBytes_fieldAt (not_not.1 hlen)], rfl⟩)⟩
  | slot bs =>
    rw [decode] at h
    split_ifs at h with hlen
    cases h
    exact .inr ⟨_, _, .inr (.inr ⟨by rw [slotBytes_fieldAt (not_not.1 hlen)], rfl⟩)⟩
  | port p => exact absurd rfl (hport p)

/-- Settles O2: the fields of each place cover its bytes. -/
theorem encodeInvertsDecodeInRecord : Obligations.EncodeInvertsDecodeInRecord := by
  intro e i hport h
  rcases decode_record_ok hport h with ⟨bs, rfl, hlen, rfl⟩ | ⟨lo, hi, ⟨rfl, rfl⟩ | ⟨rfl, rfl⟩ | ⟨rfl, rfl⟩⟩
  · rw [encode, headerBytesOf_headerOf hlen]
  · exact encode_decodeFirstTag lo hi
  · exact encode_decodeTag lo hi
  · exact encode_decodeSlot lo hi

/-- Settles O3: six fixed words, evaluated. -/
theorem specWordsDecode : Obligations.SpecWordsDecode := by
  unfold Obligations.SpecWordsDecode
  decide

end Sys2Proof
end

