-- ==== Sys2Proof/Proofs/AddressLayout.lean ====
section
/-! The layout of pixels in the surface (41_address_translator.md section 3). An address is a number written in mixed radix:
page, block, column, place in the column; each digit below the page comes from a table without repetitions. So equal
addresses have equal digits, and equal digits are the same pixel. -/

namespace Sys2Proof.Machine

/-! ### Tables without repetitions -/

/-- Equal entries of such a table stand at the same place. -/
theorem eq_of_getD_eq {l : List Nat} (hl : l.Nodup) {i j : Nat} (hi : i < l.length) (hj : j < l.length)
    (h : l.getD i 0 = l.getD j 0) : i = j := by
  rw [List.getD_eq_getElem _ _ hi, List.getD_eq_getElem _ _ hj] at h
  exact (hl.getElem_inj_iff).1 h

theorem getD_lt_of_forall_lt {l : List Nat} {n i : Nat} (hl : ∀ v ∈ l, v < n) (hi : i < l.length) : l.getD i 0 < n := by
  rw [List.getD_eq_getElem _ _ hi]
  exact hl _ (List.getElem_mem hi)

theorem getD_zipWith (f : Nat → Nat → Nat) {l m : List Nat} {i : Nat} (hl : i < l.length) (hm : i < m.length) :
    (List.zipWith f l m).getD i 0 = f (l.getD i 0) (m.getD i 0) := by
  rw [List.getD_eq_getElem _ _ (by rw [List.length_zipWith]; omega), List.getElem_zipWith, List.getD_eq_getElem _ _ hl,
    List.getD_eq_getElem _ _ hm]

/-! ### Blocks of a page (R79 to R81) -/

theorem block32_lt {bx row : Nat} (hx : bx < 8) (hr : row < 4) : block32 bx row < 32 :=
  getD_lt_of_forall_lt (by decide) (show bx + row * 8 < 32 by omega)

theorem block32_inj {bx row bx' row' : Nat} (hx : bx < 8) (hr : row < 4) (hx' : bx' < 8) (hr' : row' < 4)
    (h : block32 bx row = block32 bx' row') : bx = bx' ∧ row = row' := by
  have := eq_of_getD_eq (l := block32Table) (by decide) (show bx + row * 8 < 32 by omega)
    (show bx' + row' * 8 < 32 by omega) h
  omega

theorem block4_lt {bx row : Nat} (hx : bx < 4) (hr : row < 8) : block4 bx row < 32 :=
  getD_lt_of_forall_lt (by decide) (show bx + row * 4 < 32 by omega)

theorem block4_inj {bx row bx' row' : Nat} (hx : bx < 4) (hr : row < 8) (hx' : bx' < 4) (hr' : row' < 8)
    (h : block4 bx row = block4 bx' row') : bx = bx' ∧ row = row' := by
  have := eq_of_getD_eq (l := block4Table) (by decide) (show bx + row * 4 < 32 by omega)
    (show bx' + row' * 4 < 32 by omega) h
  omega

/-! ### Places of a column (R79 to R81) -/

theorem colWord32_lt {cx cy : Nat} (hx : cx < 8) (hy : cy < 2) : colWord32 cx cy < 16 :=
  getD_lt_of_forall_lt (by decide) (show cx + cy * 8 < 16 by omega)

theorem colWord32_inj {cx cy cx' cy' : Nat} (hx : cx < 8) (hy : cy < 2) (hx' : cx' < 8) (hy' : cy' < 2)
    (h : colWord32 cx cy = colWord32 cx' cy') : cx = cx' ∧ cy = cy' := by
  have := eq_of_getD_eq (l := colWord32Table) (by decide) (show cx + cy * 8 < 16 by omega)
    (show cx' + cy' * 8 < 16 by omega) h
  omega

/-- The byte of a column that holds a pixel of the 8-bit format: word and byte together. -/
def colPlace8 (c cx cy : Nat) : Nat := 4 * colWord8 c cx cy + colByte8 cx cy

/-- The nibble of a column that holds a pixel of the 4-bit format: word and nibble together. -/
def colPlace4 (c cx cy : Nat) : Nat := 8 * colWord4 c cx cy + colByte4 cx cy

/-- The places of one column of the 8-bit format, by its parity. -/
def colPlace8Table (c : Nat) : List Nat :=
  List.zipWith (fun word byte => 4 * word + byte) (if c = 0 then colWord8EvenTable else colWord8OddTable) colByte8Table

/-- The places of one column of the 4-bit format, by its parity. -/
def colPlace4Table (c : Nat) : List Nat :=
  List.zipWith (fun word nibble => 8 * word + nibble) (if c = 0 then colWord4EvenTable else colWord4OddTable) colByte4Table

theorem colPlace8_eq_getD {c cx cy : Nat} (hx : cx < 16) (hy : cy < 4) :
    colPlace8 c cx cy = (colPlace8Table c).getD (cx + cy * 16) 0 := by
  have hplace : cx + cy * 16 < 64 := by omega
  rw [colPlace8Table, colPlace8, colWord8, colByte8]
  split_ifs <;> rw [getD_zipWith _ hplace hplace]

theorem colPlace4_eq_getD {c cx cy : Nat} (hx : cx < 32) (hy : cy < 4) :
    colPlace4 c cx cy = (colPlace4Table c).getD (cx + cy * 32) 0 := by
  have hplace : cx + cy * 32 < 128 := by omega
  rw [colPlace4Table, colPlace4, colWord4, colByte4]
  split_ifs <;> rw [getD_zipWith _ hplace hplace]

theorem colPlace8Table_spec {c : Nat} (hc : c < 2) :
    (colPlace8Table c).length = 64 ∧ (colPlace8Table c).Nodup ∧ ∀ v ∈ colPlace8Table c, v < 64 := by
  revert c
  decide +kernel

theorem colPlace4Table_spec {c : Nat} (hc : c < 2) :
    (colPlace4Table c).length = 128 ∧ (colPlace4Table c).Nodup ∧ ∀ v ∈ colPlace4Table c, v < 128 := by
  revert c
  decide +kernel

theorem colPlace8_lt {c cx cy : Nat} (hc : c < 2) (hx : cx < 16) (hy : cy < 4) : colPlace8 c cx cy < 64 := by
  obtain ⟨hlen, _, hlt⟩ := colPlace8Table_spec hc
  rw [colPlace8_eq_getD hx hy]
  exact getD_lt_of_forall_lt hlt (by omega)

theorem colPlace8_inj {c cx cy cx' cy' : Nat} (hc : c < 2) (hx : cx < 16) (hy : cy < 4) (hx' : cx' < 16) (hy' : cy' < 4)
    (h : colPlace8 c cx cy = colPlace8 c cx' cy') : cx = cx' ∧ cy = cy' := by
  obtain ⟨hlen, hnodup, _⟩ := colPlace8Table_spec hc
  rw [colPlace8_eq_getD hx hy, colPlace8_eq_getD hx' hy'] at h
  have := eq_of_getD_eq hnodup (by omega) (by omega) h
  omega

theorem colPlace4_lt {c cx cy : Nat} (hc : c < 2) (hx : cx < 32) (hy : cy < 4) : colPlace4 c cx cy < 128 := by
  obtain ⟨hlen, _, hlt⟩ := colPlace4Table_spec hc
  rw [colPlace4_eq_getD hx hy]
  exact getD_lt_of_forall_lt hlt (by omega)

theorem colPlace4_inj {c cx cy cx' cy' : Nat} (hc : c < 2) (hx : cx < 32) (hy : cy < 4) (hx' : cx' < 32) (hy' : cy' < 4)
    (h : colPlace4 c cx cy = colPlace4 c cx' cy') : cx = cx' ∧ cy = cy' := by
  obtain ⟨hlen, hnodup, _⟩ := colPlace4Table_spec hc
  rw [colPlace4_eq_getD hx hy, colPlace4_eq_getD hx' hy'] at h
  have := eq_of_getD_eq hnodup (by omega) (by omega) h
  omega

/-! ### Places in a page -/

/-- The word of its page that holds pixel `(x, y)` of the 32-bit format. -/
def pageWord32 (x y : Nat) : Nat :=
  64 * block32 (x % 64 / 8) (y % 32 / 8) + 16 * (y % 32 % 8 / 2) + colWord32 (x % 64 % 8) (y % 32 % 8 % 2)

/-- The byte of its page that holds pixel `(x, y)` of the 8-bit format. -/
def pageByte8 (x y : Nat) : Nat :=
  256 * block8 (x % 128 / 16) (y % 64 / 16) + 64 * (y % 64 % 16 / 4) +
    colPlace8 (y % 64 % 16 / 4 % 2) (x % 128 % 16) (y % 64 % 16 % 4)

/-- The nibble of its page that holds pixel `(x, y)` of the 4-bit format. -/
def pageNibble4 (x y : Nat) : Nat :=
  512 * block4 (x % 128 / 32) (y % 128 / 16) + 128 * (y % 128 % 16 / 4) +
    colPlace4 (y % 128 % 16 / 4 % 2) (x % 128 % 32) (y % 128 % 16 % 4)

theorem addr32_eq (unit dbp dbw x y : Nat) :
    addr32 unit dbp dbw x y = dbp * unit + 2048 * (x / 64 + y / 32 * dbw) + pageWord32 x y := by
  simp only [addr32, wordAddr, pageWord32, pageWords, blockWords, columnWords]
  ring

theorem addr8_eq (unit dbp dbw x y : Nat) :
    addr8 unit dbp dbw x y = 4 * (dbp * unit) + 8192 * (x / 128 + y / 64 * (dbw / 2)) + pageByte8 x y := by
  simp only [addr8, wordAddr, pageByte8, colPlace8, pageWords, blockWords, columnWords]
  ring

theorem addr4_eq (unit dbp dbw x y : Nat) :
    addr4 unit dbp dbw x y = 8 * (dbp * unit) + 16384 * (x / 128 + y / 128 * (dbw / 2)) + pageNibble4 x y := by
  simp only [addr4, wordAddr, pageNibble4, colPlace4, pageWords, blockWords, columnWords]
  ring

/-- The digits of a place: the block is what 64 words hold, and what is left over stays below 64 words. -/
theorem pageWord32_digits (x y : Nat) :
    pageWord32 x y / 64 = block32 (x % 64 / 8) (y % 32 / 8) ∧ pageWord32 x y < 2048 := by
  have hblock := block32_lt (bx := x % 64 / 8) (row := y % 32 / 8) (by omega) (by omega)
  have hplace := colWord32_lt (cx := x % 64 % 8) (cy := y % 32 % 8 % 2) (by omega) (by omega)
  unfold pageWord32
  omega

theorem pageByte8_digits (x y : Nat) :
    pageByte8 x y / 256 = block8 (x % 128 / 16) (y % 64 / 16) ∧ pageByte8 x y < 8192 := by
  have hblock : block8 (x % 128 / 16) (y % 64 / 16) < 32 := block32_lt (by omega) (by omega)
  have hplace := colPlace8_lt (c := y % 64 % 16 / 4 % 2) (cx := x % 128 % 16) (cy := y % 64 % 16 % 4) (by omega) (by omega)
    (by omega)
  unfold pageByte8
  omega

theorem pageNibble4_digits (x y : Nat) :
    pageNibble4 x y / 512 = block4 (x % 128 / 32) (y % 128 / 16) ∧ pageNibble4 x y < 16384 := by
  have hblock := block4_lt (bx := x % 128 / 32) (row := y % 128 / 16) (by omega) (by omega)
  have hplace := colPlace4_lt (c := y % 128 % 16 / 4 % 2) (cx := x % 128 % 32) (cy := y % 128 % 16 % 4) (by omega)
    (by omega) (by omega)
  unfold pageNibble4
  omega

/-- A place determines its pixel, as far as the page goes. -/
theorem pageWord32_inj {x y x' y' : Nat} (h : pageWord32 x y = pageWord32 x' y') : x % 64 = x' % 64 ∧ y % 32 = y' % 32 := by
  have hblocks : block32 (x % 64 / 8) (y % 32 / 8) = block32 (x' % 64 / 8) (y' % 32 / 8) := by
    rw [← (pageWord32_digits x y).1, ← (pageWord32_digits x' y').1, h]
  have hplace := colWord32_lt (cx := x % 64 % 8) (cy := y % 32 % 8 % 2) (by omega) (by omega)
  have hplace' := colWord32_lt (cx := x' % 64 % 8) (cy := y' % 32 % 8 % 2) (by omega) (by omega)
  unfold pageWord32 at h
  have hcolumn : y % 32 % 8 / 2 = y' % 32 % 8 / 2 := by omega
  obtain ⟨hbx, hbrow⟩ := block32_inj (by omega) (by omega) (by omega) (by omega) hblocks
  obtain ⟨hcx, hcy⟩ := colWord32_inj (cx := x % 64 % 8) (cy := y % 32 % 8 % 2) (cx' := x' % 64 % 8)
    (cy' := y' % 32 % 8 % 2) (by omega) (by omega) (by omega) (by omega) (by omega)
  omega

theorem pageByte8_inj {x y x' y' : Nat} (h : pageByte8 x y = pageByte8 x' y') : x % 128 = x' % 128 ∧ y % 64 = y' % 64 := by
  have hblocks : block32 (x % 128 / 16) (y % 64 / 16) = block32 (x' % 128 / 16) (y' % 64 / 16) :=
    (pageByte8_digits x y).1.symm.trans (h ▸ (pageByte8_digits x' y').1)
  have hplace := colPlace8_lt (c := y % 64 % 16 / 4 % 2) (cx := x % 128 % 16) (cy := y % 64 % 16 % 4) (by omega) (by omega)
    (by omega)
  have hplace' := colPlace8_lt (c := y' % 64 % 16 / 4 % 2) (cx := x' % 128 % 16) (cy := y' % 64 % 16 % 4) (by omega)
    (by omega) (by omega)
  unfold pageByte8 block8 at h
  unfold block32 at hblocks
  have hcolumn : y % 64 % 16 / 4 = y' % 64 % 16 / 4 := by omega
  rw [← hcolumn] at h
  obtain ⟨hbx, hbrow⟩ := block32_inj (by omega) (by omega) (by omega) (by omega) hblocks
  obtain ⟨hcx, hcy⟩ := colPlace8_inj (c := y % 64 % 16 / 4 % 2) (cx := x % 128 % 16) (cy := y % 64 % 16 % 4)
    (cx' := x' % 128 % 16) (cy' := y' % 64 % 16 % 4) (by omega) (by omega) (by omega) (by omega) (by omega) (by omega)
  omega

theorem pageNibble4_inj {x y x' y' : Nat} (h : pageNibble4 x y = pageNibble4 x' y') :
    x % 128 = x' % 128 ∧ y % 128 = y' % 128 := by
  have hblocks : block4 (x % 128 / 32) (y % 128 / 16) = block4 (x' % 128 / 32) (y' % 128 / 16) := by
    rw [← (pageNibble4_digits x y).1, ← (pageNibble4_digits x' y').1, h]
  have hplace := colPlace4_lt (c := y % 128 % 16 / 4 % 2) (cx := x % 128 % 32) (cy := y % 128 % 16 % 4) (by omega)
    (by omega) (by omega)
  have hplace' := colPlace4_lt (c := y' % 128 % 16 / 4 % 2) (cx := x' % 128 % 32) (cy := y' % 128 % 16 % 4) (by omega)
    (by omega) (by omega)
  unfold pageNibble4 at h
  have hcolumn : y % 128 % 16 / 4 = y' % 128 % 16 / 4 := by omega
  rw [← hcolumn] at h
  obtain ⟨hbx, hbrow⟩ := block4_inj (by omega) (by omega) (by omega) (by omega) hblocks
  obtain ⟨hcx, hcy⟩ := colPlace4_inj (c := y % 128 % 16 / 4 % 2) (cx := x % 128 % 32) (cy := y % 128 % 16 % 4)
    (cx' := x' % 128 % 32) (cy' := y' % 128 % 16 % 4) (by omega) (by omega) (by omega) (by omega) (by omega) (by omega)
  omega

/-! ### Equal addresses -/

theorem addr32_inj {unit dbp dbw x y x' y' : Nat} (h : addr32 unit dbp dbw x y = addr32 unit dbp dbw x' y') :
    x / 64 + y / 32 * dbw = x' / 64 + y' / 32 * dbw ∧ x % 64 = x' % 64 ∧ y % 32 = y' % 32 := by
  have hlt := (pageWord32_digits x y).2
  have hlt' := (pageWord32_digits x' y').2
  rw [addr32_eq, addr32_eq] at h
  exact ⟨by omega, pageWord32_inj (by omega)⟩

theorem addr8_inj {unit dbp dbw x y x' y' : Nat} (h : addr8 unit dbp dbw x y = addr8 unit dbp dbw x' y') :
    x / 128 + y / 64 * (dbw / 2) = x' / 128 + y' / 64 * (dbw / 2) ∧ x % 128 = x' % 128 ∧ y % 64 = y' % 64 := by
  have hlt := (pageByte8_digits x y).2
  have hlt' := (pageByte8_digits x' y').2
  rw [addr8_eq, addr8_eq] at h
  exact ⟨by omega, pageByte8_inj (by omega)⟩

theorem addr4_inj {unit dbp dbw x y x' y' : Nat} (h : addr4 unit dbp dbw x y = addr4 unit dbp dbw x' y') :
    x / 128 + y / 128 * (dbw / 2) = x' / 128 + y' / 128 * (dbw / 2) ∧ x % 128 = x' % 128 ∧ y % 128 = y' % 128 := by
  have hlt := (pageNibble4_digits x y).2
  have hlt' := (pageNibble4_digits x' y').2
  rw [addr4_eq, addr4_eq] at h
  exact ⟨by omega, pageNibble4_inj (by omega)⟩

/-- A page number below the buffer width is a digit: column and row of pages are read off it. -/
theorem page_digits {column row column' row' width : Nat} (hc : column < width) (hc' : column' < width)
    (h : column + row * width = column' + row' * width) : column = column' ∧ row = row' := by
  have hmod := congrArg (· % width) h
  have hdiv := congrArg (· / width) h
  have hpos : 0 < width := Nat.zero_lt_of_lt hc
  simp only [Nat.add_mul_mod_self_right, Nat.mod_eq_of_lt hc, Nat.mod_eq_of_lt hc'] at hmod
  simp only [Nat.add_mul_div_right _ _ hpos, Nat.div_eq_of_lt hc, Nat.div_eq_of_lt hc', Nat.zero_add] at hdiv
  exact ⟨hmod, hdiv⟩

/-- Settles O19: below the buffer width the page too determines its column and row of pages. -/
theorem addressInjectiveWithinBufferWidth : Obligations.AddressInjectiveWithinBufferWidth := by
  intro unit dbp dbw x y x' y'
  refine ⟨fun hx hx' h => ?psmct32, fun hx hx' h => ?psmt8, fun hx hx' h => ?psmt4⟩
  case psmct32 =>
    obtain ⟨hpage, hpx, hpy⟩ := addr32_inj h
    obtain ⟨hcolumn, hrow⟩ := page_digits (by omega) (by omega) hpage
    omega
  case psmt8 =>
    obtain ⟨hpage, hpx, hpy⟩ := addr8_inj h
    obtain ⟨hcolumn, hrow⟩ := page_digits (by omega) (by omega) hpage
    omega
  case psmt4 =>
    obtain ⟨hpage, hpx, hpy⟩ := addr4_inj h
    obtain ⟨hcolumn, hrow⟩ := page_digits (by omega) (by omega) hpage
    omega

/-! ### One page -/

/-- An injective map of a rectangle into as many places hits every place, by counting. -/
theorem exists_pixel_of_injective {w h : Nat} {f : Nat → Nat → Nat} (hlt : ∀ x y, x < w → y < h → f x y < w * h)
    (hinj : ∀ x y x' y', x < w → y < h → x' < w → y' < h → f x y = f x' y' → x = x' ∧ y = y') {place : Nat}
    (hplace : place < w * h) : ∃ x y, x < w ∧ y < h ∧ f x y = place := by
  let g : Fin w × Fin h → Fin (w * h) := fun p => ⟨f p.1 p.2, hlt p.1 p.2 p.1.isLt p.2.isLt⟩
  have hg : Function.Injective g := by
    rintro ⟨x, y⟩ ⟨x', y'⟩ heq
    obtain ⟨hx, hy⟩ := hinj x y x' y' x.isLt y.isLt x'.isLt y'.isLt (Fin.mk.inj heq)
    exact Prod.ext (Fin.ext hx) (Fin.ext hy)
  have hbij : Function.Bijective g := (Fintype.bijective_iff_injective_and_card g).2 ⟨hg, by simp⟩
  obtain ⟨⟨x, y⟩, hxy⟩ := hbij.2 ⟨place, hplace⟩
  exact ⟨x, y, x.isLt, y.isLt, Fin.mk.inj hxy⟩

/-- In a page an address is a base and a place; when there are as many places as pixels, every place is hit once. -/
theorem hits_once_of_places {w h base : Nat} {addr place : Nat → Nat → Nat}
    (haddr : ∀ x y, x < w → y < h → addr x y = base + place x y) (hlt : ∀ x y, x < w → y < h → place x y < w * h)
    (hinj : ∀ x y x' y', x < w → y < h → x' < w → y' < h → place x y = place x' y' → x = x' ∧ y = y') :
    (∀ q, q < w * h → ∃ x y, x < w ∧ y < h ∧ addr x y = base + q ∧
      ∀ x' y', x' < w → y' < h → addr x' y' = base + q → x' = x ∧ y' = y) ∧
    (∀ x y, x < w → y < h → base ≤ addr x y ∧ addr x y < base + w * h) := by
  refine ⟨fun q hq => ?_, fun x y hx hy => ?_⟩
  · obtain ⟨x, y, hx, hy, rfl⟩ := exists_pixel_of_injective hlt hinj hq
    refine ⟨x, y, hx, hy, haddr x y hx hy, fun x' y' hx' hy' h => ?_⟩
    rw [haddr x' y' hx' hy'] at h
    exact hinj x' y' x y hx' hy' hx hy (Nat.add_left_cancel h)
  · rw [haddr x y hx hy]
    exact ⟨Nat.le_add_right _ _, Nat.add_lt_add_left (hlt x y hx hy) base⟩

section PageZero

variable {x y : Nat} (unit dbp dbw : Nat)

theorem addr32_of_page_zero (hx : x < 64) (hy : y < 32) :
    addr32 unit dbp dbw x y = dbp * unit + pageWord32 x y := by
  rw [addr32_eq, Nat.div_eq_of_lt hx, Nat.div_eq_of_lt hy, Nat.zero_mul, Nat.add_zero]

theorem addr8_of_page_zero (hx : x < 128) (hy : y < 64) :
    addr8 unit dbp dbw x y = 4 * (dbp * unit) + pageByte8 x y := by
  rw [addr8_eq, Nat.div_eq_of_lt hx, Nat.div_eq_of_lt hy, Nat.zero_mul, Nat.add_zero]

theorem addr4_of_page_zero (hx : x < 128) (hy : y < 128) :
    addr4 unit dbp dbw x y = 8 * (dbp * unit) + pageNibble4 x y := by
  rw [addr4_eq, Nat.div_eq_of_lt hx, Nat.div_eq_of_lt hy, Nat.zero_mul, Nat.add_zero]

end PageZero

/-- Settles O17: within page 0 an address is the base and the pixel's place, the places lie below the page's size, and
there are as many of them as pixels. -/
theorem addressBijectiveWithinPage : Obligations.AddressBijectiveWithinPage := by
  intro unit dbp dbw
  obtain ⟨hits32, range32⟩ := hits_once_of_places (w := 64) (h := 32)
    (fun x y => addr32_of_page_zero unit dbp dbw) (fun x y _ _ => (pageWord32_digits x y).2)
    fun x y x' y' hx hy hx' hy' h => by have := pageWord32_inj h; omega
  obtain ⟨hits8, range8⟩ := hits_once_of_places (w := 128) (h := 64)
    (fun x y => addr8_of_page_zero unit dbp dbw) (fun x y _ _ => (pageByte8_digits x y).2)
    fun x y x' y' hx hy hx' hy' h => by have := pageByte8_inj h; omega
  obtain ⟨hits4, range4⟩ := hits_once_of_places (w := 128) (h := 128)
    (fun x y => addr4_of_page_zero unit dbp dbw) (fun x y _ _ => (pageNibble4_digits x y).2)
    fun x y x' y' hx hy hx' hy' h => by have := pageNibble4_inj h; omega
  exact ⟨hits32, range32, hits8, range8, hits4, range4⟩

/-- Settles O18: with base 0 the run of 64 words an address lies in is the block digit, and the block table has no
repetitions. -/
theorem blocksAreRunsOfSixtyFourWords : Obligations.BlocksAreRunsOfSixtyFourWords := by
  intro unit dbw
  refine ⟨fun x y x' y' hx hy hx' hy' => ?psmct32, fun x y x' y' hx hy hx' hy' => ?psmt8,
    fun x y x' y' hx hy hx' hy' => ?psmt4⟩
  case psmct32 =>
    have run {x y : Nat} (hx : x < 64) (hy : y < 32) : addr32 unit 0 dbw x y / 64 = block32 (x / 8) (y / 8) := by
      rw [addr32_of_page_zero unit 0 dbw hx hy, Nat.zero_mul, Nat.zero_add, (pageWord32_digits x y).1, Nat.mod_eq_of_lt hx,
        Nat.mod_eq_of_lt hy]
    rw [run hx hy, run hx' hy']
    exact ⟨block32_inj (by omega) (by omega) (by omega) (by omega), fun ⟨hbx, hbrow⟩ => by rw [hbx, hbrow]⟩
  case psmt8 =>
    have run {x y : Nat} (hx : x < 128) (hy : y < 64) : addr8 unit 0 dbw x y / 256 = block8 (x / 16) (y / 16) := by
      rw [addr8_of_page_zero unit 0 dbw hx hy, Nat.zero_mul, Nat.mul_zero, Nat.zero_add, (pageByte8_digits x y).1,
        Nat.mod_eq_of_lt hx, Nat.mod_eq_of_lt hy]
    rw [run hx hy, run hx' hy']
    exact ⟨block32_inj (by omega) (by omega) (by omega) (by omega), fun ⟨hbx, hbrow⟩ => by rw [hbx, hbrow]⟩
  case psmt4 =>
    have run {x y : Nat} (hx : x < 128) (hy : y < 128) : addr4 unit 0 dbw x y / 512 = block4 (x / 32) (y / 16) := by
      rw [addr4_of_page_zero unit 0 dbw hx hy, Nat.zero_mul, Nat.mul_zero, Nat.zero_add, (pageNibble4_digits x y).1,
        Nat.mod_eq_of_lt hx, Nat.mod_eq_of_lt hy]
    rw [run hx hy, run hx' hy']
    exact ⟨block4_inj (by omega) (by omega) (by omega) (by omega), fun ⟨hbx, hbrow⟩ => by rw [hbx, hbrow]⟩

end Sys2Proof.Machine
end

