-- ==== Sys2Proof/Proofs/SurfaceWords.lean ====
section
/-! WRITE_PSMCT32 past the surface, READ_PSMCT32, and the two together (41_address_translator.md R88, R89): a rectangle no
wider than the buffer has a word of its own for each pixel, so what was written is read back. -/

namespace Sys2Proof.Machine

/-! ### Clipping (20_memory.md R38) -/

/-- A base pointer of 512 units of 2048 words is past the 4 MiB surface, wherever the pixel lies. -/
theorem surfaceBytes_le_pixelByte {dbp : Nat} (h : 512 ≤ dbp) (dbw x0 y0 w k : Nat) :
    surfaceBytes ≤ pixelByte dbp dbw x0 y0 w k := by
  rw [pixelByte, addr32_eq, bpUnitWords, surfaceBytes]
  omega

/-- When every pixel's word is clipped the transfer writes nothing. -/
theorem scatter_of_clipped {dbp dbw x0 y0 w count k : Nat} {src : List Byte} {m : Memory}
    (hclip : ∀ j, surfaceBytes < pixelByte dbp dbw x0 y0 w j + 4) :
    scatter bpUnitWords dbp dbw x0 y0 w count k src m = m := by
  fun_induction scatter bpUnitWords dbp dbw x0 y0 w count k src m with
  | case1 k b0 b1 b2 b3 rest m hk ih => exact ih.trans (memWrite4_of_lt m b0 b1 b2 b3 (hclip k))
  | case2 => rfl
  | case3 => rfl

theorem exec_opWritePsmct32 (dbp : BitVec 14) (dbw : BitVec 6) (dsax dsay : BitVec 11) (rrw rrh : BitVec 12)
    (src : List Byte) (s : State) :
    exec (.opWritePsmct32 dbp dbw dsax dsay rrw rrh src) s = .next { s with
      surface := writePsmct32 bpUnitWords dbp.toNat dbw.toNat dsax.toNat dsay.toNat rrw.toNat rrh.toNat src s.surface
      out := .written } := rfl

/-- Settles O21: every pixel's word is clipped. -/
theorem writeBeyondSurfaceIsDropped : Obligations.WriteBeyondSurfaceIsDropped := by
  intro dbp dbw dsax dsay rrw rrh src s hdbp
  have hclip (j : Nat) : surfaceBytes < pixelByte dbp.toNat dbw.toNat dsax.toNat dsay.toNat rrw.toNat j + 4 :=
    (surfaceBytes_le_pixelByte hdbp _ _ _ _ _).trans_lt (Nat.lt_add_of_pos_right (by decide))
  rw [exec_opWritePsmct32, writePsmct32, scatter_of_clipped hclip]

/-! ### READ_PSMCT32 (R89) -/

/-- Pieces of one length laid end to end: byte `4 * k + b` is byte `b` of piece `k`. -/
theorem flatMap_getD_of_length_four {α : Type} {f : α → List Byte} (hf : ∀ p, (f p).length = 4) {l : List α} {k b : Nat}
    {p : α} (hk : l[k]? = some p) (hb : b < 4) : (l.flatMap f).getD (4 * k + b) 0#8 = (f p).getD b 0#8 := by
  induction l generalizing k with
  | nil => cases hk
  | cons q l ih =>
    rw [List.flatMap_cons]
    cases k with
    | zero =>
      obtain rfl := Option.some.inj hk
      rw [Nat.mul_zero, Nat.zero_add, List.getD_append _ _ _ _ (by rw [hf]; exact hb)]
    | succ k =>
      rw [List.getD_append_right _ _ _ _ (by rw [hf]; omega), hf, show 4 * (k + 1) + b - 4 = 4 * k + b by omega]
      exact ih hk

theorem readPsmct32_length (unit dbp dbw x0 y0 w h : Nat) (m : Memory) :
    (readPsmct32 unit dbp dbw x0 y0 w h m).length = 4 * (w * h) := by
  have hword (p : Nat × Nat) : (memRead4 m (4 * addr32 unit dbp dbw p.1 p.2)).length = 4 := rfl
  simp only [readPsmct32, List.length_flatMap, hword, List.map_const', List.sum_replicate, rectPixels_length, smul_eq_mul]
  ring

/-- Byte `b` of pixel `k` is the surface byte there. -/
theorem readPsmct32_getD (dbp dbw x0 y0 : Nat) (m : Memory) {w h k b : Nat} (hk : k < w * h) (hb : b < 4) :
    (readPsmct32 bpUnitWords dbp dbw x0 y0 w h m).getD (4 * k + b) 0#8 = memRead m (pixelByte dbp dbw x0 y0 w k + b) := by
  rw [readPsmct32, flatMap_getD_of_length_four (fun _ => rfl) (rectPixels_getElem? x0 y0 hk) hb, memRead4_getD _ _ hb]
  rfl

theorem exec_opReadPsmct32 (dbp : BitVec 14) (dbw : BitVec 6) (x0 y0 : BitVec 11) (w h : BitVec 12) (s : State) :
    exec (.opReadPsmct32 dbp dbw x0 y0 w h) s = .next { s with
      out := .bytes (readPsmct32 bpUnitWords dbp.toNat dbw.toNat x0.toNat y0.toNat w.toNat h.toNat s.surface) } := rfl

/-- Settles O22: four surface bytes per pixel, each 0 outside the surface. -/
theorem readPsmct32GathersWords : Obligations.ReadPsmct32GathersWords := by
  intro dbp dbw x0 y0 w h s
  exact ⟨_, exec_opReadPsmct32 dbp dbw x0 y0 w h s, readPsmct32_length ..,
    fun k b hk hb => readPsmct32_getD _ _ _ _ s.surface hk hb⟩

/-! ### Written and read back -/

/-- In a rectangle no wider than the buffer no two pixels share a word. -/
theorem pixelByte_inj {dbp dbw x0 y0 w j k : Nat} (hw : 0 < w) (hfit : x0 + w ≤ 64 * dbw)
    (h : pixelByte dbp dbw x0 y0 w j = pixelByte dbp dbw x0 y0 w k) : j = k := by
  have hj := Nat.mod_lt j hw
  have hk := Nat.mod_lt k hw
  obtain ⟨hx, hy⟩ := (addressInjectiveWithinBufferWidth bpUnitWords dbp dbw (x0 + j % w) (y0 + j / w) (x0 + k % w)
    (y0 + k / w)).1 (by omega) (by omega) (Nat.eq_of_mul_eq_mul_left (by decide) h)
  rw [← Nat.div_add_mod j w, ← Nat.div_add_mod k w, Nat.add_left_cancel hx, Nat.add_left_cancel hy]

/-- Settles O23: each pixel's word is its own, so it keeps the pixel's source bytes, and the read gathers them again. -/
theorem readPsmct32InvertsWrite : Obligations.ReadPsmct32InvertsWrite := by
  intro dbp dbw dsax dsay rrw rrh src s hwf hlen hfit hinside
  obtain ⟨m, hwrite, _, hword⟩ := writeScattersPixels dbp dbw dsax dsay rrw rrh src s
  refine ⟨_, hwrite, ?_⟩
  have hread : readPsmct32 bpUnitWords dbp.toNat dbw.toNat dsax.toNat dsay.toNat rrw.toNat rrh.toNat m = src := by
    refine List.ext_getElem (by rw [readPsmct32_length, hlen]) fun i hi hi' => ?_
    rw [← List.getD_eq_getElem _ 0#8 hi, ← List.getD_eq_getElem _ 0#8 hi', ← Nat.div_add_mod i 4]
    have hk : i / 4 < rrw.toNat * rrh.toNat := by omega
    have hb : i % 4 < 4 := Nat.mod_lt i (by decide)
    have hw : 0 < rrw.toNat := Nat.pos_of_ne_zero fun h0 => by rw [h0, Nat.zero_mul] at hk; omega
    rw [readPsmct32_getD _ _ _ _ m hk hb]
    exact hword hwf _ ⟨hk, by omega, hinside _ hk⟩ (fun j hj _ heq => hj.ne' (pixelByte_inj hw hfit heq)) _ hb
  rw [exec_opReadPsmct32, hread]

end Sys2Proof.Machine
end

