-- ==== Sys2Proof/Proofs/ReadsAndSlots.lean ====
section
/-! Input reads (20_memory.md R32), the reads of the port that leave the record (logs 12 and 18), register slots on their
own (30_encoding.md R58) and the fields the block reads and discards (R62). -/

namespace Sys2Proof.Machine

/-! ### Input reads -/

/-- Settles O7: the two sides of the bounds check. -/
theorem inputReadIsCheckedLittleEndianSum : Obligations.InputReadIsCheckedLittleEndianSum := by
  intro inp a n
  refine ⟨fun hle => ⟨inRead_of_le hle, bytesAt inp a n, inBytes_of_le hle, bytesAt_length hle, fun k hk => ?_⟩,
    fun hlt => ⟨inRead_of_lt hlt, inBytes_of_lt hlt⟩⟩
  exact bytesAt_getD inp a hk

/-! ### Reads of the port past the record -/

/-- The first slot fits below the bound, but its id is not in the record. -/
theorem findReg_of_lt {inp : List Byte} {id : Quad} {bound count start : Nat} (hcount : 0 < count)
    (hbound : start + 16 ≤ bound) (hlt : inp.length < start + 16) :
    findReg inp id bound count start = .error (.outOfBounds (start + 8) 8) := by
  obtain ⟨n, rfl⟩ := Nat.exists_eq_add_one_of_ne_zero hcount.ne'
  rw [findReg, if_neg (by omega), inQuad_of_lt (by omega)]

theorem exec_opFindReg_of_lt {start count bound : Nat} {id : Quad} {s : State} (hcount : 0 < count)
    (hbound : start + 16 ≤ bound) (hlt : s.inp.length < start + 16) :
    exec (.opFindReg start count id bound) s = .next (s.raise (.outOfBounds (start + 8) 8)) := by
  rw [exec, execOpFindReg_eq, findReg_of_lt hcount hbound hlt]
  rfl

/-- Settles O12: the read of the first slot's id raises. -/
theorem findRegPastRecordFails : Obligations.FindRegPastRecordFails := by
  intro start count id bound s hcount hbound hlt
  exact ⟨_, exec_opFindReg_of_lt hcount hbound hlt, State.raise_phase _ s, State.raise_result _ s⟩

/-- Settles O54: an empty range past the record fails the range check, which comes first. -/
theorem readEmptyPalettePastRecordFails : Obligations.ReadEmptyPalettePastRecordFails := by
  intro p w h s _ hlt
  exact ⟨_, exec_opReadPalette_of_lt (Nat.lt_add_right _ hlt), State.raise_phase _ s, State.raise_result _ s⟩

/-! ### Register slots -/

/-- Settles O14: a slot writes its latch, whose bit fields are quotients by powers of 2, or nothing. -/
theorem slotsLatchOrDoNothing : Obligations.SlotsLatchOrDoNothing := by
  intro v id s
  rw [← latchBitbltbuf_eq, ← latchTrxpos_eq, ← latchTrxreg_eq]
  exact ⟨rfl, rfl, rfl, rfl, rfl⟩

/-! ### Discarded fields -/

/-- A field under a mask that keeps it whole is a field of the masked value. -/
theorem extractLsb'_eq_of_and_eq {v v' mask : Quad} {start len : Nat}
    (hmask : mask.extractLsb' start len = BitVec.allOnes len) (h : v &&& mask = v' &&& mask) :
    v.extractLsb' start len = v'.extractLsb' start len := by
  have hfield := congrArg (BitVec.extractLsb' start len) h
  rwa [BitVec.extractLsb'_and, BitVec.extractLsb'_and, hmask, BitVec.and_allOnes, BitVec.and_allOnes] at hfield

theorem latchBitbltbuf_of_and_eq {v v' : Quad} (h : v &&& 0x3F3F3FFF00000000 = v' &&& 0x3F3F3FFF00000000) :
    latchBitbltbuf v = latchBitbltbuf v' := by
  rw [latchBitbltbuf, latchBitbltbuf, extractLsb'_eq_of_and_eq (by decide) h, extractLsb'_eq_of_and_eq (by decide) h,
    extractLsb'_eq_of_and_eq (by decide) h]

theorem latchTrxpos_of_and_eq {v v' : Quad} (h : v &&& 0x07FF07FF00000000 = v' &&& 0x07FF07FF00000000) :
    latchTrxpos v = latchTrxpos v' := by
  rw [latchTrxpos, latchTrxpos, extractLsb'_eq_of_and_eq (by decide) h, extractLsb'_eq_of_and_eq (by decide) h]

theorem latchTrxreg_of_and_eq {v v' : Quad} (h : v &&& 0x00000FFF00000FFF = v' &&& 0x00000FFF00000FFF) :
    latchTrxreg v = latchTrxreg v' := by
  rw [latchTrxreg, latchTrxreg, extractLsb'_eq_of_and_eq (by decide) h, extractLsb'_eq_of_and_eq (by decide) h]

theorem exec_adBitbltbuf (v : Quad) (s : State) :
    exec (.adBitbltbuf v) s = .next { s with bitbltbuf := latchBitbltbuf v } := rfl

theorem exec_adTrxpos (v : Quad) (s : State) : exec (.adTrxpos v) s = .next { s with trxpos := latchTrxpos v } := rfl

theorem exec_adTrxreg (v : Quad) (s : State) : exec (.adTrxreg v) s = .next { s with trxreg := latchTrxreg v } := rfl

/-- Settles O16: no meaning reads a discarded field of a tag or an ignored slot, and a latch reads the bits under its mask
only. -/
theorem discardedFieldsChangeNothing : Obligations.DiscardedFieldsChangeNothing := by
  intro n f f' r r' v v' id s
  refine ⟨rfl, rfl, rfl, rfl, rfl, rfl, rfl, fun h => ?bitbltbuf, fun h => ?trxpos, fun h => ?trxreg, rfl, rfl⟩
  case bitbltbuf => rw [exec_adBitbltbuf, exec_adBitbltbuf, latchBitbltbuf_of_and_eq h]
  case trxpos => rw [exec_adTrxpos, exec_adTrxpos, latchTrxpos_of_and_eq h]
  case trxreg => rw [exec_adTrxreg, exec_adTrxreg, latchTrxreg_of_and_eq h]

end Sys2Proof.Machine
end

