-- ==== Sys2Proof/Proofs/PaletteAndBlank.lean ====
section
/-! Unswizzling twice (42_format_converter.md R94, R95), the empty palette (R96, log 7), and the blank image
(43_sequencer.md R104). -/

namespace Sys2Proof.Machine

/-- Two bits that change places twice are back in place. -/
theorem swapBits34_swapBits34 (i : Byte) : swapBits34 (swapBits34 i) = i := by
  revert i
  decide +kernel

theorem exec_opUnswizzleClut (pal : List Color) (s : State) :
    exec (.opUnswizzleClut pal) s = .next { s with out := .palette (unswizzleClut pal) } := rfl

theorem unswizzleClut_unswizzleClut (pal : List Color) : unswizzleClut (unswizzleClut pal) = pal := by
  by_cases hlen : pal.length = 256
  · have hlen' : (unswizzleClut pal).length = 256 := (unswizzleClut_length pal).trans hlen
    have hlen'' := (unswizzleClut_length (unswizzleClut pal)).trans hlen'
    refine List.ext_getElem? fun j => ?_
    rcases Nat.lt_or_ge j 256 with hj | hj
    · rw [unswizzleClut_getElem? hlen' hj, unswizzleClut_getElem? hlen (swapBits34 _).isLt, BitVec.ofNat_toNat,
        BitVec.setWidth_eq, swapBits34_swapBits34, BitVec.toNat_ofNat, Nat.mod_eq_of_lt hj]
    · rw [List.getElem?_eq_none (hlen'' ▸ hj), List.getElem?_eq_none (hlen ▸ hj)]
  · rw [unswizzleClut, unswizzleClut, if_neg hlen, if_neg hlen]

/-- Settles O29: the reordering is its own inverse; 16 entries are left alone. -/
theorem unswizzleIsInvolution : Obligations.UnswizzleIsInvolution := by
  intro pal s _
  refine ⟨_, exec_opUnswizzleClut pal s, ?twice, fun h16 => if_neg (by omega)⟩
  rw [exec_opUnswizzleClut, unswizzleClut_unswizzleClut]

/-- Settles O31: the loop answers four bytes per index, whatever the palette. -/
theorem applyEmptyPaletteCompletes : Obligations.ApplyEmptyPaletteCompletes := by
  intro idx s
  exact ⟨_, rfl, applyPalette_length [] idx⟩

/-- Settles O37: the buffer is a run of zeros. -/
theorem blankRecordIsZeroFilled : Obligations.BlankRecordIsZeroFilled := by
  intro n flg r s
  exact ⟨_, rfl, List.length_replicate .., fun b hb => List.eq_of_mem_replicate hb⟩

end Sys2Proof.Machine
end

