-- ==== Sys2Proof/Proofs/StepInstruction.lean ====
section
/-! What a step runs (43_sequencer.md R98, 30_encoding.md R68): it always answers a next state, in a running transaction it is
the instruction that stands next, and after the end the request on the port. -/

namespace Sys2Proof.Machine

/-! ### Every step answers -/

theorem exec_eq_next (i : Instr) (s : State) : ∃ t, exec i s = .next t := by
  cases hi : isOfTransaction i with
  | false =>
    obtain ⟨t, ht, _⟩ := exec_host_cases hi s
    exact ⟨t, ht⟩
  | true =>
    cases i with
    | recordFlat | recordDirect | recordIndexed | recordBlank => exact ⟨_, rfl⟩
    | giftagPacked | giftagReglist | giftagImage | giftagDisabled => exact ⟨_, rfl⟩
    | opDecode => exact ⟨_, rfl⟩
    | _ => cases hi

/-- Settles O6: a step is an instruction or a move of the sequencer, and neither has another outcome. -/
theorem everyStepAnswersNextState : Obligations.EveryStepAnswersNextState := by
  intro s
  unfold step
  cases fetch s with
  | run i s' => exact exec_eq_next i s'
  | sequence s' => exact ⟨s', rfl⟩

/-! ### Fields of a stretch of the record -/

theorem fieldAt_bytesAt (w : Nat) (inp : List Byte) {a m b n : Nat} (h : b + n ≤ m) :
    fieldAt w (bytesAt inp a m) b n = fieldAt w inp (a + b) n := by
  rw [fieldAt, fieldAt, bytesAt, List.drop_take, List.take_take, List.drop_drop, Nat.min_eq_left (by omega)]

theorem fieldAt_quadsAt {inp : List Byte} {a : Nat} (h : a + 16 ≤ inp.length) :
    (fieldAt 64 (bytesAt inp a 16) 0 8, fieldAt 64 (bytesAt inp a 16) 8 8) = quadsAt inp a := by
  rw [fieldAt_bytesAt 64 inp (by decide), fieldAt_bytesAt 64 inp (by decide), fieldAt_of_le 64 (by omega),
    fieldAt_of_le 64 (by omega)]
  rfl

theorem headerOf_bytesAt (inp : List Byte) : headerOf (bytesAt inp 0 20) = headerOf inp := by
  simp only [headerOf, fieldAt_bytesAt _ inp (show 0 + 2 ≤ 20 by decide), fieldAt_bytesAt _ inp (show 2 + 2 ≤ 20 by decide),
    fieldAt_bytesAt _ inp (show 4 + 2 ≤ 20 by decide), fieldAt_bytesAt _ inp (show 6 + 2 ≤ 20 by decide),
    fieldAt_bytesAt _ inp (show 8 + 4 ≤ 20 by decide), fieldAt_bytesAt _ inp (show 12 + 4 ≤ 20 by decide),
    fieldAt_bytesAt _ inp (show 16 + 4 ≤ 20 by decide), Nat.zero_add]

/-! ### What stands next -/

theorem decode_tag_bytesAt {inp : List Byte} {a : Nat} (h : a + 16 ≤ inp.length) :
    decode (.tag (bytesAt inp a 16)) = .ok (decodeTag (quadsAt inp a).1 (quadsAt inp a).2) := by
  rw [← fieldAt_quadsAt h, decode, if_neg (not_not.2 (bytesAt_length h))]

theorem decode_firstTag_bytesAt {inp : List Byte} {a : Nat} (h : a + 16 ≤ inp.length) :
    decode (.firstTag (bytesAt inp a 16)) = .ok (decodeFirstTag (quadsAt inp a).1 (quadsAt inp a).2) := by
  rw [← fieldAt_quadsAt h, decode, if_neg (not_not.2 (bytesAt_length h))]

theorem firstTag_eq_quadsAt {s : State} (h : tagStart s.tagOff + 16 ≤ s.inp.length) :
    firstTag s = quadsAt s.inp (tagStart s.tagOff) := by
  rw [firstTag, fieldAt_of_le 64 (by omega), fieldAt_of_le 64 (by omega)]
  rfl

theorem fetch_scanning {s : State} (hp : s.phase = .scanning) (hend : s.cur + 16 ≤ s.scanEnd)
    (h : s.cur + 16 ≤ s.inp.length) :
    fetch s = .run (decodeTag (quadsAt s.inp s.cur).1 (quadsAt s.inp s.cur).2) s := by
  rw [fetch, hp]
  dsimp only
  rw [if_neg (Nat.not_lt.2 hend), fetchTag_of_le h]

theorem fetch_class {s : State} (hp : s.phase = .direct ∨ s.phase = .clutLoad) :
    fetch s = .run (decodeFirstTag (firstTag s).1 (firstTag s).2) s := by
  rcases hp with hp | hp <;> rw [fetch, hp]

theorem fetch_flat {s : State} (hp : s.phase = .flat) : fetch s = .run (.recordFlat (headerOf s.inp)) s := by
  rw [fetch, hp]

theorem step_of_fetch_run {s s' : State} {i : Instr} (h : fetch s = .run i s') : step s = exec i s' := by
  rw [step, h]

/-- Settles O5: in each phase the fetched instruction is what the bytes that stand there decode to. -/
theorem stepRunsDecodedInstruction : Obligations.StepRunsDecodedInstruction := by
  intro s i
  refine ⟨fun hp hend hlen hi => ?scanning, fun hp hlen hi => ?firstTag, fun hp hi => ?flat,
    fun hp => ⟨fun p hport hi => ?operation, fun v id hport hi => ?slot⟩⟩
  case scanning =>
    rw [decode_tag_bytesAt (by omega)] at hi
    cases hi
    exact step_of_fetch_run (fetch_scanning hp hend (by omega))
  case firstTag =>
    rw [decode_firstTag_bytesAt hlen, ← firstTag_eq_quadsAt hlen] at hi
    cases hi
    exact step_of_fetch_run (fetch_class hp)
  case flat =>
    rw [decode, headerOf_bytesAt] at hi
    split_ifs at hi
    cases hi
    exact step_of_fetch_run (fetch_flat hp)
  case operation =>
    cases hi
    exact step_request (Phase.isFinal_iff.2 hp) hport
  case slot =>
    rw [decode_slot_slotBytes] at hi
    cases hi
    exact step_request (Phase.isFinal_iff.2 hp) hport

/-! ### Moves without an instruction -/

theorem seqStep_of_final {s : State} (hf : s.phase.isFinal = true) : seqStep s = s := by
  rcases Phase.isFinal_iff.1 hf with hp | hp <;> rw [seqStep, hp]

theorem seqStep_scanning_end {s : State} (hp : s.phase = .scanning) (hend : s.scanEnd < s.cur + 16) :
    seqStep s = { s with phase := .readback } := by
  rw [seqStep, hp]
  exact if_pos hend

/-- Settles O39: three moves of the sequencer. -/
theorem sequencerMovesWithoutInstruction : Obligations.SequencerMovesWithoutInstruction := by
  intro s
  refine ⟨fun hp hend => ?scanEnds, step_transferring, fun hp hport => ?rests⟩
  case scanEnds => rw [step_sequencer (.inl (by rw [hp]; rfl)), seqStep_scanning_end hp hend]
  case rests => rw [step_sequencer (.inr hport), seqStep_of_final (Phase.isFinal_iff.2 hp)]

end Sys2Proof.Machine
end

