-- ==== Sys2Proof/Proofs/PortFrame.lean ====
section
/-! A running transaction and the port (00_scope.md R4, 60_exceptions.md R118): no operation of the sequencer reads or writes
the waiting request, so a step commutes with replacing it. -/

namespace Sys2Proof.Machine

/-- The state with another request waiting. -/
def State.withPort (r : Option Request) (s : State) : State := { s with port := r }

section WithPort

variable (r : Option Request) (s : State)

theorem orRaise_withPort (x : Except Raise State) :
    orRaise (s.withPort r) (x.map (State.withPort r)) = (orRaise s x).withPort r := by
  cases x <;> rfl

theorem flatStep_withPort : flatStep (s.withPort r) = (flatStep s).map (State.withPort r) := by
  unfold flatStep
  dsimp only [State.withPort]
  rcases readFlatPalette s.inp flatPaletteOffset with e | pal
  · rfl
  rcases inBytes s.inp (flatPaletteOffset + flatPaletteBytes) (s.width.toNat * s.height.toNat) with e | px <;> rfl

theorem directStep_withPort : directStep (s.withPort r) = (directStep s).map (State.withPort r) := by
  unfold directStep
  dsimp only [State.withPort]
  rcases inBytes s.inp (tagStart s.tagOff + directPixelOffset) (4 * (s.width.toNat * s.height.toNat)) with e | px <;> rfl

theorem blankStep_withPort : blankStep (s.withPort r) = (blankStep s).withPort r := rfl

theorem clutLoad_withPort (v : Quad) : clutLoad v (s.withPort r) = (clutLoad v s).map (State.withPort r) := by
  unfold clutLoad
  dsimp only [State.withPort]
  by_cases hcount : (latchTrxreg v).rrw.toNat * (latchTrxreg v).rrh.toNat ≠ 16 ∧
      (latchTrxreg v).rrw.toNat * (latchTrxreg v).rrh.toNat ≠ 256
  · rw [if_pos hcount, if_pos hcount]
    rfl
  rw [if_neg hcount, if_neg hcount]
  rcases parseTag s.inp (tagStart s.tagOff + secondTagOffset) with e | t2
  · rfl
  rcases readPalette s.inp (tagStart s.tagOff + clutPaletteOffset) (latchTrxreg v).rrw.toNat (latchTrxreg v).rrh.toNat
    with e | pal <;> rfl

theorem clutStep_withPort : clutStep (s.withPort r) = (clutStep s).map (State.withPort r) := by
  unfold clutStep
  rw [show (s.withPort r).inp = s.inp from rfl, show (s.withPort r).tagOff = s.tagOff from rfl]
  rcases lookupReg s.inp (tagStart s.tagOff + 16) 4 idTrxreg s.inp.length with e | _ | v
  · rfl
  · rfl
  · exact clutLoad_withPort r s v

theorem regBatch_withPort (nloop : BitVec 15) :
    regBatch nloop (s.withPort r) = (regBatch nloop s).map (State.withPort r) := by
  unfold regBatch
  dsimp only [State.withPort]
  rcases lookupReg s.inp (s.cur + 16) nloop.toNat idBitbltbuf s.scanEnd with e | vb
  · rfl
  rcases lookupReg s.inp (s.cur + 16) nloop.toNat idTrxpos s.scanEnd with e | vp
  · rfl
  rcases lookupReg s.inp (s.cur + 16) nloop.toNat idTrxreg s.scanEnd with e | vr <;> rfl

theorem transfer_withPort (payload : List Byte) : transfer payload (s.withPort r) = (transfer payload s).withPort r := by
  unfold transfer
  rw [show (s.withPort r).pal = s.pal from rfl, show (s.withPort r).bitbltbuf = s.bitbltbuf from rfl]
  cases goesThroughSurface s.pal.length s.bitbltbuf.dpsm <;> rfl

theorem imageStep_withPort (nloop : BitVec 15) :
    imageStep nloop (s.withPort r) = (imageStep nloop s).map (State.withPort r) := by
  unfold imageStep
  rw [show (s.withPort r).inp = s.inp from rfl, show (s.withPort r).scanEnd = s.scanEnd from rfl,
    show (s.withPort r).cur = s.cur from rfl]
  rcases imagePayload s.inp s.scanEnd s.cur nloop with e | ⟨d, c2⟩
  · rfl
  · simp only [transfer_withPort, Except.map]
    rfl

theorem headerStep_withPort : headerStep (s.withPort r) = (headerStep s).map (State.withPort r) := by
  unfold headerStep
  rw [show (s.withPort r).inp = s.inp from rfl]
  dsimp only
  split_ifs <;> rfl

/-- The class a selection finds, with another request waiting. -/
def Selected.withPort (r : Option Request) : Selected → Selected
  | .enter s => .enter (s.withPort r)
  | .blank lo hi s => .blank lo hi (s.withPort r)

theorem selectClass_withPort : selectClass (s.withPort r) = (selectClass s).map (Selected.withPort r) := by
  unfold selectClass
  rw [show (s.withPort r).inp = s.inp from rfl, show (s.withPort r).tagOff = s.tagOff from rfl]
  split_ifs
  · rfl
  · rfl
  rcases fetchTag s.inp (tagStart s.tagOff) with e | ⟨lo, hi⟩
  · rfl
  dsimp only
  split_ifs <;> rfl

theorem openRecord_withPort : openRecord (s.withPort r) = (openRecord s).map (Selected.withPort r) := by
  unfold openRecord
  rw [headerStep_withPort]
  rcases headerStep s with e | s'
  · rfl
  · exact selectClass_withPort r s'

theorem readback_withPort : readback (s.withPort r) = (readback s).withPort r := rfl

theorem classStep_withPort (nloop : BitVec 15) : classStep nloop (s.withPort r) = (classStep nloop s).withPort r := by
  unfold classStep
  split_ifs
  · rw [directStep_withPort, orRaise_withPort]
  · rw [clutStep_withPort, orRaise_withPort]
  · exact blankStep_withPort r s

theorem packetStep_withPort (lo : Quad) : packetStep lo (s.withPort r) = (packetStep lo s).withPort r := by
  unfold packetStep
  split_ifs
  · rw [imageStep_withPort, orRaise_withPort]
  · rw [regBatch_withPort, orRaise_withPort]

/-- A step of the sequencer does the same to every other field whatever request waits. -/
theorem seqStep_withPort : seqStep (s.withPort r) = (seqStep s).withPort r := by
  unfold seqStep
  rw [show (s.withPort r).phase = s.phase from rfl]
  cases s.phase with
  | header =>
    dsimp only
    rw [openRecord_withPort]
    rcases openRecord s with e | s' | ⟨lo, hi, s'⟩ <;> rfl
  | flat =>
    dsimp only
    rw [flatStep_withPort, orRaise_withPort]
  | direct => exact classStep_withPort r s _
  | clutLoad => exact classStep_withPort r s _
  | scanning =>
    rw [show (s.withPort r).scanEnd = s.scanEnd from rfl, show (s.withPort r).cur = s.cur from rfl,
      show (s.withPort r).inp = s.inp from rfl]
    dsimp only
    split_ifs
    · rfl
    rcases fetchTag s.inp s.cur with e | ⟨lo, hi⟩
    · rfl
    · exact packetStep_withPort r s lo
  | transferring => rfl
  | readback => exact readback_withPort r s
  | done => rfl
  | failed => rfl

/-- The request itself stays: put its own in place of it, and nothing changes. -/
theorem seqStep_port : (seqStep s).port = s.port := by
  have h : seqStep s = (seqStep s).withPort s.port := seqStep_withPort s.port s
  rw [h]
  rfl

end WithPort

/-- Settles O53: while the transaction runs a step is the sequencer's, which commutes with the port. -/
theorem runningTransactionIgnoresPort : Obligations.RunningTransactionIgnoresPort := by
  intro s r hdone hfailed
  have running {s : State} (hp : ¬ (s.phase = .done ∨ s.phase = .failed)) : step s = .next (seqStep s) :=
    step_sequencer (.inl (Bool.eq_false_iff.2 (mt Phase.isFinal_iff.1 hp)))
  have hp : ¬ (s.phase = .done ∨ s.phase = .failed) := not_or.2 ⟨hdone, hfailed⟩
  refine ⟨seqStep s, running hp, seqStep_port s, ?_⟩
  rw [running (s := { s with port := r }) hp]
  exact congrArg Host.Outcome.next (seqStep_withPort r s)

end Sys2Proof.Machine
end

