-- ==== Sys2Proof/Proofs/DecodeRun.lean ====
section
/-! DECODE as a run (43_sequencer.md R98, R111): the atomic operation is the stepped run, the fuel is enough for every record,
and what the flat, direct and blank classes leave at the end (95_test_vectors.md S1 and S8). -/

namespace Sys2Proof.Machine

/-! ### Runs of the sequencer -/

theorem seqRun_of_final {s : State} (n : Nat) (hf : s.phase.isFinal = true) : seqRun n s = s := by
  cases n with
  | zero => rfl
  | succ n => rw [seqRun, if_pos hf]

theorem seqRun_succ_of_running {s : State} (n : Nat) (hf : s.phase.isFinal = false) :
    seqRun (n + 1) s = seqRun n (seqStep s) := by
  rw [seqRun, hf]
  rfl

theorem run_succ_of_next {M : Host.Core} {s t : M.State} (n : Nat) (h : M.step s = .next t) :
    M.run (n + 1) s = M.run n t := by
  rw [Host.Core.run, h]

/-- Without a request the machine's run is the sequencer's: a final phase stays as it is. -/
theorem run_eq_seqRun {s : State} (n : Nat) (hport : s.port = none) :
    Host.Core.run Sys2Proof.core n s = .next (seqRun n s) := by
  induction n generalizing s with
  | zero => rfl
  | succ n ih =>
    have hstep : Sys2Proof.core.step s = .next (seqStep s) := step_sequencer (.inr hport)
    refine (run_succ_of_next n hstep).trans ((ih ((seqStep_port s).trans hport)).trans (congrArg Host.Outcome.next ?_))
    cases hf : s.phase.isFinal with
    | true => rw [seqStep_of_final hf, seqRun_of_final n hf, seqRun_of_final (n + 1) hf]
    | false => exact (seqRun_succ_of_running n hf).symm

theorem exec_opDecode (record : List Byte) (s : State) : exec (.opDecode record) s = .next (decodeRecord record) := rfl

/-- Settles O45: the loaded record waits for no request, so the run is the sequencer's. -/
theorem decodeIsTheSteppedRun : Obligations.DecodeIsTheSteppedRun := by
  intro record s
  exact (run_eq_seqRun (s := State.load record) (decodeFuel record.length) rfl).symm

/-! ### The fuel is enough (R111) -/

/-- How many steps of the sequencer a state can still take: two for each packet that fits before `END`, and a few for the
phases before and after the scan. -/
def stepsLeft (s : State) : Nat :=
  match s.phase with
  | .header => 2 * (s.inp.length / 16) + 4
  | .flat | .direct | .clutLoad => 2 * (s.inp.length / 16) + 3
  | .scanning => 2 * ((s.scanEnd - s.cur) / 16) + 2
  | .transferring => 2 * ((s.scanEnd - s.cur) / 16) + 3
  | .readback => 1
  | .done | .failed => 0

theorem stepsLeft_of_class {s : State} (hp : s.phase = .flat ∨ s.phase = .direct ∨ s.phase = .clutLoad) :
    stepsLeft s = 2 * (s.inp.length / 16) + 3 := by
  rcases hp with hp | hp | hp <;> rw [stepsLeft, hp]

theorem stepsLeft_orRaise_lt {s : State} {r : Except Raise State} {n : Nat} (hn : 0 < n)
    (h : ∀ t, r = .ok t → stepsLeft t < n) : stepsLeft (orRaise s r) < n := by
  rcases orRaise_cases s r with ⟨t, hr, ht⟩ | ⟨e, _, he⟩
  · rw [ht]; exact h t hr
  · rw [he]; exact hn

theorem stepsLeft_flatStep {s : State} {n : Nat} (hn : 0 < n) : stepsLeft (orRaise s (flatStep s)) < n := by
  refine stepsLeft_orRaise_lt hn fun t ht => ?_
  obtain ⟨_, _, _, rfl⟩ := flatStep_ok ht
  exact hn

/-- A class step ends the transaction, or enters the scan. -/
theorem stepsLeft_classStep {s : State} (nloop : BitVec 15) (hend : s.scanEnd ≤ s.inp.length) :
    stepsLeft (classStep nloop s) < 2 * (s.inp.length / 16) + 3 := by
  unfold classStep
  split_ifs
  · refine stepsLeft_orRaise_lt (Nat.succ_pos _) fun t ht => ?_
    obtain ⟨_, rfl⟩ := directStep_ok ht
    exact Nat.succ_pos _
  · refine stepsLeft_orRaise_lt (Nat.succ_pos _) fun t ht => ?_
    rcases clutStep_ok ht with rfl | ⟨n2, stored, _, rfl⟩
    · exact Nat.succ_pos _
    · simp only [stepsLeft]
      omega
  · exact Nat.succ_pos _

/-- A packet moves the cursor by 16 bytes at least. -/
theorem stepsLeft_packetStep {s : State} (lo : Quad) (hp : s.phase = .scanning) (hfit : s.cur + 16 ≤ s.scanEnd) :
    stepsLeft (packetStep lo s) < 2 * ((s.scanEnd - s.cur) / 16) + 2 := by
  have hlen : 16 ≤ totalLen (tagNloop lo) := Nat.le_add_right 16 _
  unfold packetStep
  split_ifs
  · refine stepsLeft_orRaise_lt (Nat.succ_pos _) fun t ht => ?_
    have hcur := imageStep_cur ht
    have hscanEnd : t.scanEnd = s.scanEnd := by rw [imageStep_scanWrites ht]
    rw [stepsLeft, imageStep_phase ht, hscanEnd]
    dsimp only
    omega
  · refine stepsLeft_orRaise_lt (Nat.succ_pos _) fun t ht => ?_
    have hcur := regBatch_cur ht
    have hscanEnd : t.scanEnd = s.scanEnd := by rw [regBatch_scanWrites ht]
    rw [stepsLeft, regBatch_phase ht, hp, hscanEnd]
    dsimp only
    omega

/-- Every step of a running transaction takes one of the steps left. -/
theorem stepsLeft_seqStep_lt {s : State} (hs : s.Inv) (hf : s.phase.isFinal = false) :
    stepsLeft (seqStep s) < stepsLeft s := by
  cases hp : s.phase with
  | header =>
    have hleft : stepsLeft s = 2 * (s.inp.length / 16) + 4 := by rw [stepsLeft, hp]
    rw [hleft, seqStep, hp]
    dsimp only
    cases ho : openRecord s with
    | error e => exact Nat.succ_pos _
    | ok x =>
      cases x with
      | enter t =>
        have hinp : t.inp = s.inp := openRecord_inp ho
        rw [← hinp]
        exact (stepsLeft_of_class ((openRecord_ok ho).2 t rfl)).trans_lt (Nat.lt_succ_self _)
      | blank lo hi t => exact Nat.succ_pos _
  | flat =>
    rw [stepsLeft_of_class (.inl hp), seqStep, hp]
    exact stepsLeft_flatStep (Nat.succ_pos _)
  | direct =>
    rw [stepsLeft_of_class (.inr (.inl hp)), seqStep, hp]
    exact stepsLeft_classStep _ hs.scanEnd
  | clutLoad =>
    rw [stepsLeft_of_class (.inr (.inr hp)), seqStep, hp]
    exact stepsLeft_classStep _ hs.scanEnd
  | scanning =>
    have hleft : stepsLeft s = 2 * ((s.scanEnd - s.cur) / 16) + 2 := by rw [stepsLeft, hp]
    rw [hleft, seqStep, hp]
    dsimp only
    split_ifs with hend
    · exact Nat.lt_of_lt_of_le (show 1 < 2 by decide) (Nat.le_add_left _ _)
    · cases fetchTag s.inp s.cur with
      | error e => exact Nat.succ_pos _
      | ok q => exact stepsLeft_packetStep q.1 hp (Nat.not_lt.1 hend)
  | transferring =>
    have hleft : stepsLeft s = 2 * ((s.scanEnd - s.cur) / 16) + 3 := by rw [stepsLeft, hp]
    rw [hleft, seqStep, hp]
    exact Nat.lt_succ_self _
  | readback =>
    have hleft : stepsLeft s = 1 := by rw [stepsLeft, hp]
    rw [hleft, seqStep, hp]
    exact Nat.one_pos
  | done => rw [hp] at hf; cases hf
  | failed => rw [hp] at hf; cases hf

/-- With fuel for the steps left a run reaches the end. -/
theorem seqRun_isFinal {s : State} {n : Nat} (hs : s.Inv) (hn : stepsLeft s ≤ n) : (seqRun n s).phase.isFinal = true := by
  induction n generalizing s with
  | zero =>
    cases hf : s.phase.isFinal with
    | true => exact hf
    | false => exact absurd (stepsLeft_seqStep_lt hs hf) (by omega)
  | succ n ih =>
    cases hf : s.phase.isFinal with
    | true => rwa [seqRun_of_final _ hf]
    | false =>
      rw [seqRun_succ_of_running n hf]
      have := stepsLeft_seqStep_lt hs hf
      exact ih (seqStep_inv hs) (by omega)

theorem decodeRecord_isFinal (record : List Byte) : (decodeRecord record).phase.isFinal = true :=
  seqRun_isFinal (load_inv record) (Nat.le_refl (decodeFuel record.length))

theorem resultFits_done {x : Option Result} (h : resultFits .done x) : ∃ img, x = some (.image img) ∧ img.Sound := by
  match x with
  | some (.image img) => exact ⟨img, rfl, h⟩
  | some (.error _) => exact h.elim
  | none => exact h.elim

theorem resultFits_failed {x : Option Result} (h : resultFits .failed x) : ∃ k, x = some (.error k) := by
  match x with
  | some (.image _) => exact h.elim
  | some (.error k) => exact ⟨k, rfl⟩
  | none => exact h.elim

/-- Settles O42: the run ends by its fuel, and the invariant says what a final phase holds. -/
theorem decodeEndsWithImageOrError : Obligations.DecodeEndsWithImageOrError := by
  intro record
  have hfits := (decodeRecord_inv record).result
  refine ⟨decodeRecord record, exec_opDecode record, ?_⟩
  rcases Phase.isFinal_iff.1 (decodeRecord_isFinal record) with hp | hp <;> rw [hp] at hfits
  · exact .inl ⟨hp, resultFits_done hfits⟩
  · exact .inr ⟨hp, resultFits_failed hfits⟩

/-! ### Records of the flat, direct and blank classes -/

/-- A record that is finished by its header step. -/
theorem decodeRecord_of_step {record : List Byte} {t : State} (h : step (State.load record) = .next t)
    (hf : t.phase.isFinal = true) : decodeRecord record = t := by
  have hstep : seqStep (State.load record) = t := Host.Outcome.next.inj ((step_sequencer (.inl rfl)).symm.trans h)
  rw [decodeRecord, decodeFuel, seqRun_succ_of_running _ rfl, hstep, seqRun_of_final _ hf]

/-- A record that is finished by the step of its class. -/
theorem decodeRecord_of_class_step {record : List Byte} {s t : State} (h : step (State.load record) = .next s)
    (hs : s.phase.isFinal = false) (ht : seqStep s = t) (hf : t.phase.isFinal = true) : decodeRecord record = t := by
  have hstep : seqStep (State.load record) = s := Host.Outcome.next.inj ((step_sequencer (.inl rfl)).symm.trans h)
  rw [decodeRecord, decodeFuel, seqRun_succ_of_running _ rfl, hstep, seqRun_succ_of_running _ hs, ht, seqRun_of_final _ hf]

/-- The sizes the header step latches from a loaded record. -/
theorem load_headerLatched_sizes {record : List Byte} (h : 20 ≤ record.length) :
    (State.load record).headerLatched.width.toNat = valueAt record 0 2 ∧
      (State.load record).headerLatched.height.toNat = valueAt record 2 2 :=
  ⟨toNat_ofNat_valueAt_two (show 0 + 2 ≤ record.length by omega),
    toNat_ofNat_valueAt_two (show 2 + 2 ≤ record.length by omega)⟩

theorem seqStep_flat {s : State} (hp : s.phase = .flat) : seqStep s = orRaise s (flatStep s) := by rw [seqStep, hp]

theorem seqStep_direct {s : State} (hp : s.phase = .direct) (hle : tagStart s.tagOff + 16 ≤ s.inp.length)
    (hnloop : nloopAt s.inp (tagStart s.tagOff) = 3) : seqStep s = orRaise s (directStep s) := by
  have hclass : tagNloop (firstTag s).1 = nloopDirect := by
    rw [firstTag_eq_quadsAt hle]
    exact (tagNloop_quadsAt_eq_iff _ _ _).2 hnloop
  rw [seqStep, hp]
  dsimp only
  rw [classStep, if_pos hclass]

/-- Settles O43: the header selects the flat class, whose step finds palette and pixels in the record. -/
theorem validFlatRecordDecodes : Obligations.ValidFlatRecordDecodes := by
  rintro record s w h rfl rfl hw hh hT hlen
  have h20 : 20 ≤ record.length := by omega
  have hlt : valueAt record 16 4 < 2 ^ 32 := valueAt_lt h20
  obtain ⟨hwidth, hheight⟩ := load_headerLatched_sizes h20
  obtain ⟨hflat, _, _⟩ := firstTagSelectsClass (State.load record) _ rfl h20 hw.ne' hh.ne' rfl
  have hheader := hflat (by rw [State.load_inp]; split_ifs <;> omega)
  have hpal := readFlatPalette_of_le (inp := record) (p := flatPaletteOffset) (le_trans (Nat.le_add_right 1044 _) hlen)
  have hstep := flatStep_of_le (s := { (State.load record).headerLatched with phase := .flat }) hpal
    (by rw [hwidth, hheight]; exact hlen)
  have hdecode := decodeRecord_of_class_step hheader rfl ((seqStep_flat rfl).trans (congrArg (orRaise _) hstep)) rfl
  refine ⟨_, _, _, (exec_opDecode record s).trans (congrArg Host.Outcome.next hdecode), rfl, rfl, hwidth, hheight, rfl,
    ?buffer, ?size, rfl, (readFlatPalette_ok hpal).2⟩
  case buffer => rw [hwidth, hheight]; rfl
  case size => rw [hwidth, hheight]; exact bytesAt_length hlen

/-- Settles O44: the first tag selects the direct class, whose step copies the pixels, or the blank one, which the header's
step finishes. -/
theorem directAndBlankRecordsDecode : Obligations.DirectAndBlankRecordsDecode := by
  rintro record s w h tagOff rfl rfl hw hh hT hpos hsigned h20 hfit
  obtain ⟨_, _, hinside⟩ := firstTagSelectsClass (State.load record) tagOff rfl h20 hw.ne' hh.ne'
    (by rw [State.load_inp, ← hT, if_pos hsigned])
  obtain ⟨hdirect, _, hblank⟩ := hinside (by omega) (by rw [State.load_inp]; omega)
  rw [Int.toNat_natCast, State.load_inp] at hdirect hblank
  refine ⟨fun h3 hpixels => ?direct, fun h3 h4 => ?blank⟩
  case blank =>
    have hdecode := decodeRecord_of_step (hblank h3 h4) rfl
    exact ⟨_, (exec_opDecode record s).trans (congrArg Host.Outcome.next hdecode), rfl, rfl⟩
  case direct =>
    obtain ⟨hwidth, hheight⟩ := load_headerLatched_sizes h20
    have hstart : tagStart (State.load record).headerLatched.tagOff = tagOff := by
      rw [tagStart, State.headerLatched_tagOff_toInt h20, State.load_inp, ← hT, if_pos hsigned, Int.toNat_natCast]
    have hseq := seqStep_direct (s := { (State.load record).headerLatched with
      scanEnd := min record.length (valueAt record 6 2 * 16), phase := .direct }) rfl (hstart ▸ hfit) (hstart ▸ h3)
    have hstep := directStep_of_le (s := { (State.load record).headerLatched with
      scanEnd := min record.length (valueAt record 6 2 * 16), phase := .direct })
      (by rw [hstart, hwidth, hheight]; exact hpixels)
    have hdecode := decodeRecord_of_class_step (hdirect h3) rfl (hseq.trans (congrArg (orRaise _) hstep)) rfl
    refine ⟨_, (exec_opDecode record s).trans (congrArg Host.Outcome.next hdecode), rfl, ?_⟩
    rw [hstart, hwidth, hheight]
    rfl

end Sys2Proof.Machine
end

