-- ==== Sys2Proof/Proofs/ScanAndErrors.lean ====
section
/-! The scan's cursor and its one way to fail (10_state.md R15, 60_exceptions.md R113), and what an error leaves of a
transaction (R115). -/

namespace Sys2Proof.Machine

/-! ### A packet of the scan -/

theorem seqStep_scanning_packet {s : State} (hp : s.phase = .scanning) (hfit : s.cur + 16 ≤ s.scanEnd)
    (hle : s.cur + 16 ≤ s.inp.length) : seqStep s = packetStep (quadsAt s.inp s.cur).1 s := by
  rw [seqStep, hp]
  dsimp only
  rw [if_neg (Nat.not_lt.2 hfit), fetchTag_of_le hle]

theorem totalLen_quadsAt (inp : List Byte) (a : Nat) :
    totalLen (tagNloop (quadsAt inp a).1) = 16 + 16 * nloopAt inp a := by
  rw [totalLen, tagNloop_toNat]

/-- What did not fail did not raise. -/
theorem orRaise_ok_of_phase_ne {s : State} {r : Except Raise State} (h : (orRaise s r).phase ≠ .failed) :
    r = .ok (orRaise s r) := by
  cases r with
  | ok t => rfl
  | error e => exact absurd (State.raise_phase e s) h

/-- A packet that does not fail moves the cursor by its whole length at least. -/
theorem packetStep_cur {s : State} (lo : Quad) (h : (packetStep lo s).phase ≠ .failed) :
    s.cur + totalLen (tagNloop lo) ≤ (packetStep lo s).cur := by
  unfold packetStep at *
  split_ifs at *
  · exact imageStep_cur (orRaise_ok_of_phase_ne h)
  · exact (regBatch_cur (orRaise_ok_of_phase_ne h)).ge

/-- Settles O47: before the scan the cursor is 0, in the scan a packet moves it forward, and nothing else moves it. -/
theorem cursorOnlyMovesForward : Obligations.CursorOnlyMovesForward := by
  intro s t hs hnd h hnf
  rcases step_cases h with ⟨r, hf, hport, hexec⟩ | ⟨_, rfl⟩
  · have hend : s.phase = .done ∨ s.phase = .failed := Phase.isFinal_iff.1 hf
    refine ⟨?_, fun hp => by rw [hp] at hf; cases hf⟩
    rcases decodeRequest_cases r with ⟨record, hr⟩ | hr
    · exact absurd hr (decodeRequest_ne_opDecode (hnd hend r hport) record)
    · obtain ⟨t', ht', hcases⟩ := exec_host_cases hr s.consume
      obtain rfl := Host.Outcome.next.inj (ht'.symm.trans hexec)
      rcases hcases with ⟨e, rfl⟩ | hwrites
      · exact absurd (State.raise_phase e _) hnf
      · exact hwrites.cur_eq.ge
  · cases hp : s.phase with
    | header | flat | direct | clutLoad =>
      have hzero : s.cur = 0 := hs.cursorBefore (by rw [hp]; rfl)
      exact ⟨hzero ▸ Nat.zero_le _, nofun⟩
    | scanning =>
      rcases Nat.lt_or_ge s.scanEnd (s.cur + 16) with hend | hfit
      · rw [seqStep_scanning_end hp hend]
        exact ⟨le_rfl, fun _ hfit => absurd hend (Nat.not_lt.2 hfit)⟩
      · have hstep := seqStep_scanning_packet hp hfit (hfit.trans hs.scanEnd)
        rw [hstep] at hnf ⊢
        have hcur := packetStep_cur _ hnf
        rw [totalLen_quadsAt] at hcur
        exact ⟨by omega, fun _ _ => by omega⟩
    | transferring | readback | done | failed =>
      rw [seqStep, hp]
      exact ⟨le_rfl, nofun⟩

/-- The payload that leaves the record is the packet's own, or that of an image packet right behind it within `END`. -/
theorem imagePayload_error_cases {inp : List Byte} {scanEnd c c2 : Nat} {n : BitVec 15} {e : Raise}
    (hend : scanEnd ≤ inp.length) (hc2 : c2 = c + 16 + 16 * n.toNat) (h : imagePayload inp scanEnd c n = .error e) :
    inp.length < c2 ∨
      (c2 + 16 ≤ scanEnd ∧ flgAt inp c2 = 2 ∧ inp.length < c2 + 16 + 16 * nloopAt inp c2) := by
  rcases Nat.lt_or_ge inp.length c2 with hlt | hle
  · exact .inl hlt
  by_cases hnext : scanEnd < c2 + 16 ∨ flgAt inp c2 ≠ 2
  · rw [imagePayload_alone hend hc2 hle hnext] at h
    cases h
  · obtain ⟨hfit, himage⟩ := not_or.1 hnext
    have hfollowed := imagePayload_followed hend hc2 rfl (Nat.not_lt.1 hfit) (not_not.1 himage)
    refine .inr ⟨Nat.not_lt.1 hfit, not_not.1 himage, Nat.lt_of_not_le fun hin => ?_⟩
    rw [hfollowed, inBytes_of_le hin] at h
    cases h

/-- Settles O46: below an `END` in the record the tag is read and a batch does not raise, so only an image payload can. -/
theorem scanFailsOnlyOnImagePayload : Obligations.ScanFailsOnlyOnImagePayload := by
  intro s t c2 hs hp h hfailed hc2
  obtain rfl : t = seqStep s := Host.Outcome.next.inj (h.symm.trans (step_sequencer (.inl (by rw [hp]; rfl))))
  rcases Nat.lt_or_ge s.scanEnd (s.cur + 16) with hend | hfit
  · rw [seqStep_scanning_end hp hend] at hfailed
    cases hfailed
  rw [seqStep_scanning_packet hp hfit (hfit.trans hs.scanEnd), packetStep] at hfailed ⊢
  split_ifs at hfailed ⊢ with himage
  · cases hpayload : imagePayload s.inp s.scanEnd s.cur (tagNloop (quadsAt s.inp s.cur).1) with
    | ok dc =>
      rw [imageStep_of_payload hpayload] at hfailed
      cases hfailed
    | error e =>
      have hstep : imageStep (tagNloop (quadsAt s.inp s.cur).1) s = .error e := by rw [imageStep, hpayload]
      have hraise := orRaise_of_raisesOutOfBounds ⟨e, hstep, imagePayload_error hpayload⟩ s
      exact ⟨hraise.2, hfit, (tagFlg_quadsAt_eq_image_iff s.inp s.cur).1 himage,
        imagePayload_error_cases hs.scanEnd (by rw [tagNloop_toNat]; exact hc2) hpayload⟩
  · obtain ⟨_, _, _, _, _, _, hbatch⟩ := regBatch_spec (tagNloop (quadsAt s.inp s.cur).1) hs.scanEnd
    rw [hbatch] at hfailed
    exact absurd (hp.symm.trans hfailed) (by decide)

/-! ### What an error leaves (R115) -/

theorem raise_eq_discarded (e : Raise) (s : State) : s.raise e = s.discarded e.kind e.diag := rfl

/-- A failure where no good outcome has phase Failed is a raise. -/
theorem orRaise_failed {s : State} {r : Except Raise State} (hok : ∀ t, r = .ok t → t.phase ≠ .failed)
    (h : (orRaise s r).phase = .failed) : ∃ e, orRaise s r = s.raise e := by
  rcases orRaise_cases s r with ⟨t, hr, ht⟩ | ⟨e, _, he⟩
  · exact absurd (ht ▸ h) (hok t hr)
  · exact ⟨e, he⟩

theorem flatStep_phase {s t : State} (h : flatStep s = .ok t) : t.phase = .done := by
  obtain ⟨_, _, _, rfl⟩ := flatStep_ok h
  rfl

theorem directStep_phase {s t : State} (h : directStep s = .ok t) : t.phase = .done := by
  obtain ⟨_, rfl⟩ := directStep_ok h
  rfl

theorem clutStep_phase {s t : State} (h : clutStep s = .ok t) : t.phase = .done ∨ t.phase = .scanning := by
  rcases clutStep_ok h with rfl | ⟨_, _, _, rfl⟩
  · exact .inl rfl
  · exact .inr rfl

section Failures

variable {s : State}

theorem flatStep_failed (h : (orRaise s (flatStep s)).phase = .failed) : ∃ e, orRaise s (flatStep s) = s.raise e :=
  orRaise_failed (fun t ht => by rw [flatStep_phase ht]; decide) h

theorem directStep_failed (h : (orRaise s (directStep s)).phase = .failed) : ∃ e, orRaise s (directStep s) = s.raise e :=
  orRaise_failed (fun t ht => by rw [directStep_phase ht]; decide) h

theorem clutStep_failed (h : (orRaise s (clutStep s)).phase = .failed) : ∃ e, orRaise s (clutStep s) = s.raise e :=
  orRaise_failed (fun t ht => by rcases clutStep_phase ht with hp | hp <;> rw [hp] <;> decide) h

theorem imageStep_failed {n : BitVec 15} (h : (orRaise s (imageStep n s)).phase = .failed) :
    ∃ e, orRaise s (imageStep n s) = s.raise e :=
  orRaise_failed (fun t ht => by rw [imageStep_phase ht]; decide) h

/-- A batch keeps the phase, so it fails by a raise or was called in phase Failed. -/
theorem regBatch_failed {n : BitVec 15} (hp : s.phase ≠ .failed) (h : (orRaise s (regBatch n s)).phase = .failed) :
    ∃ e, orRaise s (regBatch n s) = s.raise e :=
  orRaise_failed (fun t ht => by rwa [regBatch_phase ht]) h

theorem classStep_failed {n : BitVec 15} (h : (classStep n s).phase = .failed) : ∃ e, classStep n s = s.raise e := by
  unfold classStep at *
  split_ifs at *
  · exact directStep_failed h
  · exact clutStep_failed h
  · cases h

theorem packetStep_failed {lo : Quad} (hp : s.phase ≠ .failed) (h : (packetStep lo s).phase = .failed) :
    ∃ e, packetStep lo s = s.raise e := by
  unfold packetStep at *
  split_ifs at *
  · exact imageStep_failed h
  · exact regBatch_failed hp h

/-- A step of the sequencer that goes to Failed raises. -/
theorem seqStep_failed (hp : s.phase ≠ .failed) (h : (seqStep s).phase = .failed) : ∃ e, seqStep s = s.raise e := by
  unfold seqStep at *
  cases hphase : s.phase with
  | header =>
    rw [hphase] at h
    dsimp only at h ⊢
    cases ho : openRecord s with
    | error e => exact ⟨e, rfl⟩
    | ok x =>
      rw [ho] at h
      cases x with
      | enter t =>
        have hclass := (openRecord_ok ho).2 t rfl
        rw [show t.phase = .failed from h] at hclass
        exact absurd hclass (by decide)
      | blank lo hi t => cases h
  | flat => rw [hphase] at h; exact flatStep_failed h
  | direct => rw [hphase] at h; exact classStep_failed h
  | clutLoad => rw [hphase] at h; exact classStep_failed h
  | scanning =>
    rw [hphase] at h
    dsimp only at h ⊢
    split_ifs at h ⊢
    cases hfetch : fetchTag s.inp s.cur with
    | error e => exact ⟨e, rfl⟩
    | ok q => rw [hfetch] at h; exact packetStep_failed hp h
  | transferring => rw [hphase] at h; cases h
  | readback => rw [hphase] at h; cases h
  | done => rw [hphase] at h; exact absurd h hp
  | failed => exact absurd hphase hp

/-- Every instruction but DECODE that goes to Failed raises. -/
theorem exec_failed {i : Instr} {t : State} (hi : ∀ record, i ≠ .opDecode record) (hp : s.phase ≠ .failed)
    (h : exec i s = .next t) (hf : t.phase = .failed) : ∃ e, t = s.raise e := by
  cases hkind : isOfTransaction i with
  | false =>
    obtain ⟨t', ht', hcases⟩ := exec_host_cases hkind s
    obtain rfl := Host.Outcome.next.inj (ht'.symm.trans h)
    exact hcases.resolve_right fun hwrites => hp (hwrites.phase_eq.symm.trans hf)
  | true =>
    cases i with
    | recordFlat => cases h; exact flatStep_failed hf
    | recordDirect => cases h; exact directStep_failed hf
    | recordIndexed => cases h; exact clutStep_failed hf
    | recordBlank => cases h; cases hf
    | giftagPacked => cases h; exact regBatch_failed hp hf
    | giftagReglist => cases h; exact regBatch_failed hp hf
    | giftagDisabled => cases h; exact regBatch_failed hp hf
    | giftagImage => cases h; exact imageStep_failed hf
    | opDecode record => exact absurd rfl (hi record)
    | _ => cases hkind

end Failures

/-- Settles O48: whatever goes to Failed raised, and a raise leaves the discarded state. -/
theorem errorDiscardsTransaction : Obligations.ErrorDiscardsTransaction := by
  intro s
  refine ⟨fun t hdone hfailed h hf => ?running, fun i t hi hp h hf => ?instruction, fun a hlt => ?parseTag,
    fun start count id bound hcount hbound hlt => ?findReg, fun p w h hlt => ?readPalette, fun p hlt => ?readFlatPalette⟩
  case running =>
    have hrunning : s.phase.isFinal = false := Bool.eq_false_iff.2 (mt Phase.isFinal_iff.1 (not_or.2 ⟨hdone, hfailed⟩))
    obtain rfl : t = seqStep s := Host.Outcome.next.inj (h.symm.trans (step_sequencer (.inl hrunning)))
    obtain ⟨e, he⟩ := seqStep_failed hfailed hf
    exact ⟨_, _, he⟩
  case instruction =>
    obtain ⟨e, rfl⟩ := exec_failed hi hp h hf
    exact ⟨_, _, raise_eq_discarded e s⟩
  case parseTag =>
    obtain ⟨x, hx⟩ := exec_opParseTag_of_lt hlt
    exact ⟨_, hx⟩
  case findReg => exact ⟨_, exec_opFindReg_of_lt hcount hbound hlt⟩
  case readPalette => exact ⟨_, exec_opReadPalette_of_lt hlt⟩
  case readFlatPalette => exact ⟨_, exec_opReadFlatPalette_of_lt hlt⟩

end Sys2Proof.Machine
end
